-- ==== Sys2Proof/Word.lean ====
section
/-! DEFINITION. The machine word: a 32-bit unsigned integer (spec/00_scope.md R9, R8 WORD_BITS = 32). -/

namespace Sys2Proof

/-- A word, and every element of the buffer memory (R9, R40, R41). -/
abbrev Word := BitVec 32

end Sys2Proof
end

