-- ==== Sys2Proof/Syntax.lean ====
section
/-! DEFINITION. The twelve commands (spec/30_encoding.md R73), the 128-bit descriptor they are encoded in (R70), and the
reasons a descriptor is reserved (R76). -/

namespace Sys2Proof

/-- A descriptor: 128 bits seen as four words (R70). -/
structure Descriptor where
  /-- Control word, bits 31:0 (R71). -/
  cw0 : Word
  /-- `SRC`, bits 63:32 (R72). -/
  cw1 : Word
  /-- `DST`, bits 95:64 (R72). -/
  cw2 : Word
  /-- `LEN`, bits 127:96 (R72). -/
  cw3 : Word
  deriving DecidableEq, Repr

/-- The commands (R73), one constructor a row of spec/opcode_table.json. `w` is the bit width, `src` and `dst` are
word addresses, `len` the element count `N`, `M` or `n` of R72. A final `S` is the serial form, a final `V` the
lane-parallel one; the digit is the width of a plane (`k = 2` for 16, `k = 4` for 8). -/
inductive Instr where
  /-- `PACK.S w, src, dst, len` (R101). -/
  | packS (w : Nat) (src dst len : Word)
  /-- `PACK.V w, src, dst, len` (R102). -/
  | packV (w : Nat) (src dst len : Word)
  /-- `UNPACK.S w, src, dst, len` (R103). -/
  | unpackS (w : Nat) (src dst len : Word)
  /-- `UNPACK.V w, src, dst, len` (R104). -/
  | unpackV (w : Nat) (src dst len : Word)
  /-- `COLLAPSE16.S src, dst, n` (R131). -/
  | collapse16S (src dst len : Word)
  /-- `COLLAPSE16.V src, dst, n` (R132). -/
  | collapse16V (src dst len : Word)
  /-- `COLLAPSE8.S src, dst, n` (R133). -/
  | collapse8S (src dst len : Word)
  /-- `COLLAPSE8.V src, dst, n` (R134). -/
  | collapse8V (src dst len : Word)
  /-- `EXPAND16.S src, dst, n` (R135). -/
  | expand16S (src dst len : Word)
  /-- `EXPAND16.V src, dst, n` (R136). -/
  | expand16V (src dst len : Word)
  /-- `EXPAND8.S src, dst, n` (R137). -/
  | expand8S (src dst len : Word)
  /-- `EXPAND8.V src, dst, n` (R138). -/
  | expand8V (src dst len : Word)
  deriving DecidableEq, Repr

/-- Why a descriptor is reserved (R76). -/
inductive Reserved where
  /-- (a) `RSV0` or `RSV1` is not 0. -/
  | fieldNotZero
  /-- (b) PACK or UNPACK with `PARAM` 0 or above 32. -/
  | width
  /-- (c) COLLAPSE or EXPAND with `PARAM` neither 2 nor 4. -/
  | planeCount
  deriving DecidableEq, Repr

end Sys2Proof
end

