-- ==== Sys2Proof/WellFormed.lean ====
section
/-! DEFINITION. Which terms of `Instr` are commands of the hardware: the width of PACK and UNPACK is 1 to 32
(spec/30_encoding.md R71, R73). Every other operand fits its field by its type. -/

namespace Sys2Proof

/-- The legal bit widths of the encoding (R71, R73). -/
abbrev LegalWidth (w : Nat) : Prop := 1 ≤ w ∧ w ≤ 32

/-- A command the encoding admits (R73). -/
def Instr.wellFormed : Instr → Bool
  | .packS w _ _ _ => decide (LegalWidth w)
  | .packV w _ _ _ => decide (LegalWidth w)
  | .unpackS w _ _ _ => decide (LegalWidth w)
  | .unpackV w _ _ _ => decide (LegalWidth w)
  | .collapse16S _ _ _ => true
  | .collapse16V _ _ _ => true
  | .collapse8S _ _ _ => true
  | .collapse8V _ _ _ => true
  | .expand16S _ _ _ => true
  | .expand16V _ _ _ => true
  | .expand8S _ _ _ => true
  | .expand8V _ _ _ => true

/-- `Instr.wellFormed` as a proposition. -/
abbrev Instr.WellFormed (i : Instr) : Prop := i.wellFormed = true

end Sys2Proof
end

