-- ==== Sys2Proof/Decode.lean ====
section
/-! DEFINITION. Decoding and encoding of descriptors (spec/30_encoding.md R70 to R74, R76, R81), and the host's entry
`decodeTableWord`. Decoding is total: a descriptor is a command or reserved, by name. -/

namespace Sys2Proof

/-- The descriptor whose 128 bits are `n`, bit 0 the least significant bit of `CW0` (R70). -/
def Descriptor.ofNat (n : Nat) : Descriptor where
  cw0 := BitVec.ofNat 32 n
  cw1 := BitVec.ofNat 32 (n >>> 32)
  cw2 := BitVec.ofNat 32 (n >>> 64)
  cw3 := BitVec.ofNat 32 (n >>> 96)

/-- The descriptor as one 128-bit number, `CW0` lowest (R70, R82). -/
def Descriptor.toNat (d : Descriptor) : Nat :=
  d.cw0.toNat + d.cw1.toNat <<< 32 + d.cw2.toNat <<< 64 + d.cw3.toNat <<< 96

/-- Field `OP`, `CW0[1:0]` (R71). -/
def Descriptor.op (d : Descriptor) : Nat := (d.cw0.extractLsb' 0 2).toNat

/-- Field `V`, `CW0[2]`: true for the lane-parallel form (R71, R75). -/
def Descriptor.vector (d : Descriptor) : Bool := d.cw0.getLsbD 2

/-- Field `RSV0`, `CW0[7:3]` (R71). -/
def Descriptor.rsv0 (d : Descriptor) : Nat := (d.cw0.extractLsb' 3 5).toNat

/-- Field `PARAM`, `CW0[13:8]` (R71). -/
def Descriptor.param (d : Descriptor) : Nat := (d.cw0.extractLsb' 8 6).toNat

/-- Field `RSV1`, `CW0[31:14]` (R71). -/
def Descriptor.rsv1 (d : Descriptor) : Nat := (d.cw0.extractLsb' 14 18).toNat

/-- The command of an operation, form and parameter (R73, R74, R81), or the reason it is reserved (R76 b, c). -/
def decodeFields (op : Nat) (v : Bool) (p : Nat) (src dst len : Word) : Except Reserved Instr :=
  match op with
  | 0 =>
    if p = 0 ∨ 32 < p then .error .width
    else .ok (if v then .packV p src dst len else .packS p src dst len)
  | 1 =>
    if p = 0 ∨ 32 < p then .error .width
    else .ok (if v then .unpackV p src dst len else .unpackS p src dst len)
  | 2 =>
    if p = 2 then .ok (if v then .collapse16V src dst len else .collapse16S src dst len)
    else if p = 4 then .ok (if v then .collapse8V src dst len else .collapse8S src dst len)
    else .error .planeCount
  | _ =>
    if p = 2 then .ok (if v then .expand16V src dst len else .expand16S src dst len)
    else if p = 4 then .ok (if v then .expand8V src dst len else .expand8S src dst len)
    else .error .planeCount

/-- `decode` (R81). -/
def decode (d : Descriptor) : Except Reserved Instr :=
  if d.rsv0 ≠ 0 ∨ d.rsv1 ≠ 0 then .error .fieldNotZero
  else decodeFields d.op d.vector d.param d.cw1 d.cw2 d.cw3

/-- `decode` of the bits of an instruction as spec/opcode_table.json numbers them: bit 0 is the least significant bit of
the first word. The bits above `nbits` are 0. -/
def decodeTableWord (nbits w : Nat) : Option Instr :=
  (decode (Descriptor.ofNat (w % 2 ^ nbits))).toOption

/-- `encode` by fields (R81): `CW0 = op | (v << 2) | (param << 8)`. -/
def encodeFields (op v p : Nat) (src dst len : Word) : Descriptor where
  cw0 := BitVec.ofNat 32 (op ||| v <<< 2 ||| p <<< 8)
  cw1 := src
  cw2 := dst
  cw3 := len

/-- `encode` (R73, R81). -/
def encode : Instr → Descriptor
  | .packS w src dst len => encodeFields 0 0 w src dst len
  | .packV w src dst len => encodeFields 0 1 w src dst len
  | .unpackS w src dst len => encodeFields 1 0 w src dst len
  | .unpackV w src dst len => encodeFields 1 1 w src dst len
  | .collapse16S src dst len => encodeFields 2 0 2 src dst len
  | .collapse16V src dst len => encodeFields 2 1 2 src dst len
  | .collapse8S src dst len => encodeFields 2 0 4 src dst len
  | .collapse8V src dst len => encodeFields 2 1 4 src dst len
  | .expand16S src dst len => encodeFields 3 0 2 src dst len
  | .expand16V src dst len => encodeFields 3 1 2 src dst len
  | .expand8S src dst len => encodeFields 3 0 4 src dst len
  | .expand8V src dst len => encodeFields 3 1 4 src dst len

end Sys2Proof
end

