-- ==== Sys2Proof/Config.lean ====
section
/-! DEFINITION. The implementation parameters of spec/00_scope.md R8 and the free values: what the spec leaves open. -/

namespace Sys2Proof

/-- The parameters an instance is built with (R8; table of OPEN parameters in 92_eei_decisions.md). "The model takes
the value as an argument": a `Config` is a field of the state that no step changes. BYTE_ORDER is absent because no
rule reads it (R45); CHECK_GEN and CHECK_SEED belong to the environment (R171). -/
structure Config where
  /-- `LANES`: words one vector register holds (R8, R27). -/
  lanes : Nat
  /-- `MEM_WORDS`: words of buffer memory (R8, R40). -/
  memWords : Nat
  /-- `N_INST`: instances sharing the memory (R8, R180). -/
  nInst : Nat
  /-- `W_SET`: the widths this instance accepts, by default all of 1..32 (R8, R100). -/
  widths : List Nat
  /-- `PLANE_N(2)`: the one plane length accepted at k = 2, if the build fixes one (R8, R148). -/
  planeN2 : Option Nat
  /-- `PLANE_N(4)`: the same at k = 4 (R8, R148). -/
  planeN4 : Option Nat
  /-- Word ranges (base, length) a platform maps to something other than plain memory (R48). -/
  notPlain : List (Nat × Nat)
  deriving DecidableEq, Repr

/-- The ranges R8 allows: `LANES ≥ 1`, `1 ≤ MEM_WORDS ≤ 2^32`, `N_INST ≥ 1`, and `W_SET` a subset of 1..32 that
holds at least the divisors of 32. -/
structure Config.Legal (c : Config) : Prop where
  lanes : 1 ≤ c.lanes
  memWords : 1 ≤ c.memWords ∧ c.memWords ≤ 2 ^ 32
  nInst : 1 ≤ c.nInst
  widths : ∀ w ∈ c.widths, 1 ≤ w ∧ w ≤ 32
  divisors : ∀ w ∈ [1, 2, 4, 8, 16, 32], w ∈ c.widths

/-- The values of the test vectors (R8, last column; 95_test_vectors.md, conventions), with `LANES = 1`.
DESIGN CHOICE (log entry 2): the spec fixes none of them. -/
def Config.vectors : Config where
  lanes := 1
  memWords := 1024
  nInst := 1
  widths := List.range' 1 32
  planeN2 := none
  planeN4 := none
  notPlain := []

/-- What a word of memory reads as before anything has written it: unspecified (R30), one value for each address, so
that reading a word twice gives the same (R48). A free value (log entry 4): no proof can see it. -/
opaque Config.unwrittenWord : Nat → Word

/-- Free values in sequence, drawn by the counter `State.fresh` (log entry 5): what the spec calls "unspecified" or
"any value" after an event (R32, R33; U10, U17 of 93_implementation_defined.md). -/
opaque Config.freeWord : Nat → Word

end Sys2Proof
end

