-- ==== Sys2Proof/Machine/State.lean ====
section
/-! DEFINITION. The state of the machine (spec/10_state.md), the host's moves (spec/60_exceptions.md R182), the reasons a
step stops, and the state after reset (R30 to R32). -/

namespace Sys2Proof.Machine

/-- The buffer memory `MEM` (R40): the words written so far as (word address, word), addresses strictly rising. The
word is the smallest addressable unit (R40, R41, R46; log entry 3). -/
abbrev Memory := List (Nat × Word)

/-- The transient registers of one instance (R27): command-scoped, never visible to the host. -/
structure Transients where
  /-- `ACC`, the accumulator of the serial datapath. -/
  acc : Word
  /-- `V`, one word a lane. -/
  v : List Word
  /-- `A`, one word a lane. -/
  a : List Word
  /-- `T`, one word a lane. -/
  t : List Word
  deriving DecidableEq, Repr

/-- One FWBP instance (R22, R27). -/
structure Instance where
  /-- `busy`: 1 from ISSUE to DONE (R22). -/
  busy : Bool
  /-- The transition of the command in flight has been made, the enabling condition of DONE (R84). -/
  made : Bool
  /-- `cur`: the descriptor latched at ISSUE (R22). -/
  cur : Descriptor
  /-- `ACC`, `V`, `A`, `T` (R27). -/
  regs : Transients
  deriving DecidableEq, Repr

/-- What happens next from outside the block: the moves of the host (R182, R84, R190) and the free choice of which
instance goes next (R203). -/
inductive HostMove where
  /-- The host reads the word at `a`. -/
  | read (a : Nat)
  /-- The host writes `x` to the word at `a`. -/
  | write (a : Nat) (x : Word)
  /-- `ISSUE(d)` to instance `k` (R84). -/
  | issue (k : Nat) (d : Descriptor)
  /-- Instance `k` makes its next move: the transition of its command, or DONE (R84, R203). -/
  | run (k : Nat)
  /-- The reset event (R190). -/
  | reset
  deriving DecidableEq, Repr

/-- The ways a command is outside its precondition domain (R162), with the two restrictions a build may add
(`W_SET`, `PLANE_N`: R8). V9 and V10 are no property of one command and are refusals of their own. -/
inductive Violation where
  /-- V1: a source value of PACK is not below `2^w`. -/
  | valueTooWide
  /-- V2: a plane element of COLLAPSE is not below `2^bpp(k)`. -/
  | planeValueTooWide
  /-- V3: `LEN` of PACK is no multiple of `vpw(w)`. -/
  | lengthNotMultiple
  /-- V4: the lane condition of a `.V` form fails (R105, R143). -/
  | laneCondition
  /-- V5: a footprint is not inside `[0, MEM_WORDS)` (R49). -/
  | outOfBounds
  /-- V6: the footprints overlap otherwise than by `DST = SRC` on a plane command (R51). -/
  | overlap
  /-- V7: no command of the encoding has this width (R76). -/
  | reserved
  /-- V8: a footprint covers memory that is not plain (R48). -/
  | notPlain
  /-- The build's `W_SET` leaves this width out (R8, R100). -/
  | widthNotSupported
  /-- The build fixes `PLANE_N(k)` and `LEN` differs (R8, R148). -/
  | planeLengthNotSupported
  deriving DecidableEq, Repr

/-- What stops the machine with a fault. No command raises any (R160): the one constructor is about the host. -/
inductive Fault where
  /-- Raised by a `read` or `write` move of the host at a word address `a ≥ MEM_WORDS`, which does not exist (R40).
  Safe: the machine stops where the spec says nothing. -/
  | noSuchWord (a : Nat)
  deriving DecidableEq, Repr

/-- Where the spec gives no meaning and the model refuses (R163). -/
inductive Refusal where
  /-- Kept for an instruction of the table that has no meaning in the model; no arm of `exec` raises it. Safe. -/
  | notModelled (mnemonic : String)
  /-- Raised at ISSUE, or at the transition, of a reserved descriptor (R76, V7). Safe. -/
  | reserved (r : Reserved)
  /-- Raised by every command outside its precondition domain, with the preconditions it breaks (R162, R163, R166).
  Safe. -/
  | precondition (vs : List Violation)
  /-- V9, raised at ISSUE of a command that is in its domain by V1 to V8 and whose footprints alias those of a command
  in flight on another instance (R56). A command that breaks V1 to V8 too is refused for those (log entry 12). Safe. -/
  | concurrentConflict
  /-- V10, raised by a host move that reads `W(c)` or writes `R(c) ∪ W(c)` of a command in flight (R194). Safe. -/
  | hostTouchesFootprint (a : Nat)
  /-- Raised by a host move at a word that is not plain memory (R48): the spec gives such a word no behaviour. Safe. -/
  | notPlainWord (a : Nat)
  /-- Raised by a move that names an instance the platform does not have (R180). Safe. -/
  | noSuchInstance (k : Nat)
  /-- Raised by the reset event while an instance is busy with a descriptor that ISSUE would have refused: its
  behaviour was undefined before the reset came (R84, R164). No reachable state raises it. Safe. -/
  | undefinedInFlight
  deriving DecidableEq, Repr

/-- The whole machine. -/
structure State where
  /-- The build's parameters (R8); no step changes them. -/
  cfg : Config
  /-- The buffer memory (R40). -/
  mem : Memory
  /-- The instances, by index (R180). -/
  insts : List Instance
  /-- What the host and the scheduler do next, oldest first (host state: R24, R85, R182, R203). -/
  moves : List HostMove
  /-- Which instance makes the transition being executed: the model's own field. -/
  active : Nat
  /-- How many free values have been drawn: the model's own field (log entry 5). -/
  fresh : Nat
  /-- How many commands of the run have been issued, those in flight when it began among them (R192): the model's own field
  (log entry 25). -/
  issued : Nat
  /-- How many commands of the run have produced DONE (R192): the model's own field (log entry 25). -/
  completed : Nat
  deriving DecidableEq, Repr

/-- The descriptor of four zero words. -/
def Descriptor.zero : Descriptor := ⟨0, 0, 0, 0⟩

/-- `ACC`, `V`, `A`, `T` after reset: unspecified (R32); 0 is a DESIGN CHOICE (log entry 6). -/
def Transients.reset (lanes : Nat) : Transients where
  acc := 0
  v := List.replicate lanes 0
  a := List.replicate lanes 0
  t := List.replicate lanes 0

/-- An instance after reset: `busy = 0` (R31); the rest is unspecified (R31, R32; log entry 6). -/
def Instance.reset (lanes : Nat) : Instance where
  busy := false
  made := false
  cur := Descriptor.zero
  regs := Transients.reset lanes

/-- The machine right after power-on reset with parameters `c`: every instance idle (R31), no word written (R30), and
no move of the host pending. -/
def State.resetWith (c : Config) : State where
  cfg := c
  mem := []
  insts := List.replicate c.nInst (Instance.reset c.lanes)
  moves := []
  active := 0
  fresh := 0
  issued := 0
  completed := 0

/-- The machine right after reset, with the parameters of `Config.vectors` (log entry 2). -/
def State.reset : State := State.resetWith Config.vectors

end Sys2Proof.Machine
end

