-- ==== Sys2Proof/Machine/Operands.lean ====
section
/-! DEFINITION. Operators on words and the derived quantities of spec/00_scope.md (R10, R12, R13), and the operands of a
command: its fields (R74) and its footprints (R50). -/

namespace Sys2Proof.Machine

/-- `shl32(x, s)`: bits shifted past bit 31 are lost (R10). -/
def shl32 (x : Word) (s : Nat) : Word := x <<< s

/-- `shr32(x, s)`: logical (R10). -/
def shr32 (x : Word) (s : Nat) : Word := x >>> s

/-- `mask(m) = 2^m - 1`, computed as an integer, so that `mask(32)` is all ones (R10). -/
def mask (m : Nat) : Word := BitVec.ofNat 32 (2 ^ m - 1)

/-- `vpw(w)`: values held by one packed word (R12, R100). -/
def vpw (w : Nat) : Nat := 32 / w

/-- `sh(w, i)`: bit offset of slot `i` (R12). -/
def sh (w i : Nat) : Nat := 32 - w - i * w

/-- `pad(w)`: unused low bits of a packed word (R12). -/
def pad (w : Nat) : Nat := 32 % w

/-- `bpp(k)`: bits of a plane element (R13). -/
def bpp (k : Nat) : Nat := 32 / k

/-- `psh(k, j)`: bit offset of plane `j` in a merged word (R13). -/
def psh (k j : Nat) : Nat := (k - 1 - j) * bpp k

/-- A half-open range of word addresses `[base, base + len)`, in mathematical integers (R49, R50). -/
structure Footprint where
  base : Nat
  len : Nat
  deriving DecidableEq, Repr

/-- `a` is in the range. -/
abbrev Footprint.Has (f : Footprint) (a : Nat) : Prop := f.base ≤ a ∧ a < f.base + f.len

/-- No address is in both (an empty range meets nothing). -/
abbrev Footprint.Disjoint (f g : Footprint) : Prop :=
  f.len = 0 ∨ g.len = 0 ∨ f.base + f.len ≤ g.base ∨ g.base + g.len ≤ f.base

/-- Every address of the range is below `n` (R49). -/
abbrev Footprint.Within (f : Footprint) (n : Nat) : Prop := f.len = 0 ∨ f.base + f.len ≤ n

/-- The operation and its parameter, without the form: what the footprints and the result depend on (R75). -/
inductive Op where
  /-- PACK at width `w`. -/
  | pack (w : Nat)
  /-- UNPACK at width `w`. -/
  | unpack (w : Nat)
  /-- COLLAPSE of `k` planes. -/
  | collapse (k : Nat)
  /-- EXPAND to `k` planes. -/
  | expand (k : Nat)
  deriving DecidableEq, Repr

/-- The operands of a command (R74): operation with `w` or `k`, form, `SRC`, `DST`, `LEN`. -/
structure Operands where
  op : Op
  /-- The `.V` form. -/
  vector : Bool
  src : Nat
  dst : Nat
  len : Nat
  deriving DecidableEq, Repr

/-- The operands a command names (R73, R74). -/
def operands : Instr → Operands
  | .packS w s d n => ⟨.pack w, false, s.toNat, d.toNat, n.toNat⟩
  | .packV w s d n => ⟨.pack w, true, s.toNat, d.toNat, n.toNat⟩
  | .unpackS w s d n => ⟨.unpack w, false, s.toNat, d.toNat, n.toNat⟩
  | .unpackV w s d n => ⟨.unpack w, true, s.toNat, d.toNat, n.toNat⟩
  | .collapse16S s d n => ⟨.collapse 2, false, s.toNat, d.toNat, n.toNat⟩
  | .collapse16V s d n => ⟨.collapse 2, true, s.toNat, d.toNat, n.toNat⟩
  | .collapse8S s d n => ⟨.collapse 4, false, s.toNat, d.toNat, n.toNat⟩
  | .collapse8V s d n => ⟨.collapse 4, true, s.toNat, d.toNat, n.toNat⟩
  | .expand16S s d n => ⟨.expand 2, false, s.toNat, d.toNat, n.toNat⟩
  | .expand16V s d n => ⟨.expand 2, true, s.toNat, d.toNat, n.toNat⟩
  | .expand8S s d n => ⟨.expand 4, false, s.toNat, d.toNat, n.toNat⟩
  | .expand8V s d n => ⟨.expand 4, true, s.toNat, d.toNat, n.toNat⟩

/-- `R(c)`, the read footprint (R50). -/
def readsOf (o : Operands) : Footprint :=
  match o.op with
  | .pack _ => ⟨o.src, o.len⟩
  | .unpack _ => ⟨o.src, o.len⟩
  | .collapse k => ⟨o.src, k * o.len⟩
  | .expand _ => ⟨o.src, o.len⟩

/-- `W(c)`, the write footprint (R50). -/
def writesOf (o : Operands) : Footprint :=
  match o.op with
  | .pack w => ⟨o.dst, o.len / vpw w⟩
  | .unpack w => ⟨o.dst, o.len * vpw w⟩
  | .collapse _ => ⟨o.dst, o.len⟩
  | .expand k => ⟨o.dst, k * o.len⟩

/-- `R(c)` of a command. -/
def reads (i : Instr) : Footprint := readsOf (operands i)

/-- `W(c)` of a command. -/
def writes (i : Instr) : Footprint := writesOf (operands i)

/-- Two commands in flight together must not alias: each one's write footprint is disjoint from both footprints of
the other (R56). -/
abbrev Independent (i j : Instr) : Prop :=
  (writes i).Disjoint (reads j) ∧ (writes i).Disjoint (writes j) ∧
    (writes j).Disjoint (reads i) ∧ (writes j).Disjoint (writes i)

end Sys2Proof.Machine
end

