-- ==== Sys2Proof/Machine/Ops.lean ====
section
/-! DEFINITION. The operations over memory and registers: reading and writing a word (spec/20_memory.md R40, R46, R48),
the canonical form of the memory, loops, and the datapath's micro-operations on `ACC`, `V`, `A`, `T`
(spec/10_state.md R27). The block takes no exception and returns from none (R160, R167), so there is no such operation. -/

namespace Sys2Proof.Machine

/-- The word written at `a`, if anything has been written there. -/
def Memory.get? : Memory → Nat → Option Word
  | [], _ => none
  | (b, x) :: m, a => if a = b then some x else Memory.get? m a

/-- `MemRead(a, 4)` (R11): what has been written at `a`, else the free value of a word nothing has written
(R30, log entry 4). -/
def Memory.read (m : Memory) (a : Nat) : Word := (Memory.get? m a).getD (Config.unwrittenWord a)

/-- `MemWrite(a, 4, x)` (R11): the word at `a` becomes `x`, no other word changes (R48). Keeps the addresses rising. -/
def Memory.write : Memory → Nat → Word → Memory
  | [], a, x => [(a, x)]
  | (b, y) :: m, a, x =>
    if a < b then (a, x) :: (b, y) :: m
    else if a = b then (a, x) :: m
    else (b, y) :: Memory.write m a x

/-- The listed addresses rise strictly from `lo` on and stay below `bound`. -/
def Memory.wfFrom (bound : Nat) : Nat → Memory → Bool
  | _, [] => true
  | lo, (a, _) :: m => decide (lo ≤ a) && decide (a < bound) && Memory.wfFrom bound (a + 1) m

/-- The canonical form of a memory of `bound` words: addresses strictly rising, all of them existing. -/
def Memory.wf (bound : Nat) (m : Memory) : Bool := Memory.wfFrom bound 0 m

/-- `for i in 0 .. n-1` in ascending order (R11; the order is free, R53, log entry 15). -/
def forUpTo {α : Type} (n : Nat) (body : Nat → α → α) (x : α) : α :=
  match n with
  | 0 => x
  | n + 1 => body n (forUpTo n body x)

/-- What a command's datapath works on: the memory and the instance's transient registers. -/
structure Engine where
  mem : Memory
  regs : Transients
  deriving DecidableEq, Repr

/-- `MemRead` of the datapath. -/
def Engine.read (e : Engine) (a : Nat) : Word := e.mem.read a

/-- `MemWrite` of the datapath. -/
def Engine.write (e : Engine) (a : Nat) (x : Word) : Engine := { e with mem := e.mem.write a x }

/-- `ACC = x`. -/
def Engine.setAcc (e : Engine) (x : Word) : Engine := { e with regs := { e.regs with acc := x } }

/-- `V = xs`. -/
def Engine.setV (e : Engine) (xs : List Word) : Engine := { e with regs := { e.regs with v := xs } }

/-- `A = xs`. -/
def Engine.setA (e : Engine) (xs : List Word) : Engine := { e with regs := { e.regs with a := xs } }

/-- `T = xs`. -/
def Engine.setT (e : Engine) (xs : List Word) : Engine := { e with regs := { e.regs with t := xs } }

/-- Lane `l` of a vector register (R27). -/
def lane (xs : List Word) (l : Nat) : Word := xs.getD l 0

/-- `for l in 0 .. L-1 in parallel`: one word a lane, each computed without seeing another lane's result (R11). -/
def lanes (L : Nat) (f : Nat → Word) : List Word := (List.range L).map f

/-- The parallel store: lane `l` of `xs` goes to `addr l`. The addresses of one store are distinct. -/
def Engine.storeLanes (e : Engine) (L : Nat) (addr : Nat → Nat) (xs : List Word) : Engine :=
  forUpTo L (fun l e => e.write (addr l) (lane xs l)) e

/-- The transient registers hold free values: they are unspecified outside a command (R27, U17; log entry 7). -/
def Transients.free (L n : Nat) : Transients where
  acc := Config.freeWord n
  v := (List.range L).map fun l => Config.freeWord (n + 1 + l)
  a := (List.range L).map fun l => Config.freeWord (n + 1 + L + l)
  t := (List.range L).map fun l => Config.freeWord (n + 1 + 2 * L + l)

/-- How many free values `Transients.free` draws. -/
def Transients.freeCount (L : Nat) : Nat := 1 + 3 * L

/-- A latched descriptor outside a command holds free values (R22, U17; log entry 7). -/
def Descriptor.free (n : Nat) : Descriptor :=
  ⟨Config.freeWord n, Config.freeWord (n + 1), Config.freeWord (n + 2), Config.freeWord (n + 3)⟩

/-- The words of `f` take free values, each its own (R33; U10): free value `n + t` at the `t`-th word. -/
def Memory.forget (m : Memory) (f : Footprint) (n : Nat) : Memory :=
  forUpTo f.len (fun t m => m.write (f.base + t) (Config.freeWord (n + t))) m

/-- The transient registers of the instance making the transition. -/
def State.activeRegs (s : State) : Transients :=
  match s.insts[s.active]? with
  | some x => x.regs
  | none => Transients.reset s.cfg.lanes

/-- The datapath a transition starts with. -/
def State.engine (s : State) : Engine := ⟨s.mem, s.activeRegs⟩

/-- The end of a transition (R84, R52): the memory is the datapath's, the active instance has made its transition, and
its transient registers are unspecified again (R27). -/
def State.commit (s : State) (e : Engine) : State :=
  { s with
    mem := e.mem
    insts := s.insts.modify s.active fun x =>
      { x with made := true, regs := Transients.free s.cfg.lanes s.fresh }
    fresh := s.fresh + Transients.freeCount s.cfg.lanes }

end Sys2Proof.Machine
end

