-- ==== Sys2Proof/Machine/Domain.lean ====
section
/-! DEFINITION. The precondition domain `InDomain(c, M0)` as a computation (spec/60_exceptions.md R162, R163): which
preconditions a command breaks, and the shared shape of every meaning, which runs the command's datapath inside the
domain and refuses outside it. -/

namespace Sys2Proof.Machine

/-- The violation `v` is reported when `b` holds. -/
def report (b : Bool) (v : Violation) : List Violation := if b then [v] else []

/-- The lane condition of a `.V` form with `L` lanes: `VecOK_pack`, `VecOK_unpack` (R105), `VecOK_plane` (R143). -/
def laneCondition (L : Nat) (o : Operands) : Bool :=
  match o.op with
  | .pack w => decide (vpw w % L = 0 ∧ o.len / vpw w % L = 0)
  | .unpack w => decide (vpw w % L = 0 ∧ o.len % L = 0)
  | .collapse _ => decide (o.len % L = 0)
  | .expand _ => decide (o.len % L = 0)

/-- The lengths admitted: P1 of R101 for PACK; the other commands take any length (R103, R130). -/
def lengthFits (o : Operands) : Bool :=
  match o.op with
  | .pack w => decide (o.len % vpw w = 0)
  | .unpack _ => true
  | .collapse _ => true
  | .expand _ => true

/-- Whether the footprints may lie as they do (R51): disjoint, or in place on a plane command. -/
def overlapAdmitted (o : Operands) : Bool :=
  match o.op with
  | .pack _ => decide ((readsOf o).Disjoint (writesOf o))
  | .unpack _ => decide ((readsOf o).Disjoint (writesOf o))
  | .collapse _ => decide ((readsOf o).Disjoint (writesOf o) ∨ o.dst = o.src)
  | .expand _ => decide ((readsOf o).Disjoint (writesOf o) ∨ o.dst = o.src)

/-- Both footprints are plain memory (R48). -/
def onPlainMemory (c : Config) (o : Operands) : Bool :=
  c.notPlain.all fun p =>
    decide ((readsOf o).Disjoint ⟨p.1, p.2⟩ ∧ (writesOf o).Disjoint ⟨p.1, p.2⟩)

/-- The build accepts the width (R8 `W_SET`). -/
def widthSupported (c : Config) (o : Operands) : Bool :=
  match o.op with
  | .pack w => c.widths.contains w
  | .unpack w => c.widths.contains w
  | .collapse _ => true
  | .expand _ => true

/-- `PLANE_N(k)` (R8). -/
def Config.planeN (c : Config) (k : Nat) : Option Nat :=
  if k = 2 then c.planeN2 else if k = 4 then c.planeN4 else none

/-- The build accepts the plane length (R8, R148). -/
def planeLengthSupported (c : Config) (o : Operands) : Bool :=
  match o.op with
  | .pack _ => true
  | .unpack _ => true
  | .collapse k => (Config.planeN c k).all (· == o.len)
  | .expand k => (Config.planeN c k).all (· == o.len)

/-- The preconditions a command breaks by its descriptor and the build alone, all of them (R162; R166 lets a model
report every one). -/
def staticViolations (c : Config) (i : Instr) : List Violation :=
  let o := operands i
  report (!i.wellFormed) .reserved ++
  report (!widthSupported c o) .widthNotSupported ++
  report (!planeLengthSupported c o) .planeLengthNotSupported ++
  report (!lengthFits o) .lengthNotMultiple ++
  report (o.vector && !laneCondition c.lanes o) .laneCondition ++
  report (!(decide ((readsOf o).Within c.memWords) && decide ((writesOf o).Within c.memWords))) .outOfBounds ++
  report (!overlapAdmitted o) .overlap ++
  report (!onPlainMemory c o) .notPlain

/-- Every word of the range is below `2^b` in `m`. -/
abbrev Memory.AllBelow (m : Memory) (f : Footprint) (b : Nat) : Prop :=
  ∀ t, t < f.len → (m.read (f.base + t)).toNat < 2 ^ b

/-- The preconditions on the source words: P2 of R101 (V1) and Q3 of R130 (V2). UNPACK and EXPAND have none. -/
def dataViolations (i : Instr) (m : Memory) : List Violation :=
  let o := operands i
  match o.op with
  | .pack w => report (!decide (m.AllBelow (readsOf o) w)) .valueTooWide
  | .unpack _ => []
  | .collapse k => report (!decide (m.AllBelow (readsOf o) (bpp k))) .planeValueTooWide
  | .expand _ => []

/-- The preconditions a command breaks: those of the descriptor first; the source words are looked at only when the
footprints exist (log entry 12). -/
def violations (c : Config) (i : Instr) (m : Memory) : List Violation :=
  match staticViolations c i with
  | [] => dataViolations i m
  | vs => vs

/-- One command: inside its precondition domain it is one transition of the memory (R52), outside it is refused
(R163). `datapath` is the command's own. -/
def State.command (s : State) (i : Instr) (datapath : Engine → Engine) : Host.Outcome State Fault Refusal :=
  match violations s.cfg i s.mem with
  | [] => .next (s.commit (datapath s.engine))
  | vs => .refused (.precondition vs)

end Sys2Proof.Machine
end

