-- ==== Sys2Proof/Machine/PackUnpack.lean ====
section
/-! DEFINITION. The packing family (spec/40_pack_unpack.md): the datapaths of R101 to R104 and the four meanings. -/

namespace Sys2Proof.Machine

/-- `ACC = ACC | shl32(MemRead(a), s)` (R101, R139). -/
def Engine.orInto (e : Engine) (a s : Nat) : Engine := e.setAcc (e.regs.acc ||| shl32 (e.read a) s)

/-- PACK.S, output word `j` (R101): its `vpw(w)` values are ORed into `ACC` at descending shifts, then stored. -/
def packWord (w src dst j : Nat) (e : Engine) : Engine :=
  let e := forUpTo (vpw w) (fun i e => e.orInto (src + j * vpw w + i) (sh w i)) (e.setAcc 0)
  e.write (dst + j) e.regs.acc

/-- PACK.S (R101), `nW` output words. -/
def packSerial (w src dst nW : Nat) (e : Engine) : Engine := forUpTo nW (packWord w src dst) e

/-- PACK.V, shift level `t` of group `g` (R102): lane `l` takes value `(g*L+l)*vpw + t`; the first level stores, the
later levels OR into what this command has stored (R196). -/
def packLevel (L w src dst g t : Nat) (e : Engine) : Engine :=
  let e := e.setV (lanes L fun l => e.read (src + (g * L + l) * vpw w + t))
  let e := e.setV (lanes L fun l => shl32 (lane e.regs.v l) (sh w t))
  if t = 0 then e.storeLanes L (fun l => dst + (g * L + l)) e.regs.v
  else e.storeLanes L (fun l => dst + (g * L + l))
    (lanes L fun l => e.read (dst + (g * L + l)) ||| lane e.regs.v l)

/-- PACK.V, group `g`: all shift levels, descending (R102). -/
def packGroup (L w src dst g : Nat) (e : Engine) : Engine := forUpTo (vpw w) (packLevel L w src dst g) e

/-- PACK.V (R102), `nW` output words in groups of `L`. -/
def packLanes (L w src dst nW : Nat) (e : Engine) : Engine := forUpTo (nW / L) (packGroup L w src dst) e

/-- The value slot `i` of a packed word holds: `shr32(wd, sh(w, i)) & mask(w)` (R103). -/
def slot (w : Nat) (wd : Word) (i : Nat) : Word := shr32 wd (sh w i) &&& mask w

/-- UNPACK.S, source word `j` (R103). -/
def unpackWord (w src dst j : Nat) (e : Engine) : Engine :=
  let wd := e.read (src + j)
  forUpTo (vpw w) (fun i e => e.write (dst + j * vpw w + i) (slot w wd i)) e

/-- UNPACK.S (R103), `m` source words. -/
def unpackSerial (w src dst m : Nat) (e : Engine) : Engine := forUpTo m (unpackWord w src dst) e

/-- UNPACK.V, group `g` (R104): `L` words are loaded once, then every level scatters one value a lane. -/
def unpackGroup (L w src dst g : Nat) (e : Engine) : Engine :=
  let e := e.setV (lanes L fun l => e.read (src + (g * L + l)))
  forUpTo (vpw w)
    (fun t e => e.storeLanes L (fun l => dst + (g * L + l) * vpw w + t)
      (lanes L fun l => slot w (lane e.regs.v l) t)) e

/-- UNPACK.V (R104), `m` source words in groups of `L`. -/
def unpackLanes (L w src dst m : Nat) (e : Engine) : Engine := forUpTo (m / L) (unpackGroup L w src dst) e

/-- PACK.S (R101). -/
def execPackS (w : Nat) (src dst len : Word) (s : State) : Host.Outcome State Fault Refusal :=
  s.command (.packS w src dst len) (packSerial w src.toNat dst.toNat (len.toNat / vpw w))

/-- PACK.V (R102). -/
def execPackV (w : Nat) (src dst len : Word) (s : State) : Host.Outcome State Fault Refusal :=
  s.command (.packV w src dst len) (packLanes s.cfg.lanes w src.toNat dst.toNat (len.toNat / vpw w))

/-- UNPACK.S (R103). -/
def execUnpackS (w : Nat) (src dst len : Word) (s : State) : Host.Outcome State Fault Refusal :=
  s.command (.unpackS w src dst len) (unpackSerial w src.toNat dst.toNat len.toNat)

/-- UNPACK.V (R104). -/
def execUnpackV (w : Nat) (src dst len : Word) (s : State) : Host.Outcome State Fault Refusal :=
  s.command (.unpackV w src dst len) (unpackLanes s.cfg.lanes w src.toNat dst.toNat len.toNat)

end Sys2Proof.Machine
end

