-- ==== Sys2Proof/Machine/Planes.lean ====
section
/-! DEFINITION. The plane family (spec/41_plane_transforms.md): the parametric datapaths of R139 and their lane-parallel
forms (R132, R134, R136, R138), and the eight meanings. -/

namespace Sys2Proof.Machine

/-- COLLAPSE, index `i` (R139): plane 0 first, every plane's element read before the one write (R198). -/
def collapseIndex (k src dst n i : Nat) (e : Engine) : Engine :=
  let e := e.setAcc (shl32 (e.read (src + i)) (psh k 0))
  let e := forUpTo (k - 1) (fun j e => e.orInto (src + (j + 1) * n + i) (psh k (j + 1))) e
  e.write (dst + i) e.regs.acc

/-- COLLAPSE.S (R139, R131, R133). -/
def collapseSerial (k src dst n : Nat) (e : Engine) : Engine := forUpTo n (collapseIndex k src dst n) e

/-- COLLAPSE.V, plane `j` of group `g` is loaded into `T` and ORed into `A` (R132, R134). -/
def collapsePlane (L k src n g j : Nat) (e : Engine) : Engine :=
  let e := e.setT (lanes L fun l => e.read (src + j * n + (g * L + l)))
  e.setA (lanes L fun l => lane e.regs.a l ||| shl32 (lane e.regs.t l) (psh k j))

/-- COLLAPSE.V, group `g` (R132, R134): all planes loaded before the one store of the group. -/
def collapseGroup (L k src dst n g : Nat) (e : Engine) : Engine :=
  let e := e.setA (lanes L fun l => shl32 (e.read (src + (g * L + l))) (psh k 0))
  let e := forUpTo (k - 1) (fun j e => collapsePlane L k src n g (j + 1) e) e
  e.storeLanes L (fun l => dst + (g * L + l)) e.regs.a

/-- COLLAPSE.V (R132, R134). -/
def collapseLanes (L k src dst n : Nat) (e : Engine) : Engine := forUpTo (n / L) (collapseGroup L k src dst n) e

/-- Element of plane `j` in a merged word: `shr32(wd, psh(k, j)) & mask(bpp(k))` (R139). -/
def planeOf (k : Nat) (wd : Word) (j : Nat) : Word := shr32 wd (psh k j) &&& mask (bpp k)

/-- EXPAND, index `i` (R139): the word is read before any write of its index, plane 0 first (R197). -/
def expandIndex (k src dst n i : Nat) (e : Engine) : Engine :=
  let wd := e.read (src + i)
  forUpTo k (fun j e => e.write (dst + j * n + i) (planeOf k wd j)) e

/-- EXPAND.S (R139, R135, R137). -/
def expandSerial (k src dst n : Nat) (e : Engine) : Engine := forUpTo n (expandIndex k src dst n) e

/-- EXPAND.V, group `g` (R136, R138): one load into `V`, every plane stored from the same `V` (R197). -/
def expandGroup (L k src dst n g : Nat) (e : Engine) : Engine :=
  let e := e.setV (lanes L fun l => e.read (src + (g * L + l)))
  forUpTo k
    (fun j e => e.storeLanes L (fun l => dst + j * n + (g * L + l))
      (lanes L fun l => planeOf k (lane e.regs.v l) j)) e

/-- EXPAND.V (R136, R138). -/
def expandLanes (L k src dst n : Nat) (e : Engine) : Engine := forUpTo (n / L) (expandGroup L k src dst n) e

/-- COLLAPSE16.S (R131). -/
def execCollapse16S (src dst len : Word) (s : State) : Host.Outcome State Fault Refusal :=
  s.command (.collapse16S src dst len) (collapseSerial 2 src.toNat dst.toNat len.toNat)

/-- COLLAPSE16.V (R132). -/
def execCollapse16V (src dst len : Word) (s : State) : Host.Outcome State Fault Refusal :=
  s.command (.collapse16V src dst len) (collapseLanes s.cfg.lanes 2 src.toNat dst.toNat len.toNat)

/-- COLLAPSE8.S (R133). -/
def execCollapse8S (src dst len : Word) (s : State) : Host.Outcome State Fault Refusal :=
  s.command (.collapse8S src dst len) (collapseSerial 4 src.toNat dst.toNat len.toNat)

/-- COLLAPSE8.V (R134). -/
def execCollapse8V (src dst len : Word) (s : State) : Host.Outcome State Fault Refusal :=
  s.command (.collapse8V src dst len) (collapseLanes s.cfg.lanes 4 src.toNat dst.toNat len.toNat)

/-- EXPAND16.S (R135). -/
def execExpand16S (src dst len : Word) (s : State) : Host.Outcome State Fault Refusal :=
  s.command (.expand16S src dst len) (expandSerial 2 src.toNat dst.toNat len.toNat)

/-- EXPAND16.V (R136). -/
def execExpand16V (src dst len : Word) (s : State) : Host.Outcome State Fault Refusal :=
  s.command (.expand16V src dst len) (expandLanes s.cfg.lanes 2 src.toNat dst.toNat len.toNat)

/-- EXPAND8.S (R137). -/
def execExpand8S (src dst len : Word) (s : State) : Host.Outcome State Fault Refusal :=
  s.command (.expand8S src dst len) (expandSerial 4 src.toNat dst.toNat len.toNat)

/-- EXPAND8.V (R138). -/
def execExpand8V (src dst len : Word) (s : State) : Host.Outcome State Fault Refusal :=
  s.command (.expand8V src dst len) (expandLanes s.cfg.lanes 4 src.toNat dst.toNat len.toNat)

end Sys2Proof.Machine
end

