-- ==== Sys2Proof/Machine/Dispatch.lean ====
section
/-! DEFINITION. The dispatch: one arm for each command of spec/30_encoding.md R73. -/

namespace Sys2Proof.Machine

def exec (i : Instr) (s : State) : Host.Outcome State Fault Refusal :=
  match i with
  | .packS w src dst len => Sys2Proof.Machine.execPackS w src dst len s
  | .packV w src dst len => Sys2Proof.Machine.execPackV w src dst len s
  | .unpackS w src dst len => Sys2Proof.Machine.execUnpackS w src dst len s
  | .unpackV w src dst len => Sys2Proof.Machine.execUnpackV w src dst len s
  | .collapse16S src dst len => Sys2Proof.Machine.execCollapse16S src dst len s
  | .collapse16V src dst len => Sys2Proof.Machine.execCollapse16V src dst len s
  | .collapse8S src dst len => Sys2Proof.Machine.execCollapse8S src dst len s
  | .collapse8V src dst len => Sys2Proof.Machine.execCollapse8V src dst len s
  | .expand16S src dst len => Sys2Proof.Machine.execExpand16S src dst len s
  | .expand16V src dst len => Sys2Proof.Machine.execExpand16V src dst len s
  | .expand8S src dst len => Sys2Proof.Machine.execExpand8S src dst len s
  | .expand8V src dst len => Sys2Proof.Machine.execExpand8V src dst len s

end Sys2Proof.Machine
end

