-- ==== Sys2Proof/Machine/Issue.lean ====
section
/-! DEFINITION. The moves of the machine around a command's transition: ISSUE and DONE (spec/30_encoding.md R84), the
host's accesses to memory (spec/60_exceptions.md R182, spec/70_reset_and_hazards.md R194) and the reset event (R190,
spec/10_state.md R30 to R33). -/

namespace Sys2Proof.Machine

/-- The instance `k` becomes `x`. -/
def State.setInst (s : State) (k : Nat) (x : Instance) : State := { s with insts := s.insts.set k x }

/-- A command in flight on `x` aliases `i` (R56). A busy instance whose descriptor is reserved has no known footprint
and counts as aliasing; no reachable state has one. -/
def Instance.conflictsWith (x : Instance) (i : Instr) : Bool :=
  x.busy && match decode x.cur with
    | .ok j => !decide (Independent i j)
    | .error _ => true

/-- `a` is in the write footprint of a command in flight on `x`: the host must not read it (R194). -/
def Instance.writesAt (x : Instance) (a : Nat) : Bool :=
  x.busy && match decode x.cur with
    | .ok j => decide ((writes j).Has a)
    | .error _ => true

/-- `a` is in a footprint of a command in flight on `x`: the host must not write it (R194). -/
def Instance.touches (x : Instance) (a : Nat) : Bool :=
  x.busy && match decode x.cur with
    | .ok j => decide ((reads j).Has a ∨ (writes j).Has a)
    | .error _ => true

/-- The word at `a` is in a range that is not plain memory (R48). -/
def notPlainAt (c : Config) (a : Nat) : Bool := c.notPlain.any fun p => decide (Footprint.Has ⟨p.1, p.2⟩ a)

/-- The host reads the word at `a` (R182, R194). Nothing of the machine changes. The order in which an access is turned away
is the model's (log entry 18). -/
def State.hostRead (s : State) (a : Nat) : Host.Outcome State Fault Refusal :=
  if s.cfg.memWords ≤ a then .fault (.noSuchWord a)
  else if notPlainAt s.cfg a then .refused (.notPlainWord a)
  else if s.insts.any (·.writesAt a) then .refused (.hostTouchesFootprint a)
  else .next s

/-- The host writes the word at `a` (R182, R194); the order of the checks as for a read. -/
def State.hostWrite (s : State) (a : Nat) (x : Word) : Host.Outcome State Fault Refusal :=
  if s.cfg.memWords ≤ a then .fault (.noSuchWord a)
  else if notPlainAt s.cfg a then .refused (.notPlainWord a)
  else if s.insts.any (·.touches a) then .refused (.hostTouchesFootprint a)
  else .next { s with mem := s.mem.write a x }

/-- `ISSUE(d)` accepted by the idle instance `k`, which is `x` (R84): `cur <- d`, `busy <- 1`. A descriptor without a
meaning is refused here, since nothing is defined after its ISSUE (R84, R163), and so is one that aliases a command in
flight (R56). DESIGN CHOICE, safe (log entry 12): V9 is looked at only when V1 to V8 hold, so a command that breaks V9
and one of them is refused with the latter alone; R166 leaves open which of them is reported. -/
def State.issue (s : State) (k : Nat) (x : Instance) (d : Descriptor) : Host.Outcome State Fault Refusal :=
  match decode d with
  | .error r => .refused (.reserved r)
  | .ok i =>
    match violations s.cfg i s.mem with
    | [] =>
      if s.insts.any (·.conflictsWith i) then .refused .concurrentConflict
      else .next { s.setInst k { x with busy := true, made := false, cur := d } with issued := s.issued + 1 }
    | vs => .refused (.precondition vs)

/-- DONE of instance `k`, which is `x` (R84): `busy <- 0`. The latched descriptor is unspecified from now on (U17). -/
def State.done (s : State) (k : Nat) (x : Instance) : State :=
  { s.setInst k { x with busy := false, made := false, cur := Descriptor.free s.fresh } with
    fresh := s.fresh + 4
    completed := s.completed + 1 }

/-- Instance `k` makes its next move (R84): a busy one executes its command, once, and then produces DONE; an idle one
has nothing to do. -/
def State.runInstance (s : State) (k : Nat) : Host.Outcome State Fault Refusal :=
  match s.insts[k]? with
  | none => .refused (.noSuchInstance k)
  | some x =>
    if x.busy then
      if x.made then .next (s.done k x)
      else
        match decode x.cur with
        | .error r => .refused (.reserved r)
        | .ok i => exec i { s with active := k }
    else .next s

/-- The host's `ISSUE(d)` to instance `k`: accepted by an idle one. To a busy one it is not accepted and the host waits;
the instance itself proceeds (R84; U20). `s` has the move first, `rest` follows it. -/
def State.hostIssue (s : State) (k : Nat) (d : Descriptor) (rest : List HostMove) :
    Host.Outcome State Fault Refusal :=
  match s.insts[k]? with
  | none => .refused (.noSuchInstance k)
  | some x => if x.busy then s.runInstance k else State.issue { s with moves := rest } k x d

/-- The descriptor in flight on `x`, if any, is one that ISSUE accepts by its form (R84). -/
def Instance.sound (c : Config) (x : Instance) : Bool :=
  !x.busy || match decode x.cur with
    | .ok i => staticViolations c i == []
    | .error _ => false

/-- A reset abandons the command in flight on `x`: each word of its write footprint takes a free value (R33). The pair
is the memory and the number of free values drawn. -/
def abandon (x : Instance) (p : Memory × Nat) : Memory × Nat :=
  if x.busy then
    match decode x.cur with
    | .ok i => (p.1.forget (writes i) p.2, p.2 + (writes i).len)
    | .error _ => p
  else p

/-- The reset event (R190), on all instances at once: `busy = 0` (R31), the memory kept (R30) but for the write
footprints of abandoned commands (R33), and the unspecified registers at the values `Instance.reset` names. An abandoned
command stays issued and never produces DONE (R192). -/
def State.resetEvent (s : State) : Host.Outcome State Fault Refusal :=
  if s.insts.all (Instance.sound s.cfg) then
    let p := s.insts.foldl (fun p x => abandon x p) (s.mem, s.fresh)
    .next { s with mem := p.1, insts := s.insts.map fun _ => Instance.reset s.cfg.lanes, fresh := p.2 }
  else .refused .undefinedInFlight

/-- With no move pending from outside, a busy instance goes on by itself, the first one (R201); when every instance is
idle the machine waits. -/
def State.proceed (s : State) : Host.Outcome State Fault Refusal :=
  match s.insts.findIdx? (·.busy) with
  | some k => s.runInstance k
  | none => .next s

/-- The next move, `m` being first and `rest` following it. -/
def State.move (s : State) (m : HostMove) (rest : List HostMove) : Host.Outcome State Fault Refusal :=
  match m with
  | .read a => State.hostRead { s with moves := rest } a
  | .write a x => State.hostWrite { s with moves := rest } a x
  | .issue k d => s.hostIssue k d rest
  | .run k => State.runInstance { s with moves := rest } k
  | .reset => State.resetEvent { s with moves := rest }

/-- The move presents a descriptor: a piece of a program (R85). -/
def HostMove.isIssue : HostMove → Bool
  | .read _ => false
  | .write _ _ => false
  | .issue _ _ => true
  | .run _ => false
  | .reset => false

/-- THE RUN HAS ENDED (R192): every descriptor of every program has been issued (no `issue` is left among the moves),
every issued command has produced DONE, and every instance is idle. -/
def State.ended (s : State) : Bool :=
  !s.moves.any HostMove.isIssue && s.issued == s.completed && s.insts.all (!·.busy)

/-- A run begins (R192): the host has the moves `ms` before it, and no command of the run has been issued. R192 does not say
whether a run may begin while an instance is busy with an earlier command. DESIGN CHOICE, safe (log entry 25): it may, and
the commands then in flight count as issued, so that the run ends only after their DONEs too; on an idle machine both
counts are 0. -/
def State.beginRun (s : State) (ms : List HostMove) : State :=
  { s with moves := ms, issued := s.insts.countP (·.busy), completed := 0 }

/-- A program issued to instance `k` (R85): its descriptors in order, each accepted after the DONE of the one before. -/
def program (k : Nat) (ds : List Descriptor) : List HostMove := ds.map (.issue k)

/-- `s` with the descriptor `d` issued to instance 0 and latched, its transition not yet made, and instance 0 next to
move. -/
def State.latched (s : State) (d : Descriptor) : State :=
  { s with
    insts := { s.insts.headD (Instance.reset s.cfg.lanes) with busy := true, made := false, cur := d } :: s.insts.tail
    moves := .run 0 :: s.moves
    issued := s.issued + 1 }

end Sys2Proof.Machine
end

