-- ==== Sys2Proof/Machine/Step.lean ====
section
/-! DEFINITION. One step: one move of the host, or one move of an instance (spec/30_encoding.md R84, 70 R203). -/

namespace Sys2Proof.Machine

/-- One step of the machine: the first pending move; with none pending, a busy instance goes on. -/
def step (s : State) : Host.Outcome State Fault Refusal :=
  match s.moves with
  | [] => s.proceed
  | m :: rest => s.move m rest

/-- `s` with the instruction of bits `w` latched for the next step to execute. The block fetches nothing (R24, R60,
R84): this stands for the ISSUE of the descriptor (log entry 17). -/
def State.withFetchWord (s : State) (nbits w : Nat) : State := s.latched (Descriptor.ofNat (w % 2 ^ nbits))

end Sys2Proof.Machine
end

