-- ==== Sys2Proof/Machine/Assembler.lean ====
section
/-! DEFINITION. The assembler (spec/30_encoding.md R78 to R80): its pseudo-instructions and its text, read from lists of
characters (log entry 24). No step of the machine uses it. -/

namespace Sys2Proof.Machine

/-- The pseudo-instructions (R79); `v` chooses the `.V` form. -/
inductive Pseudo where
  /-- `COLLAPSE.f k, src, dst, n`. -/
  | collapse (v : Bool) (k : Nat) (src dst len : Word)
  /-- `EXPAND.f k, src, dst, n`. -/
  | expand (v : Bool) (k : Nat) (src dst len : Word)
  /-- `COLLAPSE8.f buf, n` (k = 4) and `COLLAPSE16.f buf, n` (k = 2), in place. -/
  | collapseInPlace (v : Bool) (k : Nat) (buf len : Word)
  /-- `EXPAND8.f buf, n` (k = 4) and `EXPAND16.f buf, n` (k = 2), in place. -/
  | expandInPlace (v : Bool) (k : Nat) (buf len : Word)
  /-- `COPY.f src, dst, len`. -/
  | copy (v : Bool) (src dst len : Word)
  deriving DecidableEq, Repr

/-- `COLLAPSE.f` at `k` (R79); no command for another plane count. -/
def collapseInstr (v : Bool) (k : Nat) (src dst len : Word) : Option Instr :=
  if k = 2 then some (if v then .collapse16V src dst len else .collapse16S src dst len)
  else if k = 4 then some (if v then .collapse8V src dst len else .collapse8S src dst len)
  else none

/-- `EXPAND.f` at `k` (R79). -/
def expandInstr (v : Bool) (k : Nat) (src dst len : Word) : Option Instr :=
  if k = 2 then some (if v then .expand16V src dst len else .expand16S src dst len)
  else if k = 4 then some (if v then .expand8V src dst len else .expand8S src dst len)
  else none

/-- The command a pseudo-instruction stands for; `none` is an assembly error (R79). -/
def assemble : Pseudo → Option Instr
  | .collapse v k src dst len => collapseInstr v k src dst len
  | .expand v k src dst len => expandInstr v k src dst len
  | .collapseInPlace v k buf len => collapseInstr v k buf buf len
  | .expandInPlace v k buf len => expandInstr v k buf buf len
  | .copy v src dst len => some (if v then .packV 32 src dst len else .packS 32 src dst len)

/-- A space or a tab. -/
def isBlank (c : Char) : Bool := c == ' ' || c == '\t'

/-- The value of a digit, decimal or hexadecimal. -/
def digitValue (c : Char) : Option Nat :=
  let n := c.toNat
  if 48 ≤ n ∧ n ≤ 57 then some (n - 48)
  else if 97 ≤ n ∧ n ≤ 102 then some (n - 87)
  else if 65 ≤ n ∧ n ≤ 70 then some (n - 55)
  else none

/-- The number a list of digits writes in a base, `acc` being what the digits before them write. -/
def readDigits (base : Nat) : Nat → List Char → Option Nat
  | acc, [] => some acc
  | acc, c :: cs =>
    match digitValue c with
    | some d => if d < base then readDigits base (acc * base + d) cs else none
    | none => none

/-- "decimal or `0x` hexadecimal unsigned numbers" (R78). -/
def readNumber : List Char → Option Nat
  | [] => none
  | '0' :: 'x' :: [] => none
  | '0' :: 'x' :: cs => readDigits 16 0 cs
  | cs => readDigits 10 0 cs

/-- The blanks around a list of characters taken off. -/
def trimBlanks (cs : List Char) : List Char := ((cs.dropWhile isBlank).reverse.dropWhile isBlank).reverse

/-- The parts between commas (R78). -/
def splitCommas (cs : List Char) : List (List Char) :=
  cs.foldr (fun c acc => if c = ',' then [] :: acc else match acc with
    | [] => [[c]]
    | x :: xs => (c :: x) :: xs) [[]]

/-- All the numbers, or none if one is not a number. -/
def readNumbers : List (List Char) → Option (List Nat)
  | [] => some []
  | cs :: rest =>
    match readNumber (trimBlanks cs), readNumbers rest with
    | some n, some ns => some (n :: ns)
    | _, _ => none

/-- The form a mnemonic's suffix names; "A mnemonic without a suffix means `.S`" (R78). -/
def readSuffix : List Char → Option Bool
  | [] => some false
  | ['.', 'S'] => some false
  | ['.', 'V'] => some true
  | _ => none

/-- The command of a mnemonic without its suffix, its form and its operands, the pseudo-instructions among them
(R78, R79). Every word operand fits 32 bits, and `w` fits `PARAM`. -/
def assembleCommand (name : List Char) (v : Bool) (operands : List Nat) : Option Instr :=
  if operands.all (· < 2 ^ 32) then
    match name, operands.map (BitVec.ofNat 32), operands with
    | ['P', 'A', 'C', 'K'], [_, s, d, n], w :: _ =>
      if w < 64 then some (if v then .packV w s d n else .packS w s d n) else none
    | ['U', 'N', 'P', 'A', 'C', 'K'], [_, s, d, n], w :: _ =>
      if w < 64 then some (if v then .unpackV w s d n else .unpackS w s d n) else none
    | ['C', 'O', 'L', 'L', 'A', 'P', 'S', 'E', '1', '6'], [s, d, n], _ => assemble (.collapse v 2 s d n)
    | ['C', 'O', 'L', 'L', 'A', 'P', 'S', 'E', '8'], [s, d, n], _ => assemble (.collapse v 4 s d n)
    | ['E', 'X', 'P', 'A', 'N', 'D', '1', '6'], [s, d, n], _ => assemble (.expand v 2 s d n)
    | ['E', 'X', 'P', 'A', 'N', 'D', '8'], [s, d, n], _ => assemble (.expand v 4 s d n)
    | ['C', 'O', 'L', 'L', 'A', 'P', 'S', 'E', '1', '6'], [b, n], _ => assemble (.collapseInPlace v 2 b n)
    | ['C', 'O', 'L', 'L', 'A', 'P', 'S', 'E', '8'], [b, n], _ => assemble (.collapseInPlace v 4 b n)
    | ['E', 'X', 'P', 'A', 'N', 'D', '1', '6'], [b, n], _ => assemble (.expandInPlace v 2 b n)
    | ['E', 'X', 'P', 'A', 'N', 'D', '8'], [b, n], _ => assemble (.expandInPlace v 4 b n)
    | ['C', 'O', 'L', 'L', 'A', 'P', 'S', 'E'], [_, s, d, n], k :: _ => assemble (.collapse v k s d n)
    | ['E', 'X', 'P', 'A', 'N', 'D'], [_, s, d, n], k :: _ => assemble (.expand v k s d n)
    | ['C', 'O', 'P', 'Y'], [s, d, n], _ => assemble (.copy v s d n)
    | _, _, _ => none
  else none

/-- One line of text (R78): `some []` for a blank line, `none` for an assembly error. -/
def assembleLine (line : List Char) : Option (List Instr) :=
  match trimBlanks (line.takeWhile (· != ';')) with
  | [] => some []
  | cs =>
    let mnemonic := cs.takeWhile fun c => !isBlank c
    match readSuffix (mnemonic.dropWhile (· != '.')),
      readNumbers (splitCommas (cs.dropWhile fun c => !isBlank c)) with
    | some v, some ns => (assembleCommand (mnemonic.takeWhile (· != '.')) v ns).map fun i => [i]
    | _, _ => none

/-- A text, one command a line (R78). -/
def assembleText : List (List Char) → Option (List Instr)
  | [] => some []
  | line :: rest =>
    match assembleLine line, assembleText rest with
    | some is, some more => some (is ++ more)
    | _, _ => none

end Sys2Proof.Machine
end

