-- ==== Sys2Proof/Machine/Checker.lean ====
section
/-! DEFINITION. The environment around the block: the ConsistencyChecker's comparison and procedure
(spec/60_exceptions.md R170 to R173, R175), played by the host on the machine. No step of the machine uses them. -/

namespace Sys2Proof.Machine

/-- What the checker answers (R172, R173; D26): success, or the first differing index with both values. -/
inductive CheckResult where
  | ok
  | mismatch (index : Nat) (serial vector : Word)
  deriving DecidableEq, Repr

/-- Why the checker has no answer. None of these is a verification failure (R172). -/
inductive CheckStop where
  /-- What it was given is no check of one operation, one length and independent clones (R171). -/
  | setup
  /-- The instance it issues to is busy, so that the host would wait (R84); the checker runs on an idle one. -/
  | notAccepted
  /-- A move of the host faults. -/
  | fault (f : Fault)
  /-- A move of the host is refused: an access or an ISSUE outside what R162 and R194 allow. -/
  | refused (r : Refusal)
  deriving DecidableEq, Repr

/-- Element-by-element comparison in ascending order from index `t`; it stops at the first difference (R171, R172). -/
def compareFrom (t : Nat) : List Word → List Word → CheckResult
  | x :: xs, y :: ys => if x = y then compareFrom (t + 1) xs ys else .mismatch t x y
  | _, _ => .ok

/-- The words of a range, lowest address first. -/
def Memory.region (m : Memory) (base n : Nat) : List Word := (List.range n).map fun t => m.read (base + t)

/-- Comparison of `n` words at `dst1` (serial) with those at `dst2` (lane-parallel) (R171, step 4). -/
def compareRegions (m : Memory) (dst1 dst2 n : Nat) : CheckResult :=
  compareFrom 0 (m.region dst1 n) (m.region dst2 n)

/-- How many of `n` indices a comparison with this answer has looked at. -/
def CheckResult.looked (n : Nat) : CheckResult → Nat
  | .ok => n
  | .mismatch t _ _ => t + 1

/-- The host makes the moves `ms`, each a step of the machine, each accepted before the next one. -/
def State.perform (ms : List HostMove) (s : State) : Except CheckStop State :=
  match ms with
  | [] => .ok s
  | m :: ms =>
    match step { s with moves := [m] } with
    | .next t => if t.moves.isEmpty then State.perform ms t else .error .notAccepted
    | .fault f => .error (.fault f)
    | .refused r => .error (.refused r)

/-- The host writes the words `xs` from `base` on (R171, step 2). -/
def placing (base : Nat) (xs : List Word) : List HostMove :=
  (List.range xs.length).map fun t => .write (base + t) (xs.getD t 0)

/-- "issue; wait DONE" on instance `k` (R171, step 3): ISSUE, and the instance's own two moves (R84). -/
def issueAndWait (k : Nat) (i : Instr) : List HostMove := [.issue k (encode i), .run k, .run k]

/-- The host's reads of the first `n` indices of both outputs, in ascending order (R171, step 4). -/
def comparing (dst1 dst2 n : Nat) : List HostMove :=
  (List.range n).flatMap fun t => [.read (dst1 + t), .read (dst2 + t)]

/-- The two commands are the serial and the lane-parallel form of one operation at one length (R171). -/
abbrev SameOperation (serial vector : Instr) : Prop :=
  (operands serial).vector = false ∧ (operands vector).vector = true ∧
    (operands serial).op = (operands vector).op ∧ (operands serial).len = (operands vector).len

/-- The serial command leaves the lane-parallel one's input and output alone, so that the outputs can be compared. -/
abbrev Separate (serial vector : Instr) : Prop :=
  (writes serial).Disjoint (reads vector) ∧ (writes serial).Disjoint (writes vector)

/-- Steps 3 and 4 of R171 on inputs the host has placed, on instance `k`: the serial command, its DONE, the lane-parallel
one, its DONE, then the comparison of what they wrote, read up to the first difference (R172: "fail immediately"). -/
def check (k : Nat) (serial vector : Instr) (s : State) : Except CheckStop CheckResult :=
  if SameOperation serial vector ∧ Separate serial vector then
    match s.perform (issueAndWait k serial ++ issueAndWait k vector) with
    | .ok t =>
      let dst1 := (writes serial).base
      let dst2 := (writes vector).base
      let n := (writes serial).len
      let answer := compareRegions t.mem dst1 dst2 n
      match t.perform (comparing dst1 dst2 (answer.looked n)) with
      | .ok _ => .ok answer
      | .error e => .error e
    | .error e => .error e
  else .error .setup

/-- Steps 2 to 4 of R171 on the input array `input`: the host writes two copies of it, "independent clones", at the two
source regions, then `check`. -/
def checkOn (k : Nat) (input : List Word) (serial vector : Instr) (s : State) : Except CheckStop CheckResult :=
  if input.length = (reads serial).len ∧ (reads serial).Disjoint (reads vector) then
    match s.perform (placing (reads serial).base input ++ placing (reads vector).base input) with
    | .ok t => check k serial vector t
    | .error e => .error e
  else .error .setup

/-- The whole procedure (R171): the input array is what `CHECK_GEN` gives from `CHECK_SEED`, as many words as the command
reads. No source gives the generator or the seed (U13): both are the environment's, so arguments (log entry 20). -/
def checkSeeded (gen : Nat → Nat → Word) (seed k : Nat) (serial vector : Instr) (s : State) :
    Except CheckStop CheckResult :=
  checkOn k ((List.range (reads serial).len).map (gen seed)) serial vector s

end Sys2Proof.Machine
end

