-- ==== Sys2Proof/Machine/Run.lean ====
section
/-! DEFINITION. The result of a run (spec/70_reset_and_hazards.md R192). No step of the machine uses it. -/

namespace Sys2Proof.Machine

/-- The next move is the reset event. -/
def State.resetNext (s : State) : Bool := s.moves.head? == some .reset

/-- The result of the run (R192): the memory at the moment the run has ended, when that comes within `n` steps. R192 says
nothing of a run in which a command is refused or a reset arrives: it has no result here (log entry 25). -/
def State.result (n : Nat) (s : State) : Option Memory :=
  if s.ended then some s.mem
  else
    match n with
    | 0 => none
    | n + 1 =>
      if s.resetNext then none
      else
        match step s with
        | .next t => State.result n t
        | .fault _ => none
        | .refused _ => none

end Sys2Proof.Machine
end

