-- ==== Sys2Proof/Safety.lean ====
section
/-! DEFINITION. What the claims are stated in: the precondition domains as the spec words them, address by address
(spec/40_pack_unpack.md R101 to R105, spec/41_plane_transforms.md R130, R143), the results as functions of the initial
memory, what a transition leaves alone (R52), and the invariant of the machine. -/

namespace Sys2Proof.Safety

open Sys2Proof.Machine

/-- Every address of the range exists (R49). -/
def InMemory (c : Config) (f : Footprint) : Prop := ∀ a, f.Has a → a < c.memWords

/-- No address is in both ranges (R51). -/
def Apart (f g : Footprint) : Prop := ∀ a, f.Has a → ¬ g.Has a

/-- Every address of the range is plain memory (R48). -/
def Plain (c : Config) (f : Footprint) : Prop := ∀ a, f.Has a → ∀ p ∈ c.notPlain, ¬ (p.1 ≤ a ∧ a < p.1 + p.2)

/-- The domain of PACK at width `w` on `n` values (R101, P1 to P4). -/
structure PackDomain (c : Config) (m : Memory) (w src dst n : Nat) : Prop where
  width : LegalWidth w ∧ w ∈ c.widths
  multiple : n % vpw w = 0
  values : ∀ t, t < n → (m.read (src + t)).toNat < 2 ^ w
  bounds : InMemory c ⟨src, n⟩ ∧ InMemory c ⟨dst, n / vpw w⟩
  apart : Apart ⟨src, n⟩ ⟨dst, n / vpw w⟩
  plain : Plain c ⟨src, n⟩ ∧ Plain c ⟨dst, n / vpw w⟩

/-- The domain of UNPACK at width `w` on `m` words (R103, P3 and P4): no condition on contents or length. -/
structure UnpackDomain (c : Config) (w src dst m : Nat) : Prop where
  width : LegalWidth w ∧ w ∈ c.widths
  bounds : InMemory c ⟨src, m⟩ ∧ InMemory c ⟨dst, m * vpw w⟩
  apart : Apart ⟨src, m⟩ ⟨dst, m * vpw w⟩
  plain : Plain c ⟨src, m⟩ ∧ Plain c ⟨dst, m * vpw w⟩

/-- The build accepts plane length `n` at `k` planes (R8 `PLANE_N`, unrestricted by default). -/
def PlaneLength (c : Config) (k n : Nat) : Prop := ∀ n', Config.planeN c k = some n' → n = n'

/-- The domain of COLLAPSE of `k` planes of length `n` (R130, Q1 to Q3). -/
structure CollapseDomain (c : Config) (m : Memory) (k src dst n : Nat) : Prop where
  planes : ∀ j i, j < k → i < n → (m.read (src + j * n + i)).toNat < 2 ^ bpp k
  bounds : InMemory c ⟨src, k * n⟩ ∧ InMemory c ⟨dst, n⟩
  apart : Apart ⟨src, k * n⟩ ⟨dst, n⟩ ∨ dst = src
  plain : Plain c ⟨src, k * n⟩ ∧ Plain c ⟨dst, n⟩
  length : PlaneLength c k n

/-- The domain of EXPAND to `k` planes of length `n` (R130, Q1 and Q2): no condition on contents. -/
structure ExpandDomain (c : Config) (k src dst n : Nat) : Prop where
  bounds : InMemory c ⟨src, n⟩ ∧ InMemory c ⟨dst, k * n⟩
  apart : Apart ⟨src, n⟩ ⟨dst, k * n⟩ ∨ dst = src
  plain : Plain c ⟨src, n⟩ ∧ Plain c ⟨dst, k * n⟩
  length : PlaneLength c k n

/-- `VecOK_pack` (R105), and `VecOK_unpack` with `n` the number of packed words. -/
abbrev PackLanesOk (L w nW : Nat) : Prop := vpw w % L = 0 ∧ nW % L = 0

/-- The precondition domain of a command in a state (R162, R163: `InDomain(c, M0)`). -/
def InDomain (s : State) : Instr → Prop
  | .packS w a b n => PackDomain s.cfg s.mem w a.toNat b.toNat n.toNat
  | .packV w a b n =>
    PackDomain s.cfg s.mem w a.toNat b.toNat n.toNat ∧ PackLanesOk s.cfg.lanes w (n.toNat / vpw w)
  | .unpackS w a b n => UnpackDomain s.cfg w a.toNat b.toNat n.toNat
  | .unpackV w a b n => UnpackDomain s.cfg w a.toNat b.toNat n.toNat ∧ PackLanesOk s.cfg.lanes w n.toNat
  | .collapse16S a b n => CollapseDomain s.cfg s.mem 2 a.toNat b.toNat n.toNat
  | .collapse16V a b n => CollapseDomain s.cfg s.mem 2 a.toNat b.toNat n.toNat ∧ n.toNat % s.cfg.lanes = 0
  | .collapse8S a b n => CollapseDomain s.cfg s.mem 4 a.toNat b.toNat n.toNat
  | .collapse8V a b n => CollapseDomain s.cfg s.mem 4 a.toNat b.toNat n.toNat ∧ n.toNat % s.cfg.lanes = 0
  | .expand16S a b n => ExpandDomain s.cfg 2 a.toNat b.toNat n.toNat
  | .expand16V a b n => ExpandDomain s.cfg 2 a.toNat b.toNat n.toNat ∧ n.toNat % s.cfg.lanes = 0
  | .expand8S a b n => ExpandDomain s.cfg 4 a.toNat b.toNat n.toNat
  | .expand8V a b n => ExpandDomain s.cfg 4 a.toNat b.toNat n.toNat ∧ n.toNat % s.cfg.lanes = 0

/-- OR over `i` in `0 .. n-1` of `f i`. -/
def orUpTo (n : Nat) (f : Nat → Word) : Word :=
  match n with
  | 0 => 0
  | n + 1 => orUpTo n f ||| f n

/-- Sum over `i` in `0 .. n-1` of `f i`. -/
def sumUpTo (n : Nat) (f : Nat → Nat) : Nat :=
  match n with
  | 0 => 0
  | n + 1 => sumUpTo n f + f n

/-- The packed word whose slot `i` is given the word `v i` (R101, result). -/
def packed (w : Nat) (v : Nat → Word) : Word := orUpTo (32 / w) fun i => v i <<< (32 - w - i * w)

/-- The merged word whose plane `j` is given the word `p j` (R139, COLLAPSE). -/
def merged (k : Nat) (p : Nat → Word) : Word := orUpTo k fun j => p j <<< ((k - 1 - j) * (32 / k))

/-- The `b` bits of `x` at offset `s`, as a word: `(x >> s) & (2^b - 1)` (R103, R139). -/
def bitsAt (x : Word) (s b : Nat) : Word := BitVec.ofNat 32 (x.toNat / 2 ^ s % 2 ^ b)

/-- What every transition leaves alone beside the memory (R20, R25, R26, R52): the build, the host's moves, every
instance but the one moving, and of that one `busy` and `cur`. It has made its transition; its transient registers are
unspecified (R27). `made`, `active`, `fresh`, `issued` and `completed` are the model's own fields (log entries 5, 8, 9,
25). -/
structure OnlyTransition (s t : State) : Prop where
  cfg : t.cfg = s.cfg
  moves : t.moves = s.moves
  active : t.active = s.active
  fresh : s.fresh ≤ t.fresh
  counters : t.issued = s.issued ∧ t.completed = s.completed
  count : t.insts.length = s.insts.length
  others : ∀ k, k ≠ s.active → t.insts[k]? = s.insts[k]?
  mover : ∀ x, s.insts[s.active]? = some x →
    ∃ y, t.insts[s.active]? = some y ∧ y.busy = x.busy ∧ y.cur = x.cur ∧ y.made = true

/-- Every word outside the range reads as before. -/
def SameOutside (f : Footprint) (m m' : Memory) : Prop := ∀ a, ¬ f.Has a → m'.read a = m.read a

/-- The words `xs` written from `base` on (R171, step 2). -/
def placed (m : Memory) (base : Nat) (xs : List Word) : Memory :=
  forUpTo xs.length (fun t m => m.write (base + t) (xs.getD t 0)) m

/-- A command of the run has been issued that will never produce DONE: a reset cut it (R33, R192). -/
abbrev CutByReset (s : State) : Prop := s.completed + s.insts.countP (·.busy) < s.issued

/-- Two states give a command the same input: same build, same words on the range. -/
def AgreeOn (f : Footprint) (m m' : Memory) : Prop := ∀ a, f.Has a → m.read a = m'.read a

/-- The invariant: the build is legal, the memory is in canonical form, there are `N_INST` instances with `LANES`
lanes, an idle one has made no transition, every command in flight is one its ISSUE accepted and its input is still in
its domain, no two commands in flight alias, and every command in flight has been issued and has not produced DONE (R22,
R27, R40, R56, R84, R163, R192; the rest of the issued ones were cut by a reset). -/
structure Inv (s : State) : Prop where
  legal : s.cfg.Legal
  memory : Memory.wf s.cfg.memWords s.mem = true
  count : s.insts.length = s.cfg.nInst
  vectors : ∀ x ∈ s.insts, x.regs.v.length = s.cfg.lanes ∧ x.regs.a.length = s.cfg.lanes ∧
    x.regs.t.length = s.cfg.lanes
  idle : ∀ x ∈ s.insts, x.busy = false → x.made = false
  inFlight : ∀ x ∈ s.insts, x.busy = true → ∃ i, decode x.cur = .ok i ∧ staticViolations s.cfg i = [] ∧
    (x.made = false → violations s.cfg i s.mem = [])
  independent : ∀ (j k : Nat) (x y : Instance) (p q : Instr), j ≠ k → s.insts[j]? = some x → s.insts[k]? = some y →
    x.busy = true → y.busy = true → decode x.cur = .ok p → decode y.cur = .ok q → Independent p q
  counted : s.completed + s.insts.countP (·.busy) ≤ s.issued

/-- One row of the opcode map (R73): `CW0` match and mask, whether the row also asks `1 ≤ PARAM ≤ 32`, and the command
with its operands `PARAM`, `CW1`, `CW2`, `CW3` (R74). -/
structure OpcodeRow where
  code : Word
  mask : Word
  width : Bool
  build : Nat → Word → Word → Word → Instr

/-- The opcode map, as R73 prints it. -/
def opcodeMap : List OpcodeRow :=
  [⟨0x00000000, 0xFFFFC0FF, true, .packS⟩, ⟨0x00000004, 0xFFFFC0FF, true, .packV⟩,
   ⟨0x00000001, 0xFFFFC0FF, true, .unpackS⟩, ⟨0x00000005, 0xFFFFC0FF, true, .unpackV⟩,
   ⟨0x00000202, 0xFFFFFFFF, false, fun _ => .collapse16S⟩, ⟨0x00000206, 0xFFFFFFFF, false, fun _ => .collapse16V⟩,
   ⟨0x00000402, 0xFFFFFFFF, false, fun _ => .collapse8S⟩, ⟨0x00000406, 0xFFFFFFFF, false, fun _ => .collapse8V⟩,
   ⟨0x00000203, 0xFFFFFFFF, false, fun _ => .expand16S⟩, ⟨0x00000207, 0xFFFFFFFF, false, fun _ => .expand16V⟩,
   ⟨0x00000403, 0xFFFFFFFF, false, fun _ => .expand8S⟩, ⟨0x00000407, 0xFFFFFFFF, false, fun _ => .expand8V⟩]

/-- Bits `hi` down to `lo` of `CW0` as an integer (R9). -/
def field (d : Descriptor) (hi lo : Nat) : Nat := d.cw0.toNat / 2 ^ lo % 2 ^ (hi + 1 - lo)

/-- A reserved descriptor (R76 a, b, c). -/
def IsReserved (d : Descriptor) : Prop :=
  (field d 7 3 ≠ 0 ∨ field d 31 14 ≠ 0) ∨
  (field d 1 0 ≤ 1 ∧ (field d 13 8 = 0 ∨ 32 < field d 13 8)) ∨
  (2 ≤ field d 1 0 ∧ field d 13 8 ≠ 2 ∧ field d 13 8 ≠ 4)

/-- What each violation says of a command in a state (R162 V1 to V8, and the two restrictions of R8). -/
def Broken (s : State) (i : Instr) : Violation → Prop
  | .valueTooWide => ∃ w, (operands i).op = .pack w ∧ ∃ t, t < (operands i).len ∧
      2 ^ w ≤ (s.mem.read ((operands i).src + t)).toNat
  | .planeValueTooWide => ∃ k, (operands i).op = .collapse k ∧ ∃ j e, j < k ∧ e < (operands i).len ∧
      2 ^ bpp k ≤ (s.mem.read ((operands i).src + j * (operands i).len + e)).toNat
  | .lengthNotMultiple => ∃ w, (operands i).op = .pack w ∧ (operands i).len % vpw w ≠ 0
  | .laneCondition => (operands i).vector = true ∧ match (operands i).op with
      | .pack w => ¬ PackLanesOk s.cfg.lanes w ((operands i).len / vpw w)
      | .unpack w => ¬ PackLanesOk s.cfg.lanes w (operands i).len
      | .collapse _ => (operands i).len % s.cfg.lanes ≠ 0
      | .expand _ => (operands i).len % s.cfg.lanes ≠ 0
  | .outOfBounds => ∃ a, s.cfg.memWords ≤ a ∧ ((reads i).Has a ∨ (writes i).Has a)
  | .overlap => (∃ a, (reads i).Has a ∧ (writes i).Has a) ∧ match (operands i).op with
      | .pack _ => True
      | .unpack _ => True
      | .collapse _ => (operands i).dst ≠ (operands i).src
      | .expand _ => (operands i).dst ≠ (operands i).src
  | .reserved => ¬ i.WellFormed
  | .notPlain => ∃ a, ((reads i).Has a ∨ (writes i).Has a) ∧ ∃ p ∈ s.cfg.notPlain, p.1 ≤ a ∧ a < p.1 + p.2
  | .widthNotSupported => ∃ w, ((operands i).op = .pack w ∨ (operands i).op = .unpack w) ∧ w ∉ s.cfg.widths
  | .planeLengthNotSupported => ∃ k, ((operands i).op = .collapse k ∨ (operands i).op = .expand k) ∧
      ¬ PlaneLength s.cfg k (operands i).len

/-- The four COLLAPSE commands at `k` planes, over source, destination and length. -/
def IsCollapse (k : Nat) (a b n : Word) (i : Instr) : Prop :=
  (k = 2 ∧ (i = .collapse16S a b n ∨ i = .collapse16V a b n)) ∨
  (k = 4 ∧ (i = .collapse8S a b n ∨ i = .collapse8V a b n))

/-- The four EXPAND commands at `k` planes. -/
def IsExpand (k : Nat) (a b n : Word) (i : Instr) : Prop :=
  (k = 2 ∧ (i = .expand16S a b n ∨ i = .expand16V a b n)) ∨
  (k = 4 ∧ (i = .expand8S a b n ∨ i = .expand8V a b n))

/-- The command in flight on `x` is `i` (R22). -/
def InFlight (x : Instance) (i : Instr) : Prop := x.busy = true ∧ decode x.cur = .ok i

end Sys2Proof.Safety
end

