-- ==== Sys2Proof/Certificates/Slice0/Obligations.lean ====
section
/-! DEFINITION. The statements for the provers, grouped as the spec's files are. Each docstring names the rules of spec/
it formalises. Every statement is for every build (`s.cfg` is arbitrary), so for every LANES, MEM_WORDS, N_INST. -/

open Sys2Proof Sys2Proof.Machine Sys2Proof.Safety

/-! ## Encoding (spec/30_encoding.md) -/

/-- R81, whole: the fields `encode` is given are the fields of its words; `decode` answers reserved exactly on the
descriptors of R76, and otherwise the command of the fields; and the two functions are inverse to each other. -/
def Obligations.DecodeEncodeRoundTrip : Prop :=
  (∀ (op v p : Nat) (src dst len : Word), op < 4 → v < 2 → p < 64 →
    (encodeFields op v p src dst len).cw0.toNat = op + 4 * v + 256 * p ∧
    (encodeFields op v p src dst len).cw1 = src ∧ (encodeFields op v p src dst len).cw2 = dst ∧
    (encodeFields op v p src dst len).cw3 = len ∧
    decode (encodeFields op v p src dst len) = decodeFields op (v == 1) p src dst len) ∧
  (∀ d : Descriptor, (∃ r, decode d = .error r) ↔ IsReserved d) ∧
  (∀ i : Instr, i.WellFormed → decode (encode i) = .ok i) ∧
  (∀ (d : Descriptor) (i : Instr), decode d = .ok i → encode i = d ∧ i.WellFormed)

/-- R73, R74: a descriptor is a command exactly when its `CW0` matches the command's row of the opcode map, with
`1 ≤ PARAM ≤ 32` on the packing rows; its operands are `PARAM`, `CW1`, `CW2`, `CW3` as they stand. -/
def Obligations.DecodeMatchesOpcodeMap : Prop :=
  ∀ (d : Descriptor) (i : Instr), decode d = .ok i ↔
    ∃ r ∈ opcodeMap, d.cw0 &&& r.mask = r.code ∧ (r.width = true → 1 ≤ field d 13 8 ∧ field d 13 8 ≤ 32) ∧
      i = r.build (field d 13 8) d.cw1 d.cw2 d.cw3

/-- R73: no control word matches two rows of the opcode map. -/
def Obligations.OpcodeRowsDisjoint : Prop :=
  opcodeMap.Pairwise fun r r' => ∀ x : Word, ¬ (x &&& r.mask = r.code ∧ x &&& r'.mask = r'.code)

/-- R76: a descriptor is a command or reserved, reserved exactly in the cases (a), (b), (c), and the model refuses a
reserved one. That it does so at the ISSUE is the model's choice (log entry 11), and so is the refusal at the transition
of an instance that has one latched, a state no run reaches (log entry 21): R76 says only that a model refuses. -/
def Obligations.ReservedDescriptorsRefused : Prop :=
  (∀ d : Descriptor, IsReserved d ↔ ∃ r, decode d = .error r) ∧
  (∀ d : Descriptor, ¬ IsReserved d ↔ ∃ i, decode d = .ok i) ∧
  (∀ (s : State) (k : Nat) (x : Instance) (d : Descriptor) (rest : List HostMove), IsReserved d →
    s.moves = .issue k d :: rest → s.insts[k]? = some x → x.busy = false → ∃ r, step s = .refused (.reserved r)) ∧
  (∀ (s : State) (k : Nat) (x : Instance) (rest : List HostMove), IsReserved x.cur →
    s.moves = .run k :: rest → s.insts[k]? = some x → x.busy = true → x.made = false →
      ∃ r, step s = .refused (.reserved r))

/-- R82: every worked encoding decodes to the command it stands for, the first row is the 128-bit number R82 gives, and
`0x00000302` is reserved (vector T81 of 95_test_vectors.md). -/
def Obligations.WorkedEncodingsDecode : Prop :=
  decode ⟨0x00000400, 0x00000100, 0x00000200, 0x00000008⟩ = .ok (.packS 4 0x100 0x200 8) ∧
  decode ⟨0x00000404, 0x00000100, 0x00000200, 0x00000008⟩ = .ok (.packV 4 0x100 0x200 8) ∧
  decode ⟨0x00000401, 0x00000200, 0x00000300, 0x00000001⟩ = .ok (.unpackS 4 0x200 0x300 1) ∧
  decode ⟨0x00002000, 0x00000000, 0x00000010, 0x00000004⟩ = .ok (.packS 32 0 16 4) ∧
  decode ⟨0x00000105, 0x00000000, 0x00000040, 0x00000002⟩ = .ok (.unpackV 1 0 64 2) ∧
  decode ⟨0x00000402, 0x00000000, 0x00000000, 0x00000040⟩ = .ok (.collapse8S 0 0 64) ∧
  decode ⟨0x00000207, 0x00000040, 0x00000080, 0x00000008⟩ = .ok (.expand16V 0x40 0x80 8) ∧
  Descriptor.ofNat 0x00000008000002000000010000000400 = ⟨0x00000400, 0x00000100, 0x00000200, 0x00000008⟩ ∧
  decode ⟨0x00000302, 0, 0, 0⟩ = .error .planeCount

/-- R79: what each pseudo-instruction expands to, and that there is no expansion for any other plane count. -/
def Obligations.PseudoInstructionsExpand : Prop :=
  ∀ (k : Nat) (src dst len : Word),
    assemble (.collapse false 4 src dst len) = some (.collapse8S src dst len) ∧
    assemble (.collapse true 4 src dst len) = some (.collapse8V src dst len) ∧
    assemble (.collapse false 2 src dst len) = some (.collapse16S src dst len) ∧
    assemble (.collapse true 2 src dst len) = some (.collapse16V src dst len) ∧
    assemble (.expand false 4 src dst len) = some (.expand8S src dst len) ∧
    assemble (.expand true 4 src dst len) = some (.expand8V src dst len) ∧
    assemble (.expand false 2 src dst len) = some (.expand16S src dst len) ∧
    assemble (.expand true 2 src dst len) = some (.expand16V src dst len) ∧
    (k ≠ 2 → k ≠ 4 → ∀ v, assemble (.collapse v k src dst len) = none ∧ assemble (.expand v k src dst len) = none) ∧
    (∀ v, assemble (.collapseInPlace v k src len) = assemble (.collapse v k src src len) ∧
      assemble (.expandInPlace v k src len) = assemble (.expand v k src src len)) ∧
    assemble (.copy false src dst len) = some (.packS 32 src dst len) ∧
    assemble (.copy true src dst len) = some (.packV 32 src dst len)

/-! ## The packing family (spec/40_pack_unpack.md) -/

/-- R101: PACK.S. Its word, its result in its domain with everything else unchanged, its refusal outside it. -/
def Obligations.PackSerialResult : Prop :=
  ∀ (w : Nat) (src dst len : Word) (s : State),
    (LegalWidth w → (encode (.packS w src dst len)).cw0 &&& 0xFFFFC0FF = 0x00000000) ∧
    (PackDomain s.cfg s.mem w src.toNat dst.toNat len.toNat →
      ∃ t, exec (.packS w src dst len) s = .next t ∧
        (∀ j, j < len.toNat / (32 / w) → t.mem.read (dst.toNat + j) =
          packed w fun i => s.mem.read (src.toNat + j * (32 / w) + i)) ∧
        SameOutside ⟨dst.toNat, len.toNat / (32 / w)⟩ s.mem t.mem ∧ OnlyTransition s t) ∧
    (¬ PackDomain s.cfg s.mem w src.toNat dst.toNat len.toNat →
      ∃ vs, exec (.packS w src dst len) s = .refused (.precondition vs))

/-- R102: PACK.V. As PACK.S, on the domain the lane condition `VecOK_pack` leaves. -/
def Obligations.PackVectorResult : Prop :=
  ∀ (w : Nat) (src dst len : Word) (s : State),
    (LegalWidth w → (encode (.packV w src dst len)).cw0 &&& 0xFFFFC0FF = 0x00000004) ∧
    (PackDomain s.cfg s.mem w src.toNat dst.toNat len.toNat →
      32 / w % s.cfg.lanes = 0 → len.toNat / (32 / w) % s.cfg.lanes = 0 →
      ∃ t, exec (.packV w src dst len) s = .next t ∧
        (∀ j, j < len.toNat / (32 / w) → t.mem.read (dst.toNat + j) =
          packed w fun i => s.mem.read (src.toNat + j * (32 / w) + i)) ∧
        SameOutside ⟨dst.toNat, len.toNat / (32 / w)⟩ s.mem t.mem ∧ OnlyTransition s t) ∧
    (¬ (PackDomain s.cfg s.mem w src.toNat dst.toNat len.toNat ∧
        32 / w % s.cfg.lanes = 0 ∧ len.toNat / (32 / w) % s.cfg.lanes = 0) →
      ∃ vs, exec (.packV w src dst len) s = .refused (.precondition vs))

/-- R103: UNPACK.S, for source words of any contents. -/
def Obligations.UnpackSerialResult : Prop :=
  ∀ (w : Nat) (src dst len : Word) (s : State),
    (LegalWidth w → (encode (.unpackS w src dst len)).cw0 &&& 0xFFFFC0FF = 0x00000001) ∧
    (UnpackDomain s.cfg w src.toNat dst.toNat len.toNat →
      ∃ t, exec (.unpackS w src dst len) s = .next t ∧
        (∀ j i, j < len.toNat → i < 32 / w → t.mem.read (dst.toNat + j * (32 / w) + i) =
          bitsAt (s.mem.read (src.toNat + j)) (32 - w - i * w) w) ∧
        SameOutside ⟨dst.toNat, len.toNat * (32 / w)⟩ s.mem t.mem ∧ OnlyTransition s t) ∧
    (¬ UnpackDomain s.cfg w src.toNat dst.toNat len.toNat →
      ∃ vs, exec (.unpackS w src dst len) s = .refused (.precondition vs))

/-- R104: UNPACK.V. As UNPACK.S, on the domain the lane condition `VecOK_unpack` leaves. -/
def Obligations.UnpackVectorResult : Prop :=
  ∀ (w : Nat) (src dst len : Word) (s : State),
    (LegalWidth w → (encode (.unpackV w src dst len)).cw0 &&& 0xFFFFC0FF = 0x00000005) ∧
    (UnpackDomain s.cfg w src.toNat dst.toNat len.toNat →
      32 / w % s.cfg.lanes = 0 → len.toNat % s.cfg.lanes = 0 →
      ∃ t, exec (.unpackV w src dst len) s = .next t ∧
        (∀ j i, j < len.toNat → i < 32 / w → t.mem.read (dst.toNat + j * (32 / w) + i) =
          bitsAt (s.mem.read (src.toNat + j)) (32 - w - i * w) w) ∧
        SameOutside ⟨dst.toNat, len.toNat * (32 / w)⟩ s.mem t.mem ∧ OnlyTransition s t) ∧
    (¬ (UnpackDomain s.cfg w src.toNat dst.toNat len.toNat ∧
        32 / w % s.cfg.lanes = 0 ∧ len.toNat % s.cfg.lanes = 0) →
      ∃ vs, exec (.unpackV w src dst len) s = .refused (.precondition vs))

/-- R100, R12: for every legal width the values of a word and its pad bits fill 32 bits, the shift levels descend from
`32 - w` in steps of `w` to `pad(w)`, all of them 0 to 31, and `mask(w)` is the integer `2^w - 1` (R10), all ones
at 32. -/
def Obligations.ShiftLevels : Prop :=
  ∀ w : Nat, LegalWidth w →
    vpw w = 32 / w ∧ pad w = 32 % w ∧ vpw w * w + pad w = 32 ∧ 1 ≤ vpw w ∧
    sh w 0 = 32 - w ∧ (∀ i, i + 1 < vpw w → sh w (i + 1) + w = sh w i) ∧ sh w (vpw w - 1) = pad w ∧
    (∀ i, sh w i ≤ 31) ∧ (mask w).toNat = 2 ^ w - 1 ∧ mask 32 = 0xFFFFFFFF

/-- R106: on PACK's domain the fields do not overlap: the OR is the sum of the shifted values and the concatenation of
the `w`-bit fields above `pad(w)` zero bits, each slot holding its value. -/
def Obligations.PackedWordStructure : Prop :=
  ∀ (w : Nat) (v : Nat → Word), LegalWidth w → (∀ i, i < 32 / w → (v i).toNat < 2 ^ w) →
    (packed w v).toNat = sumUpTo (32 / w) (fun i => (v i).toNat * 2 ^ (32 - w - i * w)) ∧
    (∀ i, i < 32 / w → bitsAt (packed w v) (32 - w - i * w) w = v i) ∧
    (packed w v).toNat % 2 ^ (32 % w) = 0

/-- R107: PACK followed by UNPACK at the same width gives the values back, in each form of each. -/
def Obligations.PackThenUnpack : Prop :=
  ∀ (w : Nat) (a b c n m : Word) (pack unpack : Instr) (s t u : State),
    pack = .packS w a b n ∨ pack = .packV w a b n →
    unpack = .unpackS w b c m ∨ unpack = .unpackV w b c m →
    m.toNat = n.toNat / (32 / w) →
    exec pack s = .next t → exec unpack t = .next u →
    ∀ i, i < n.toNat → u.mem.read (c.toNat + i) = s.mem.read (a.toNat + i)

/-- R108: at `w = 32`, PACK and UNPACK in both forms, and the pseudo-instruction COPY of R79, copy their words; P2
cannot fail there, so PACK's domain has no condition on contents. -/
def Obligations.IdentityAtWidth32 : Prop :=
  (∀ (a b n : Word) (i : Instr) (s t : State),
    i = .packS 32 a b n ∨ i = .packV 32 a b n ∨ i = .unpackS 32 a b n ∨ i = .unpackV 32 a b n ∨
      (∃ v, assemble (.copy v a b n) = some i) →
    exec i s = .next t →
    (∀ j, j < n.toNat → t.mem.read (b.toNat + j) = s.mem.read (a.toNat + j)) ∧
    SameOutside ⟨b.toNat, n.toNat⟩ s.mem t.mem) ∧
  (∀ (c : Config) (m : Memory) (src dst n : Nat),
    PackDomain c m 32 src dst n ↔ UnpackDomain c 32 src dst n)

/-- R109, R146: for every operation, inside the `.V` domain the memory after the serial form is the memory after the
lane-parallel form, and is the same for every `LANES` that admits the command. The statement says more than those rules:
the serial form reaches the very same state. That `ACC`, `V`, `A`, `T` and the counter `fresh` agree too is the model's
choice, not the spec's (R27 and U17 leave the registers unspecified): it draws the same free values after either form (log
entries 5 and 7). -/
def Obligations.SerialAndLaneFormsAgree : Prop :=
  ∀ (w : Nat) (a b n : Word) (v sf : Instr) (s t : State),
    (v = .packV w a b n ∧ sf = .packS w a b n) ∨ (v = .unpackV w a b n ∧ sf = .unpackS w a b n) ∨
    (v = .collapse16V a b n ∧ sf = .collapse16S a b n) ∨ (v = .collapse8V a b n ∧ sf = .collapse8S a b n) ∨
    (v = .expand16V a b n ∧ sf = .expand16S a b n) ∨ (v = .expand8V a b n ∧ sf = .expand8S a b n) →
    Memory.wf s.cfg.memWords s.mem = true → exec v s = .next t →
    exec sf s = .next t ∧
    ∀ (L : Nat) (t' : State), exec v { s with cfg := { s.cfg with lanes := L } } = .next t' → t'.mem = t.mem

/-- R110: PACK leaves the `pad(w)` low bits of every output word 0, and UNPACK ignores them: source words that agree
above those bits give the same values. -/
def Obligations.PadBits : Prop :=
  (∀ (w : Nat) (a b n : Word) (i : Instr) (s t : State), i = .packS w a b n ∨ i = .packV w a b n →
    exec i s = .next t → ∀ j, j < n.toNat / (32 / w) → (t.mem.read (b.toNat + j)).toNat % 2 ^ (32 % w) = 0) ∧
  (∀ (w : Nat) (a b n : Word) (i : Instr) (s s' t t' : State), i = .unpackS w a b n ∨ i = .unpackV w a b n →
    (∀ j, j < n.toNat →
      (s.mem.read (a.toNat + j)).toNat / 2 ^ (32 % w) = (s'.mem.read (a.toNat + j)).toNat / 2 ^ (32 % w)) →
    exec i s = .next t → exec i s' = .next t' →
    ∀ j, j < n.toNat * (32 / w) → t.mem.read (b.toNat + j) = t'.mem.read (b.toNat + j))

/-- R112: UNPACK followed by PACK at the same width clears the `pad(w)` low bits and nothing else. -/
def Obligations.UnpackThenPack : Prop :=
  ∀ (w : Nat) (a b c m n : Word) (unpack pack : Instr) (s t u : State),
    unpack = .unpackS w a b m ∨ unpack = .unpackV w a b m →
    pack = .packS w b c n ∨ pack = .packV w b c n →
    n.toNat = m.toNat * (32 / w) →
    exec unpack s = .next t → exec pack t = .next u →
    ∀ j, j < m.toNat → u.mem.read (c.toNat + j) = s.mem.read (a.toNat + j) &&& ~~~ mask (32 % w)

/-- R113: every value UNPACK writes is below `2^w`, so that its output meets P2 of a PACK at the same width. -/
def Obligations.UnpackLandsInDomain : Prop :=
  ∀ (w : Nat) (a b n : Word) (i : Instr) (s t : State), i = .unpackS w a b n ∨ i = .unpackV w a b n →
    exec i s = .next t → ∀ j, j < n.toNat * (32 / w) → (t.mem.read (b.toNat + j)).toNat < 2 ^ w

/-! ## The plane family (spec/41_plane_transforms.md) -/

/-- R131: COLLAPSE16.S. -/
def Obligations.Collapse16SerialResult : Prop :=
  ∀ (src dst n : Word) (s : State),
    (encode (.collapse16S src dst n)).cw0 = 0x00000202 ∧
    (CollapseDomain s.cfg s.mem 2 src.toNat dst.toNat n.toNat →
      ∃ t, exec (.collapse16S src dst n) s = .next t ∧
        (∀ i, i < n.toNat → t.mem.read (dst.toNat + i) =
          s.mem.read (src.toNat + i) <<< 16 ||| s.mem.read (src.toNat + n.toNat + i)) ∧
        SameOutside ⟨dst.toNat, n.toNat⟩ s.mem t.mem ∧ OnlyTransition s t) ∧
    (¬ CollapseDomain s.cfg s.mem 2 src.toNat dst.toNat n.toNat →
      ∃ vs, exec (.collapse16S src dst n) s = .refused (.precondition vs))

/-- R132: COLLAPSE16.V. -/
def Obligations.Collapse16VectorResult : Prop :=
  ∀ (src dst n : Word) (s : State),
    (encode (.collapse16V src dst n)).cw0 = 0x00000206 ∧
    (CollapseDomain s.cfg s.mem 2 src.toNat dst.toNat n.toNat → n.toNat % s.cfg.lanes = 0 →
      ∃ t, exec (.collapse16V src dst n) s = .next t ∧
        (∀ i, i < n.toNat → t.mem.read (dst.toNat + i) =
          s.mem.read (src.toNat + i) <<< 16 ||| s.mem.read (src.toNat + n.toNat + i)) ∧
        SameOutside ⟨dst.toNat, n.toNat⟩ s.mem t.mem ∧ OnlyTransition s t) ∧
    (¬ (CollapseDomain s.cfg s.mem 2 src.toNat dst.toNat n.toNat ∧ n.toNat % s.cfg.lanes = 0) →
      ∃ vs, exec (.collapse16V src dst n) s = .refused (.precondition vs))

/-- R133: COLLAPSE8.S. -/
def Obligations.Collapse8SerialResult : Prop :=
  ∀ (src dst n : Word) (s : State),
    (encode (.collapse8S src dst n)).cw0 = 0x00000402 ∧
    (CollapseDomain s.cfg s.mem 4 src.toNat dst.toNat n.toNat →
      ∃ t, exec (.collapse8S src dst n) s = .next t ∧
        (∀ i, i < n.toNat → t.mem.read (dst.toNat + i) =
          s.mem.read (src.toNat + i) <<< 24 ||| s.mem.read (src.toNat + n.toNat + i) <<< 16 |||
            s.mem.read (src.toNat + 2 * n.toNat + i) <<< 8 ||| s.mem.read (src.toNat + 3 * n.toNat + i)) ∧
        SameOutside ⟨dst.toNat, n.toNat⟩ s.mem t.mem ∧ OnlyTransition s t) ∧
    (¬ CollapseDomain s.cfg s.mem 4 src.toNat dst.toNat n.toNat →
      ∃ vs, exec (.collapse8S src dst n) s = .refused (.precondition vs))

/-- R134: COLLAPSE8.V. -/
def Obligations.Collapse8VectorResult : Prop :=
  ∀ (src dst n : Word) (s : State),
    (encode (.collapse8V src dst n)).cw0 = 0x00000406 ∧
    (CollapseDomain s.cfg s.mem 4 src.toNat dst.toNat n.toNat → n.toNat % s.cfg.lanes = 0 →
      ∃ t, exec (.collapse8V src dst n) s = .next t ∧
        (∀ i, i < n.toNat → t.mem.read (dst.toNat + i) =
          s.mem.read (src.toNat + i) <<< 24 ||| s.mem.read (src.toNat + n.toNat + i) <<< 16 |||
            s.mem.read (src.toNat + 2 * n.toNat + i) <<< 8 ||| s.mem.read (src.toNat + 3 * n.toNat + i)) ∧
        SameOutside ⟨dst.toNat, n.toNat⟩ s.mem t.mem ∧ OnlyTransition s t) ∧
    (¬ (CollapseDomain s.cfg s.mem 4 src.toNat dst.toNat n.toNat ∧ n.toNat % s.cfg.lanes = 0) →
      ∃ vs, exec (.collapse8V src dst n) s = .refused (.precondition vs))

/-- R135: EXPAND16.S, for source words of any contents. -/
def Obligations.Expand16SerialResult : Prop :=
  ∀ (src dst n : Word) (s : State),
    (encode (.expand16S src dst n)).cw0 = 0x00000203 ∧
    (ExpandDomain s.cfg 2 src.toNat dst.toNat n.toNat →
      ∃ t, exec (.expand16S src dst n) s = .next t ∧
        (∀ i, i < n.toNat →
          t.mem.read (dst.toNat + i) = s.mem.read (src.toNat + i) >>> 16 &&& 0xFFFF ∧
          t.mem.read (dst.toNat + n.toNat + i) = s.mem.read (src.toNat + i) &&& 0xFFFF) ∧
        SameOutside ⟨dst.toNat, 2 * n.toNat⟩ s.mem t.mem ∧ OnlyTransition s t) ∧
    (¬ ExpandDomain s.cfg 2 src.toNat dst.toNat n.toNat →
      ∃ vs, exec (.expand16S src dst n) s = .refused (.precondition vs))

/-- R136: EXPAND16.V. -/
def Obligations.Expand16VectorResult : Prop :=
  ∀ (src dst n : Word) (s : State),
    (encode (.expand16V src dst n)).cw0 = 0x00000207 ∧
    (ExpandDomain s.cfg 2 src.toNat dst.toNat n.toNat → n.toNat % s.cfg.lanes = 0 →
      ∃ t, exec (.expand16V src dst n) s = .next t ∧
        (∀ i, i < n.toNat →
          t.mem.read (dst.toNat + i) = s.mem.read (src.toNat + i) >>> 16 &&& 0xFFFF ∧
          t.mem.read (dst.toNat + n.toNat + i) = s.mem.read (src.toNat + i) &&& 0xFFFF) ∧
        SameOutside ⟨dst.toNat, 2 * n.toNat⟩ s.mem t.mem ∧ OnlyTransition s t) ∧
    (¬ (ExpandDomain s.cfg 2 src.toNat dst.toNat n.toNat ∧ n.toNat % s.cfg.lanes = 0) →
      ∃ vs, exec (.expand16V src dst n) s = .refused (.precondition vs))

/-- R137: EXPAND8.S, for source words of any contents. -/
def Obligations.Expand8SerialResult : Prop :=
  ∀ (src dst n : Word) (s : State),
    (encode (.expand8S src dst n)).cw0 = 0x00000403 ∧
    (ExpandDomain s.cfg 4 src.toNat dst.toNat n.toNat →
      ∃ t, exec (.expand8S src dst n) s = .next t ∧
        (∀ i, i < n.toNat →
          t.mem.read (dst.toNat + i) = s.mem.read (src.toNat + i) >>> 24 &&& 0xFF ∧
          t.mem.read (dst.toNat + n.toNat + i) = s.mem.read (src.toNat + i) >>> 16 &&& 0xFF ∧
          t.mem.read (dst.toNat + 2 * n.toNat + i) = s.mem.read (src.toNat + i) >>> 8 &&& 0xFF ∧
          t.mem.read (dst.toNat + 3 * n.toNat + i) = s.mem.read (src.toNat + i) &&& 0xFF) ∧
        SameOutside ⟨dst.toNat, 4 * n.toNat⟩ s.mem t.mem ∧ OnlyTransition s t) ∧
    (¬ ExpandDomain s.cfg 4 src.toNat dst.toNat n.toNat →
      ∃ vs, exec (.expand8S src dst n) s = .refused (.precondition vs))

/-- R138: EXPAND8.V. -/
def Obligations.Expand8VectorResult : Prop :=
  ∀ (src dst n : Word) (s : State),
    (encode (.expand8V src dst n)).cw0 = 0x00000407 ∧
    (ExpandDomain s.cfg 4 src.toNat dst.toNat n.toNat → n.toNat % s.cfg.lanes = 0 →
      ∃ t, exec (.expand8V src dst n) s = .next t ∧
        (∀ i, i < n.toNat →
          t.mem.read (dst.toNat + i) = s.mem.read (src.toNat + i) >>> 24 &&& 0xFF ∧
          t.mem.read (dst.toNat + n.toNat + i) = s.mem.read (src.toNat + i) >>> 16 &&& 0xFF ∧
          t.mem.read (dst.toNat + 2 * n.toNat + i) = s.mem.read (src.toNat + i) >>> 8 &&& 0xFF ∧
          t.mem.read (dst.toNat + 3 * n.toNat + i) = s.mem.read (src.toNat + i) &&& 0xFF) ∧
        SameOutside ⟨dst.toNat, 4 * n.toNat⟩ s.mem t.mem ∧ OnlyTransition s t) ∧
    (¬ (ExpandDomain s.cfg 4 src.toNat dst.toNat n.toNat ∧ n.toNat % s.cfg.lanes = 0) →
      ∃ vs, exec (.expand8V src dst n) s = .refused (.precondition vs))

/-- R140: COLLAPSE in place completes with the merged words over plane 0 and planes 1 to `k-1` unchanged, in all four
commands (a `.V` form when its lane condition holds). -/
def Obligations.CollapseInPlace : Prop :=
  ∀ (k : Nat) (buf n : Word) (i : Instr) (s : State), IsCollapse k buf buf n i → InDomain s i →
    ∃ t, exec i s = .next t ∧
      (∀ e, e < n.toNat → t.mem.read (buf.toNat + e) = merged k fun j => s.mem.read (buf.toNat + j * n.toNat + e)) ∧
      (∀ j e, 1 ≤ j → j < k → e < n.toNat →
        t.mem.read (buf.toNat + j * n.toNat + e) = s.mem.read (buf.toNat + j * n.toNat + e))

/-- R141: EXPAND in place completes with every word of the `k*n` buffer a plane element, whatever the words after the
first `n` held. -/
def Obligations.ExpandInPlace : Prop :=
  ∀ (k : Nat) (buf n : Word) (i : Instr) (s : State), IsExpand k buf buf n i → InDomain s i →
    ∃ t, exec i s = .next t ∧
      (∀ j e, j < k → e < n.toNat → t.mem.read (buf.toNat + j * n.toNat + e) =
        bitsAt (s.mem.read (buf.toNat + e)) ((k - 1 - j) * (32 / k)) (32 / k)) ∧
      (∀ s' : State, InDomain s' i → (∀ e, e < n.toNat → s'.mem.read (buf.toNat + e) = s.mem.read (buf.toNat + e)) →
        ∃ t', exec i s' = .next t' ∧
          ∀ a, a < k * n.toNat → t'.mem.read (buf.toNat + a) = t.mem.read (buf.toNat + a))

/-- R144: on COLLAPSE's domain the sum of the source's contract and the OR are one number, the concatenation of the
`bpp(k)`-bit fields. -/
def Obligations.MergedWordStructure : Prop :=
  ∀ (k : Nat) (p : Nat → Word), k = 2 ∨ k = 4 → (∀ j, j < k → (p j).toNat < 2 ^ (32 / k)) →
    (merged k p).toNat = sumUpTo k (fun j => (p j).toNat * 2 ^ ((k - 1 - j) * (32 / k))) ∧
    ∀ j, j < k → bitsAt (merged k p) ((k - 1 - j) * (32 / k)) (32 / k) = p j

/-- R145: EXPAND after COLLAPSE gives the planes back, COLLAPSE after EXPAND the words, in every form and for every
admitted placement, in place or not; in place, COLLAPSE leaves the planes 1 to `k-1` as EXPAND put them. -/
def Obligations.PlaneRoundTrips : Prop :=
  (∀ (k : Nat) (a b c n : Word) (col exp : Instr) (s t u : State), IsCollapse k a b n col → IsExpand k b c n exp →
    exec col s = .next t → exec exp t = .next u →
    ∀ j e, j < k → e < n.toNat →
      u.mem.read (c.toNat + j * n.toNat + e) = s.mem.read (a.toNat + j * n.toNat + e)) ∧
  (∀ (k : Nat) (a b c n : Word) (exp col : Instr) (s t u : State), IsExpand k a b n exp → IsCollapse k b c n col →
    exec exp s = .next t → exec col t = .next u →
    ∀ e, e < n.toNat → u.mem.read (c.toNat + e) = s.mem.read (a.toNat + e)) ∧
  (∀ (k : Nat) (buf n : Word) (exp col : Instr) (s t u : State), IsExpand k buf buf n exp →
    IsCollapse k buf buf n col → exec exp s = .next t → exec col t = .next u →
    ∀ j e, 1 ≤ j → j < k → e < n.toNat →
      u.mem.read (buf.toNat + j * n.toNat + e) = t.mem.read (buf.toNat + j * n.toNat + e))

/-- R147: EXPAND is UNPACK at width `bpp(k)` with its output transposed, and COLLAPSE is PACK at that width of the
transposed planes; the offsets of the two families are the same. -/
def Obligations.PlanesAreTransposedPacking : Prop :=
  (∀ k, k = 2 ∨ k = 4 → vpw (bpp k) = k ∧ pad (bpp k) = 0 ∧ ∀ j, j < k → sh (bpp k) j = psh k j) ∧
  (∀ (k : Nat) (a b n : Word) (exp unp : Instr) (s t u : State), IsExpand k a b n exp →
    unp = .unpackS (32 / k) a b n ∨ unp = .unpackV (32 / k) a b n →
    exec exp s = .next t → exec unp s = .next u →
    ∀ j e, j < k → e < n.toNat → t.mem.read (b.toNat + j * n.toNat + e) = u.mem.read (b.toNat + e * k + j)) ∧
  (∀ (k : Nat) (a b n a' b' n' : Word) (col pck : Instr) (s s' t t' : State), IsCollapse k a b n col →
    pck = .packS (32 / k) a' b' n' ∨ pck = .packV (32 / k) a' b' n' → n'.toNat = k * n.toNat →
    (∀ j e, j < k → e < n.toNat → s'.mem.read (a'.toNat + e * k + j) = s.mem.read (a.toNat + j * n.toNat + e)) →
    exec col s = .next t → exec pck s' = .next t' →
    ∀ e, e < n.toNat → t.mem.read (b.toNat + e) = t'.mem.read (b'.toNat + e))

/-- R149: every element EXPAND writes is below `2^bpp(k)`, so that its output meets Q3 of a COLLAPSE with the same `k`
and `n`. -/
def Obligations.ExpandLandsInDomain : Prop :=
  ∀ (k : Nat) (a b n : Word) (i : Instr) (s t : State), IsExpand k a b n i → exec i s = .next t →
    ∀ j e, j < k → e < n.toNat → (t.mem.read (b.toNat + j * n.toNat + e)).toNat < 2 ^ (32 / k)

/-! ## Commands in general (spec/20_memory.md, spec/60_exceptions.md) -/

/-- R163: a command completes exactly on its precondition domain, and outside it is refused, naming what it breaks. -/
def Obligations.CompletesExactlyInDomain : Prop :=
  ∀ (i : Instr) (s : State),
    (InDomain s i ↔ ∃ t, exec i s = .next t) ∧
    (¬ InDomain s i ↔ ∃ vs, vs ≠ [] ∧ exec i s = .refused (.precondition vs))

/-- R162, V1 to V8: every violation a refused command reports is one it breaks; every one it breaks by its descriptor
(V3 to V8) is reported; V1 and V2 are reported when no other is broken. What is reported together is the
model's choice (log entry 12). -/
def Obligations.ViolationsReported : Prop :=
  ∀ (i : Instr) (s : State),
    (∀ vs, exec i s = .refused (.precondition vs) → ∀ v ∈ vs, Broken s i v) ∧
    (∀ v, Broken s i v → v ≠ .valueTooWide → v ≠ .planeValueTooWide →
      ∃ vs, exec i s = .refused (.precondition vs) ∧ v ∈ vs) ∧
    (∀ v, Broken s i v → (∀ v', Broken s i v' → v' = .valueTooWide ∨ v' = .planeValueTooWide) →
      exec i s = .refused (.precondition [v]))

/-- R160: no command raises an exception, ever. -/
def Obligations.NoCommandFaults : Prop :=
  ∀ (i : Instr) (s : State) (f : Fault), exec i s ≠ .fault f

/-- The only fault of a step is the host's own access to a word that does not exist (the model's choice, log entry 18):
no ISSUE, no command, no DONE and no reset faults. -/
def Obligations.OnlyHostAccessFaults : Prop :=
  ∀ (s : State) (f : Fault), step s = .fault f → ∃ a rest,
    (s.moves = .read a :: rest ∨ ∃ x, s.moves = .write a x :: rest) ∧ s.cfg.memWords ≤ a ∧ f = .noSuchWord a

/-- R199, R20: a command writes no word outside `W(c)`, and what it writes there is a function of its descriptor and of
the words of `R(c)` alone: not of what `W(c)` held, of the build, of the instance or of any earlier command. -/
def Obligations.ResultDependsOnReadFootprintOnly : Prop :=
  ∀ (i : Instr) (s t : State), exec i s = .next t →
    SameOutside (writes i) s.mem t.mem ∧
    ∀ s' t' : State, AgreeOn (reads i) s.mem s'.mem → exec i s' = .next t' →
      ∀ a, (writes i).Has a → t'.mem.read a = t.mem.read a

/-- The frame of every command (R20, R25, R26, R52): beside the memory, only the moving instance's transition bit and
transient registers change (the bit `made`, `active` and `fresh` are the model's fields, log entries 5, 8, 9). -/
def Obligations.CommandsChangeOnlyMemory : Prop :=
  ∀ (i : Instr) (s t : State), exec i s = .next t → OnlyTransition s t

/-- R72: `LEN = 0` is legal for every operation and gives a command that reads and writes nothing and completes; on a
`.V` form of PACK or UNPACK the lane condition of R105 still asks `vpw(w) mod LANES = 0`, and a build that narrows
`W_SET` or fixes `PLANE_N` still refuses what it leaves out. -/
def Obligations.EmptyCommandCompletes : Prop :=
  ∀ (i : Instr) (s : State), i.WellFormed → (operands i).len = 0 →
    widthSupported s.cfg (operands i) = true → planeLengthSupported s.cfg (operands i) = true →
    ((operands i).vector = true → ∀ w, (operands i).op = .pack w ∨ (operands i).op = .unpack w →
      vpw w % s.cfg.lanes = 0) →
    ∃ t, exec i s = .next t ∧ t.mem = s.mem ∧ OnlyTransition s t

/-- R56, R203: two in-domain commands of different instances that do not alias complete in either order, with the same
memory. -/
def Obligations.IndependentCommandsCommute : Prop :=
  ∀ (i j : Instr) (p q : Nat) (s : State), Memory.wf s.cfg.memWords s.mem = true → Independent i j →
    InDomain s i → InDomain s j →
    ∃ s1 s2 t1 t2, exec i { s with active := p } = .next s1 ∧ exec j { s1 with active := q } = .next t1 ∧
      exec j { s with active := q } = .next s2 ∧ exec i { s2 with active := p } = .next t2 ∧ t1.mem = t2.mem

/-- R48, R46: a word reads as what was last written to it, and a write changes that word only. -/
def Obligations.WordReadAfterWrite : Prop :=
  ∀ (m : Memory) (a b : Nat) (x : Word), (m.write a x).read b = if b = a then x else m.read b

/-! ## The machine (spec/30_encoding.md R84, spec/70_reset_and_hazards.md, spec/10_state.md) -/

/-- A step of an instance whose command is latched and not yet executed is `exec` of the decoded command, with `active`
naming the instance and the move taken off: when the move `run k` asks for it, when the host waits with an ISSUE to the
busy instance, when no move is pending, and after `withFetchWord`. R84 says that the latched command executes; which
instance goes and what becomes of the moves is the model's: the waiting move stays first (log entry 10), with no move
pending the first busy instance goes, one schedule of those R203 leaves free (log entry 9, unsafe for that clause), and
`withFetchWord` stands for an ISSUE to instance 0 (log entry 17). -/
def Obligations.StepRunsDecoded : Prop :=
  (∀ (s : State) (k : Nat) (x : Instance) (i : Instr) (rest : List HostMove), s.insts[k]? = some x → InFlight x i →
    x.made = false → s.moves = .run k :: rest → step s = exec i { s with moves := rest, active := k }) ∧
  (∀ (s : State) (k : Nat) (x : Instance) (i : Instr) (d : Descriptor) (rest : List HostMove),
    s.insts[k]? = some x → InFlight x i → x.made = false → s.moves = .issue k d :: rest →
    step s = exec i { s with active := k }) ∧
  (∀ (s : State) (k : Nat) (x : Instance) (i : Instr), s.insts[k]? = some x → InFlight x i → x.made = false →
    (∀ j y, j < k → s.insts[j]? = some y → y.busy = false) → s.moves = [] → step s = exec i { s with active := k }) ∧
  (∀ (s : State) (nbits w : Nat) (i : Instr), decodeTableWord nbits w = some i →
    step (s.withFetchWord nbits w) = exec i { s.withFetchWord nbits w with moves := s.moves, active := 0 })

/-- R84, ISSUE: an idle instance accepts a descriptor whose command is in its domain and aliases no command in flight:
`cur <- d`, `busy <- 1`, and nothing else of the spec's state changes. Of the model's own fields the move is taken off,
`issued` counts the command (log entry 25), and `active`, `fresh` and `completed` stay. -/
def Obligations.IssueLatchesDescriptor : Prop :=
  ∀ (s : State) (k : Nat) (x : Instance) (d : Descriptor) (i : Instr) (rest : List HostMove),
    s.moves = .issue k d :: rest → s.insts[k]? = some x → x.busy = false → decode d = .ok i → InDomain s i →
    (∀ y ∈ s.insts, y.busy = true → ∃ j, decode y.cur = .ok j ∧ Independent i j) →
    ∃ t y, step s = .next t ∧ t.insts[k]? = some y ∧ y.busy = true ∧ y.cur = d ∧ y.made = false ∧ y.regs = x.regs ∧
      (∀ j, j ≠ k → t.insts[j]? = s.insts[j]?) ∧ t.mem = s.mem ∧ t.cfg = s.cfg ∧ t.moves = rest ∧
      t.active = s.active ∧ t.fresh = s.fresh ∧ t.issued = s.issued + 1 ∧ t.completed = s.completed

/-- R84, R163: the ISSUE of a command outside its domain is refused, and R56: so is that of one that aliases a command
in flight. That the refusal comes at ISSUE is the model's choice (log entry 11). -/
def Obligations.IssueRefusals : Prop :=
  ∀ (s : State) (k : Nat) (x : Instance) (d : Descriptor) (i : Instr) (rest : List HostMove),
    s.moves = .issue k d :: rest → s.insts[k]? = some x → x.busy = false → decode d = .ok i →
    (¬ InDomain s i → ∃ vs, step s = .refused (.precondition vs)) ∧
    (InDomain s i → (∃ y ∈ s.insts, ∃ j, InFlight y j ∧ ¬ Independent i j) → step s = .refused .concurrentConflict)

/-- R84: an ISSUE to a busy instance is not accepted, the host waits. That the waiting move stays first in the one list of
moves and the step is then that instance's own, also beside other busy instances where R203 leaves the schedule free, is
the model's choice (log entry 10, with U20 of 93_implementation_defined.md). -/
def Obligations.IssueToBusyWaits : Prop :=
  ∀ (s : State) (k : Nat) (x : Instance) (d : Descriptor) (rest : List HostMove),
    s.moves = .issue k d :: rest → s.insts[k]? = some x → x.busy = true →
    step s = step { s with moves := .run k :: s.moves } ∧
    ∀ t, step s = .next t → t.moves = s.moves

/-- R84, DONE: once the transition has been made the instance becomes idle, and the memory, the build and every other
instance are as they were. `cur` is unspecified from then on (R22, U17): it takes free values, of which nothing is said,
and `fresh` goes on (log entries 5 and 7). That the transient registers stay and that `made` becomes 0 is the model's
choice (log entries 7 and 8); `completed` counts the DONE (log entry 25). -/
def Obligations.DoneClearsBusy : Prop :=
  ∀ (s : State) (k : Nat) (x : Instance) (rest : List HostMove), s.moves = .run k :: rest → s.insts[k]? = some x →
    x.busy = true → x.made = true →
    ∃ t y, step s = .next t ∧ t.insts[k]? = some y ∧ y.busy = false ∧ y.made = false ∧ y.regs = x.regs ∧
      (∀ j, j ≠ k → t.insts[j]? = s.insts[j]?) ∧ t.mem = s.mem ∧ t.cfg = s.cfg ∧ t.moves = rest ∧
      t.active = s.active ∧ s.fresh ≤ t.fresh ∧ t.issued = s.issued ∧ t.completed = s.completed + 1

/-- R84, R52, R54, R192, R201: an in-domain descriptor issued to an idle instance of an idle machine reaches DONE in three
steps (ISSUE, transition, DONE: the model's cut, log entry 8; that the busy instance goes on when no move is pending: log
entry 9); when every command issued before has produced DONE the run has then ended (log entry 25), and its result is the
memory its transition gives. -/
def Obligations.IssuedCommandReachesDone : Prop :=
  ∀ (s : State) (k : Nat) (x : Instance) (d : Descriptor) (i : Instr), s.moves = [.issue k d] →
    s.insts[k]? = some x → (∀ y ∈ s.insts, y.busy = false) → decode d = .ok i → InDomain s i →
    s.issued = s.completed →
    ∃ t u, exec i s = .next u ∧ Host.Core.run Sys2Proof.core 3 s = .next t ∧ t.ended = true ∧
      State.result 3 s = some t.mem ∧ (∀ a, t.mem.read a = u.mem.read a) ∧ t.cfg = s.cfg

/-- R201 with R84: in a machine that meets the invariant an instance told to go on is never refused and never faults:
what ISSUE accepted completes. That a step with no move pending is the first busy instance's, or changes nothing when
all are idle, is the model's choice (log entry 9). -/
def Obligations.AcceptedCommandCompletes : Prop :=
  ∀ (s : State) (k : Nat) (x : Instance) (rest : List HostMove), Inv s → s.insts[k]? = some x →
    s.moves = .run k :: rest ∨ s.moves = [] → ∃ t, step s = .next t

/-- R85, R163: in a machine that meets the invariant only a move of the host's is ever refused: an ISSUE to an idle
instance, an access of the host, or a move that names no instance. -/
def Obligations.OnlyHostMovesAreRefused : Prop :=
  ∀ (s : State) (r : Refusal), Inv s → step s = .refused r → ∃ m rest, s.moves = m :: rest ∧
    ((∃ a, m = .read a) ∨ (∃ a x, m = .write a x) ∨
     (∃ k d, m = .issue k d ∧ ∀ y, s.insts[k]? = some y → y.busy = false) ∨
     (∃ k, m = .run k ∧ s.insts[k]? = none))

/-- The invariant is kept by every step from every state that meets it. -/
def Obligations.StepKeepsInv : Prop :=
  ∀ s t : State, Inv s → step s = .next t → Inv t

/-- The invariant holds right after reset, for every legal build. -/
def Obligations.ResetMeetsInv : Prop :=
  Inv State.reset ∧ ∀ c : Config, c.Legal → Inv (State.resetWith c)

/-- R31, R30: after reset every instance is idle, no command is in flight, there are `N_INST` instances, and no word has
been written (what such a word reads as: log entry 4). No move is pending and no command counted (log entries 9, 25). -/
def Obligations.ResetLeavesIdle : Prop :=
  ∀ c : Config, (State.resetWith c).insts.length = c.nInst ∧
    (∀ x ∈ (State.resetWith c).insts, x.busy = false ∧ x.made = false) ∧
    (∀ a, (State.resetWith c).mem.get? a = none) ∧ (State.resetWith c).cfg = c ∧
    (State.resetWith c).moves = [] ∧ (State.resetWith c).issued = 0 ∧ (State.resetWith c).completed = 0

/-- R33, R30, R31, R190: the reset event leaves every instance idle, and changes no word of memory outside the write
footprints of the commands it abandons. -/
def Obligations.ResetEventAbandons : Prop :=
  ∀ (s : State) (rest : List HostMove), Inv s → s.moves = .reset :: rest →
    ∃ t, step s = .next t ∧ t.insts.length = s.insts.length ∧ (∀ x ∈ t.insts, x.busy = false) ∧ t.cfg = s.cfg ∧
      t.moves = rest ∧ t.active = s.active ∧ t.issued = s.issued ∧ t.completed = s.completed ∧
      ∀ a, (∀ x ∈ s.insts, ∀ i, InFlight x i → ¬ (writes i).Has a) → t.mem.read a = s.mem.read a

/-- R194: while a command runs the host must not read `W(c)` nor write `R(c) ∪ W(c)`: the model refuses it (V10); any
other access to an existing word of plain memory succeeds, a write changing that word only. -/
def Obligations.HostKeepsOffFootprints : Prop :=
  ∀ (s : State) (a : Nat) (x : Word) (rest : List HostMove), Inv s → a < s.cfg.memWords →
    (∀ p ∈ s.cfg.notPlain, ¬ (p.1 ≤ a ∧ a < p.1 + p.2)) →
    (s.moves = .read a :: rest →
      ((∃ y ∈ s.insts, ∃ i, InFlight y i ∧ (writes i).Has a) → step s = .refused (.hostTouchesFootprint a)) ∧
      ((∀ y ∈ s.insts, ∀ i, InFlight y i → ¬ (writes i).Has a) → step s = .next { s with moves := rest })) ∧
    (s.moves = .write a x :: rest →
      ((∃ y ∈ s.insts, ∃ i, InFlight y i ∧ ((reads i).Has a ∨ (writes i).Has a)) →
        step s = .refused (.hostTouchesFootprint a)) ∧
      ((∀ y ∈ s.insts, ∀ i, InFlight y i → ¬ (reads i).Has a ∧ ¬ (writes i).Has a) →
        ∃ m : Memory, step s = .next { s with moves := rest, mem := m } ∧ m.read a = x ∧
          ∀ b, b ≠ a → m.read b = s.mem.read b))

/-! ## The checker (spec/60_exceptions.md R171, R172) -/

/-- R172: the report holds exactly the smallest differing index with the serial and the lane-parallel value, and there
is none when the outputs are equal. -/
def Obligations.CheckerReportsFirstDifference : Prop :=
  ∀ (m : Memory) (dst1 dst2 n : Nat),
    (∀ t x y, compareRegions m dst1 dst2 n = .mismatch t x y ↔
      t < n ∧ m.read (dst1 + t) = x ∧ m.read (dst2 + t) = y ∧ x ≠ y ∧
        ∀ u, u < t → m.read (dst1 + u) = m.read (dst2 + u)) ∧
    (compareRegions m dst1 dst2 n = .ok ↔ ∀ t, t < n → m.read (dst1 + t) = m.read (dst2 + t))

/-- R175: when the outputs agree and one lane of the lane-parallel output is perturbed, the report is exactly that index
and both values. -/
def Obligations.PerturbedLaneIsReported : Prop :=
  ∀ (m : Memory) (dst1 dst2 n t : Nat) (x : Word), Footprint.Disjoint ⟨dst1, n⟩ ⟨dst2, n⟩ → t < n →
    compareRegions m dst1 dst2 n = .ok → x ≠ m.read (dst2 + t) →
    compareRegions (m.write (dst2 + t) x) dst1 dst2 n = .mismatch t (m.read (dst1 + t)) x

/-- R171, R172: on clones of in-domain input the checker's two commands, each issued to the idle instance `k` and waited
for, never end in a verification failure, for any of the six operations, in place or not, beside any commands in flight
elsewhere that they do not alias. -/
def Obligations.CheckerNeverFails : Prop :=
  ∀ (k : Nat) (x : Instance) (sf vf : Instr) (s : State), s.insts[k]? = some x → x.busy = false →
    (∀ y ∈ s.insts, y.busy = true → ∃ j, decode y.cur = .ok j ∧ Independent sf j ∧ Independent vf j) →
    SameOperation sf vf → Separate sf vf → InDomain s sf → InDomain s vf →
    (∀ t, t < (reads sf).len → s.mem.read ((reads sf).base + t) = s.mem.read ((reads vf).base + t)) →
    check k sf vf s = .ok .ok

/-- R171, R172: the checker's whole procedure from an idle machine: whatever the input array, of the length the commands
read and in their domain, the host's writes of the two clones, the two commands and the reads are all accepted, and the
answer is success. -/
def Obligations.CheckerProcedureSucceeds : Prop :=
  ∀ (k : Nat) (input : List Word) (sf vf : Instr) (s : State), k < s.insts.length →
    (∀ y ∈ s.insts, y.busy = false) → SameOperation sf vf → Separate sf vf → (reads sf).Disjoint (reads vf) →
    input.length = (reads sf).len →
    InDomain { s with mem := placed (placed s.mem (reads sf).base input) (reads vf).base input } sf →
    InDomain { s with mem := placed (placed s.mem (reads sf).base input) (reads vf).base input } vf →
    checkOn k input sf vf s = .ok .ok

/-! ## The end of a run (spec/70_reset_and_hazards.md R192) -/

/-- R192: in a machine that meets the invariant the run has ended exactly when every descriptor of every program has been
issued and every issued command has produced DONE (how the two are counted: log entry 25), whatever other moves of the
host are left; and then every instance is idle. R33: a reset that cuts a command leaves one issued that never produces
DONE, no later step mends that, and such a run has not ended (that the counters go on over the reset: log entry 25). -/
def Obligations.RunEndsExactly : Prop :=
  (∀ s : State, Inv s →
    (s.ended = true ↔ (∀ k d, HostMove.issue k d ∉ s.moves) ∧ s.issued = s.completed) ∧
    (s.ended = true → ∀ x ∈ s.insts, x.busy = false)) ∧
  (∀ (s t : State) (x : Instance) (rest : List HostMove), Inv s → s.moves = .reset :: rest → x ∈ s.insts →
    x.busy = true → step s = .next t → CutByReset t) ∧
  (∀ s t : State, CutByReset s → step s = .next t → CutByReset t) ∧
  (∀ s : State, CutByReset s → s.ended = false)

/-- R192: the result of a run is the memory at the moment the run has ended, whatever host moves other than an ISSUE are
still to come: they change nothing of it. The three moves are the ISSUE, the transition and the DONE of one in-domain
command on an idle machine (the model's cut, log entries 8 and 9; the count of commands: log entry 25). -/
def Obligations.RunResultIsMemoryAtEnd : Prop :=
  ∀ (s : State) (k : Nat) (x : Instance) (d : Descriptor) (i : Instr) (rest : List HostMove),
    s.moves = .issue k d :: .run k :: .run k :: rest → (∀ m ∈ rest, m.isIssue = false) → s.insts[k]? = some x →
    (∀ y ∈ s.insts, y.busy = false) → decode d = .ok i → InDomain s i → s.issued = s.completed →
    ∃ (u : State) (m : Memory), exec i s = .next u ∧ (∀ n, State.result (n + 3) s = some m) ∧
      ∀ a, m.read a = u.mem.read a
end

