-- ==== Sys2Proof/Laws/Memory.lean ====
section
/-! SUPPORT. Laws of the memory: read after write, a write leaves every other word alone, every write keeps the canonical
form, and two canonical memories that list the same words are equal. -/

namespace Sys2Proof.Machine

theorem Memory.get?_write (m : Memory) (a : Nat) (x : Word) (b : Nat) :
    (m.write a x).get? b = if b = a then some x else m.get? b := by
  induction m with
  | nil => simp [Memory.write, Memory.get?]
  | cons p m ih =>
    obtain ⟨c, y⟩ := p
    by_cases h1 : a < c
    · simp [Memory.write, Memory.get?, h1]
    · by_cases h2 : a = c
      · subst h2
        by_cases h3 : b = a <;> simp [Memory.write, Memory.get?, h3]
      · by_cases h3 : b = c
        · simp [Memory.write, Memory.get?, h1, h2, h3, show ¬ c = a from fun h => h2 h.symm]
        · simp [Memory.write, Memory.get?, h1, h2, h3, ih]

theorem Memory.read_write_same (m : Memory) (a : Nat) (x : Word) : (m.write a x).read a = x := by
  simp [Memory.read, Memory.get?_write]

theorem Memory.read_write_other (m : Memory) {a b : Nat} (x : Word) (h : b ≠ a) :
    (m.write a x).read b = m.read b := by
  simp [Memory.read, Memory.get?_write, h]

theorem Memory.read_of_get? {m : Memory} {a : Nat} {x : Word} (h : m.get? a = some x) : m.read a = x := by
  simp [Memory.read, h]

theorem Memory.read_congr {m m' : Memory} {a : Nat} (h : m'.get? a = m.get? a) : m'.read a = m.read a := by
  simp [Memory.read, h]

theorem Memory.wfFrom_mono {bound lo lo' : Nat} {m : Memory} (h : Memory.wfFrom bound lo m = true) (hl : lo' ≤ lo) :
    Memory.wfFrom bound lo' m = true := by
  cases m with
  | nil => rfl
  | cons p m =>
    obtain ⟨a, x⟩ := p
    simp only [Memory.wfFrom, Bool.and_eq_true, decide_eq_true_eq] at h ⊢
    exact ⟨⟨by omega, h.1.2⟩, h.2⟩

theorem Memory.wfFrom_write {bound lo : Nat} {m : Memory} {a : Nat} (x : Word)
    (h : Memory.wfFrom bound lo m = true) (hl : lo ≤ a) (hb : a < bound) :
    Memory.wfFrom bound lo (m.write a x) = true := by
  induction m generalizing lo with
  | nil => simp [Memory.write, Memory.wfFrom, hl, hb]
  | cons p m ih =>
    obtain ⟨c, y⟩ := p
    simp only [Memory.wfFrom, Bool.and_eq_true, decide_eq_true_eq] at h
    by_cases h1 : a < c
    · simp [Memory.write, Memory.wfFrom, h1, hl, hb, h.1.2, h.2]
    · by_cases h2 : a = c
      · subst h2
        simp [Memory.write, Memory.wfFrom, hl, hb, h.2]
      · simp only [Memory.write, h1, h2, if_false, Memory.wfFrom, Bool.and_eq_true, decide_eq_true_eq]
        exact ⟨h.1, ih h.2 (by omega)⟩

theorem Memory.wf_write {bound : Nat} {m : Memory} {a : Nat} (x : Word) (h : Memory.wf bound m = true)
    (hb : a < bound) : Memory.wf bound (m.write a x) = true :=
  Memory.wfFrom_write x h (Nat.zero_le _) hb

theorem Memory.get?_below {bound lo : Nat} {m : Memory} (h : Memory.wfFrom bound lo m = true) {a : Nat} (ha : a < lo) :
    m.get? a = none := by
  induction m generalizing lo with
  | nil => rfl
  | cons p m ih =>
    obtain ⟨c, y⟩ := p
    simp only [Memory.wfFrom, Bool.and_eq_true, decide_eq_true_eq] at h
    simp only [Memory.get?, show ¬ a = c by omega, if_false]
    exact ih h.2 (by omega)

theorem Memory.ext_wfFrom {bound lo : Nat} {m m' : Memory} (h : Memory.wfFrom bound lo m = true)
    (h' : Memory.wfFrom bound lo m' = true) (e : ∀ a, m.get? a = m'.get? a) : m = m' := by
  induction m generalizing lo m' with
  | nil =>
    cases m' with
    | nil => rfl
    | cons p m' => have := e p.1; simp [Memory.get?] at this
  | cons p m ih =>
    obtain ⟨c, y⟩ := p
    cases m' with
    | nil => have := e c; simp [Memory.get?] at this
    | cons p' m' =>
      obtain ⟨c', y'⟩ := p'
      simp only [Memory.wfFrom, Bool.and_eq_true, decide_eq_true_eq] at h h'
      have hc : c = c' := by
        rcases Nat.lt_trichotomy c c' with hlt | heq | hgt
        · have := e c
          simp only [Memory.get?, if_true, show ¬ c = c' by omega, if_false] at this
          rw [Memory.get?_below h'.2 (by omega)] at this
          cases this
        · exact heq
        · have := e c'
          simp only [Memory.get?, if_true, show ¬ c' = c by omega, if_false] at this
          rw [Memory.get?_below h.2 (by omega)] at this
          cases this
      subst hc
      have hy : y = y' := by have := e c; simpa [Memory.get?] using this
      subst hy
      congr 1
      refine ih h.2 h'.2 fun a => ?_
      by_cases ha : a = c
      · subst ha
        rw [Memory.get?_below h.2 (by omega), Memory.get?_below h'.2 (by omega)]
      · have := e a
        simpa [Memory.get?, ha] using this

theorem Memory.ext_wf {bound : Nat} {m m' : Memory} (h : Memory.wf bound m = true) (h' : Memory.wf bound m' = true)
    (e : ∀ a, m.get? a = m'.get? a) : m = m' :=
  Memory.ext_wfFrom h h' e

/-- A memory listing the words `l`, written in order: for building small memories. -/
def Memory.ofList (l : List (Nat × Word)) : Memory := l.foldl (fun m p => m.write p.1 p.2) []

end Sys2Proof.Machine
end

