-- ==== Sys2Proof/Laws/State.lean ====
section
/-! SUPPORT. The small lemmas of the state: one per field and update. -/

namespace Sys2Proof.Machine

section Engine
variable (e : Engine) (a : Nat) (x : Word) (xs : List Word)

@[simp] theorem Engine.read_def : e.read a = e.mem.read a := rfl
@[simp] theorem Engine.write_mem : (e.write a x).mem = e.mem.write a x := rfl
@[simp] theorem Engine.write_regs : (e.write a x).regs = e.regs := rfl
@[simp] theorem Engine.setAcc_mem : (e.setAcc x).mem = e.mem := rfl
@[simp] theorem Engine.setAcc_acc : (e.setAcc x).regs.acc = x := rfl
@[simp] theorem Engine.setV_mem : (e.setV xs).mem = e.mem := rfl
@[simp] theorem Engine.setV_v : (e.setV xs).regs.v = xs := rfl
@[simp] theorem Engine.setA_mem : (e.setA xs).mem = e.mem := rfl
@[simp] theorem Engine.setA_a : (e.setA xs).regs.a = xs := rfl
@[simp] theorem Engine.setT_mem : (e.setT xs).mem = e.mem := rfl
@[simp] theorem Engine.setT_t : (e.setT xs).regs.t = xs := rfl
@[simp] theorem Engine.setT_a : (e.setT xs).regs.a = e.regs.a := rfl

end Engine

section Commit
variable (s : State) (e : Engine)

@[simp] theorem State.engine_mem : s.engine.mem = s.mem := rfl
@[simp] theorem State.commit_mem : (s.commit e).mem = e.mem := rfl
@[simp] theorem State.commit_cfg : (s.commit e).cfg = s.cfg := rfl
@[simp] theorem State.commit_moves : (s.commit e).moves = s.moves := rfl
@[simp] theorem State.commit_active : (s.commit e).active = s.active := rfl
@[simp] theorem State.commit_issued : (s.commit e).issued = s.issued := rfl
@[simp] theorem State.commit_completed : (s.commit e).completed = s.completed := rfl
@[simp] theorem State.commit_fresh : (s.commit e).fresh = s.fresh + Transients.freeCount s.cfg.lanes := rfl

/-- The instances after a transition: only the active one differs, in `made` and its transient registers. -/
theorem State.commit_inst (k : Nat) :
    (s.commit e).insts[k]? = (s.insts[k]?).map fun x =>
      if k = s.active then { x with made := true, regs := Transients.free s.cfg.lanes s.fresh } else x := by
  simp only [State.commit, List.getElem?_modify]
  by_cases h : s.active = k
  · subst h; simp
  · simp [h, show ¬ k = s.active from fun h' => h h'.symm]

theorem State.commit_count : (s.commit e).insts.length = s.insts.length := by
  simp [State.commit]

end Commit

section Instances
variable (s : State) (k : Nat) (x : Instance) (d : Descriptor)

@[simp] theorem State.setInst_mem : (s.setInst k x).mem = s.mem := rfl
@[simp] theorem State.setInst_cfg : (s.setInst k x).cfg = s.cfg := rfl
@[simp] theorem State.setInst_moves : (s.setInst k x).moves = s.moves := rfl
@[simp] theorem State.setInst_active : (s.setInst k x).active = s.active := rfl
@[simp] theorem State.setInst_fresh : (s.setInst k x).fresh = s.fresh := rfl
@[simp] theorem State.setInst_insts : (s.setInst k x).insts = s.insts.set k x := rfl
@[simp] theorem State.setInst_issued : (s.setInst k x).issued = s.issued := rfl
@[simp] theorem State.setInst_completed : (s.setInst k x).completed = s.completed := rfl
@[simp] theorem State.done_issued : (s.done k x).issued = s.issued := rfl
@[simp] theorem State.done_completed : (s.done k x).completed = s.completed + 1 := rfl
@[simp] theorem State.done_mem : (s.done k x).mem = s.mem := rfl
@[simp] theorem State.done_cfg : (s.done k x).cfg = s.cfg := rfl
@[simp] theorem State.done_moves : (s.done k x).moves = s.moves := rfl
@[simp] theorem State.done_active : (s.done k x).active = s.active := rfl
@[simp] theorem State.done_fresh : (s.done k x).fresh = s.fresh + 4 := rfl
@[simp] theorem State.done_insts : (s.done k x).insts =
    s.insts.set k { x with busy := false, made := false, cur := Descriptor.free s.fresh } := rfl
@[simp] theorem State.latched_mem : (s.latched d).mem = s.mem := rfl
@[simp] theorem State.latched_cfg : (s.latched d).cfg = s.cfg := rfl
@[simp] theorem State.latched_moves : (s.latched d).moves = .run 0 :: s.moves := rfl
@[simp] theorem State.latched_issued : (s.latched d).issued = s.issued + 1 := rfl
@[simp] theorem State.latched_completed : (s.latched d).completed = s.completed := rfl
@[simp] theorem State.beginRun_mem (ms : List HostMove) : (s.beginRun ms).mem = s.mem := rfl
@[simp] theorem State.beginRun_insts (ms : List HostMove) : (s.beginRun ms).insts = s.insts := rfl
@[simp] theorem State.beginRun_moves (ms : List HostMove) : (s.beginRun ms).moves = ms := rfl
@[simp] theorem State.beginRun_cfg (ms : List HostMove) : (s.beginRun ms).cfg = s.cfg := rfl
@[simp] theorem State.beginRun_issued (ms : List HostMove) :
    (s.beginRun ms).issued = s.insts.countP (·.busy) := rfl
@[simp] theorem State.beginRun_completed (ms : List HostMove) : (s.beginRun ms).completed = 0 := rfl

end Instances

section Vectors
variable (L n : Nat)

@[simp] theorem Transients.free_v_length : (Transients.free L n).v.length = L := by simp [Transients.free]
@[simp] theorem Transients.free_a_length : (Transients.free L n).a.length = L := by simp [Transients.free]
@[simp] theorem Transients.free_t_length : (Transients.free L n).t.length = L := by simp [Transients.free]
@[simp] theorem Transients.reset_v_length : (Transients.reset L).v.length = L := by simp [Transients.reset]
@[simp] theorem Transients.reset_a_length : (Transients.reset L).a.length = L := by simp [Transients.reset]
@[simp] theorem Transients.reset_t_length : (Transients.reset L).t.length = L := by simp [Transients.reset]

theorem lane_lanes {L : Nat} (f : Nat → Word) {l : Nat} (h : l < L) : lane (lanes L f) l = f l := by
  simp [lane, lanes, List.getD_eq_getElem?_getD, h]

end Vectors

end Sys2Proof.Machine
end

