-- ==== Sys2Proof/Laws/Datapath.lean ====
section
/-! SUPPORT. What each datapath does to the memory, said once. `Writes m m' S F`: the words at the addresses of `S`
take the values `F`, every other word is as in `m`. `F` is the command's result as a function of the address, computed
from the initial memory, so the effects of the steps of a datapath compose by uniting their addresses. -/

namespace Sys2Proof.Machine

open Sys2Proof.Safety (orUpTo)

structure Writes (m m' : Memory) (S : Nat → Prop) (F : Nat → Word) : Prop where
  hit : ∀ a, S a → m'.get? a = some (F a)
  miss : ∀ a, ¬ S a → m'.get? a = m.get? a

namespace Writes

variable {m m' m'' : Memory} {S T : Nat → Prop} {F G : Nat → Word}

theorem refl (m : Memory) (F : Nat → Word) : Writes m m (fun _ => False) F := ⟨fun _ h => h.elim, fun _ _ => rfl⟩

theorem trans (h : Writes m m' S F) (h' : Writes m' m'' T F) : Writes m m'' (fun a => S a ∨ T a) F where
  hit a ha := by
    by_cases hT : T a
    · exact h'.hit a hT
    · rw [h'.miss a hT]; exact h.hit a (ha.resolve_right hT)
  miss a ha := by rw [h'.miss a fun h => ha (.inr h), h.miss a fun h => ha (.inl h)]

theorem congr (h : Writes m m' S F) (hS : ∀ a, T a ↔ S a) (hF : ∀ a, S a → F a = G a) : Writes m m' T G where
  hit a ha := by rw [h.hit a ((hS a).1 ha), hF a ((hS a).1 ha)]
  miss a ha := h.miss a fun h => ha ((hS a).2 h)

theorem single (m : Memory) (a : Nat) : Writes m (m.write a (F a)) (fun b => b = a) F where
  hit b hb := by subst hb; simp [Memory.get?_write]
  miss b hb := by simp [Memory.get?_write, hb]

theorem read_hit (h : Writes m m' S F) {a : Nat} (ha : S a) : m'.read a = F a := Memory.read_of_get? (h.hit a ha)

theorem read_miss (h : Writes m m' S F) {a : Nat} (ha : ¬ S a) : m'.read a = m.read a :=
  Memory.read_congr (h.miss a ha)

/-- The effect of a loop from the effect of its passes; `P` is what every pass keeps. -/
theorem loop {n : Nat} {body : Nat → Engine → Engine} {e : Engine} {m : Memory} {S : Nat → Nat → Prop}
    (P : Engine → Prop) (hm : e.mem = m) (hP : P e)
    (h : ∀ x, x < n → ∀ e' : Engine, P e' → Writes m e'.mem (fun a => ∃ y, y < x ∧ S y a) F →
      P (body x e') ∧ Writes e'.mem (body x e').mem (S x) F) :
    P (forUpTo n body e) ∧ Writes m (forUpTo n body e).mem (fun a => ∃ y, y < n ∧ S y a) F := by
  subst hm
  induction n with
  | zero => exact ⟨hP, (refl e.mem F).congr (fun a => by simp) (fun _ h => h.elim)⟩
  | succ n ih =>
    obtain ⟨p1, h1⟩ := ih fun x hx => h x (by omega)
    obtain ⟨p2, h2⟩ := h n (by omega) _ p1 h1
    refine ⟨p2, (h1.trans h2).congr (fun a => ?_) (fun _ _ => rfl)⟩
    constructor
    · rintro ⟨y, hy, hs⟩
      rcases Nat.lt_or_ge y n with hlt | hge
      · exact .inl ⟨y, hlt, hs⟩
      · obtain rfl : y = n := by omega
        exact .inr hs
    · rintro (⟨y, hy, hs⟩ | hs)
      · exact ⟨y, by omega, hs⟩
      · exact ⟨n, by omega, hs⟩

/-- `loop` where the passes share nothing but the memory. -/
theorem loopMem {n : Nat} {body : Nat → Engine → Engine} {e : Engine} {S : Nat → Nat → Prop}
    (h : ∀ x, x < n → ∀ e' : Engine, Writes e.mem e'.mem (fun a => ∃ y, y < x ∧ S y a) F →
      Writes e'.mem (body x e').mem (S x) F) :
    Writes e.mem (forUpTo n body e).mem (fun a => ∃ y, y < n ∧ S y a) F :=
  (loop (fun _ => True) rfl trivial fun x hx e' _ hw => ⟨trivial, h x hx e' hw⟩).2

/-- The effect of a parallel store. -/
theorem storeLanes {e : Engine} {m : Memory} {L : Nat} {addr : Nat → Nat} {xs : List Word} (hm : e.mem = m)
    (h : ∀ l, l < L → lane xs l = F (addr l)) :
    (e.storeLanes L addr xs).regs = e.regs ∧
      Writes m (e.storeLanes L addr xs).mem (fun a => ∃ l, l < L ∧ a = addr l) F := by
  refine loop (S := fun l a => a = addr l) (fun e' => e'.regs = e.regs) hm rfl fun l hl e' hr _ => ⟨hr, ?_⟩
  rw [Engine.write_mem, h l hl]
  exact single _ _

end Writes

/-! ## ORs over slots and planes -/

theorem orUpTo_congr {n : Nat} {f g : Nat → Word} (h : ∀ i, i < n → f i = g i) : orUpTo n f = orUpTo n g := by
  induction n with
  | zero => rfl
  | succ n ih => rw [orUpTo, orUpTo, ih fun i hi => h i (by omega), h n (by omega)]

theorem orUpTo_succ_left (n : Nat) (f : Nat → Word) : orUpTo (n + 1) f = f 0 ||| orUpTo n fun i => f (i + 1) := by
  induction n with
  | zero => simp [orUpTo]
  | succ n ih => rw [orUpTo, ih, orUpTo, BitVec.or_assoc]

/-- The OR loop of the serial datapaths. -/
theorem orInto_loop (n : Nat) (p s : Nat → Nat) (e : Engine) :
    (forUpTo n (fun i e => e.orInto (p i) (s i)) e).mem = e.mem ∧
    (forUpTo n (fun i e => e.orInto (p i) (s i)) e).regs.acc =
      e.regs.acc ||| orUpTo n fun i => shl32 (e.mem.read (p i)) (s i) := by
  induction n with
  | zero => simp [forUpTo, orUpTo]
  | succ n ih =>
    refine ⟨by simpa [forUpTo, Engine.orInto] using ih.1, ?_⟩
    simp only [forUpTo, orUpTo]
    rw [Engine.orInto, Engine.setAcc_acc, Engine.read_def, ih.1, ih.2, BitVec.or_assoc]

/-! ## PACK -/

/-- Result of PACK at address `a` (R101). -/
def packOut (w src dst : Nat) (m : Memory) (a : Nat) : Word :=
  orUpTo (vpw w) fun i => shl32 (m.read (src + (a - dst) * vpw w + i)) (sh w i)

theorem packWord_writes (w src dst j : Nat) (e : Engine) :
    Writes e.mem (packWord w src dst j e).mem (fun a => a = dst + j) (packOut w src dst e.mem) := by
  have h := orInto_loop (vpw w) (fun i => src + j * vpw w + i) (sh w) (e.setAcc 0)
  have hv : (forUpTo (vpw w) (fun i e => e.orInto (src + j * vpw w + i) (sh w i)) (e.setAcc 0)).regs.acc =
      packOut w src dst e.mem (dst + j) := by
    rw [h.2]; simp [packOut]
  simp only [packWord, Engine.write_mem, h.1, hv, Engine.setAcc_mem]
  exact Writes.single _ _

theorem slot_lt {n j nW i : Nat} (hj : j < nW) (hi : i < n) : j * n + i < nW * n := by
  have := Nat.mul_le_mul_right n (Nat.succ_le_of_lt hj)
  rw [Nat.succ_mul] at this
  omega

theorem packSerial_writes {w src dst nW : Nat} {e : Engine}
    (hd : ∀ a, src ≤ a → a < src + nW * vpw w → ¬ (dst ≤ a ∧ a < dst + nW)) :
    Writes e.mem (packSerial w src dst nW e).mem (fun a => dst ≤ a ∧ a < dst + nW) (packOut w src dst e.mem) := by
  have key := Writes.loopMem (n := nW) (body := packWord w src dst) (e := e) (S := fun j a => a = dst + j)
    (F := packOut w src dst e.mem) fun j hj e' he' => by
      refine (packWord_writes w src dst j e').congr (fun _ => Iff.rfl) fun a ha => ?_
      subst ha
      refine orUpTo_congr fun i hi => ?_
      rw [he'.read_miss]
      rintro ⟨y, hy, heq⟩
      have hlt := slot_lt hj hi
      rw [Nat.add_sub_cancel_left] at heq
      exact hd (dst + y) (by omega) (by omega) ⟨by omega, by omega⟩
  refine key.congr (fun a => ?_) (fun _ _ => rfl)
  constructor
  · rintro ⟨h1, h2⟩; exact ⟨a - dst, by omega, by omega⟩
  · rintro ⟨y, hy, rfl⟩; exact ⟨by omega, by omega⟩

/-- One shift level of PACK.V: the words of the group take, at the first level, the shifted values, and at a later one
the OR with what they held. -/
theorem packLevel_writes (L w src dst g t : Nat) (e : Engine) :
    Writes e.mem (packLevel L w src dst g t e).mem (fun a => ∃ l, l < L ∧ a = dst + (g * L + l)) fun a =>
      (if t = 0 then 0 else e.mem.read a) ||| shl32 (e.mem.read (src + (a - dst) * vpw w + t)) (sh w t) := by
  unfold packLevel
  by_cases ht : t = 0
  · simp only [ht, if_true]
    refine (Writes.storeLanes ?_ fun l hl => ?_).2
    · rfl
    · rw [Engine.setV_v, lane_lanes _ hl, Engine.setV_v, lane_lanes _ hl]
      simp
  · simp only [ht, if_false]
    refine (Writes.storeLanes ?_ fun l hl => ?_).2
    · rfl
    · simp only [lane_lanes _ hl, Engine.setV_v, Engine.setV_mem, Engine.read_def, Nat.add_sub_cancel_left]

/-- PACK.V, one group: each of its words ends as PACK.S makes it. -/
theorem packGroup_writes {L w src dst g : Nat} {e : Engine} (hn : 0 < vpw w)
    (hd : ∀ l i l', l < L → i < vpw w → l' < L → src + (g * L + l) * vpw w + i ≠ dst + (g * L + l')) :
    Writes e.mem (packGroup L w src dst g e).mem (fun a => ∃ l, l < L ∧ a = dst + (g * L + l))
      (packOut w src dst e.mem) := by
  suffices H : ∀ T, T < vpw w → Writes e.mem (forUpTo (T + 1) (packLevel L w src dst g) e).mem
      (fun a => ∃ l, l < L ∧ a = dst + (g * L + l))
      fun a => orUpTo (T + 1) fun i => shl32 (e.mem.read (src + (a - dst) * vpw w + i)) (sh w i) by
    obtain ⟨T, hT⟩ : ∃ T, vpw w = T + 1 := ⟨vpw w - 1, by omega⟩
    have h := H T (by omega)
    rw [← hT] at h
    exact h
  intro T
  induction T with
  | zero =>
    intro _
    refine (packLevel_writes L w src dst g 0 e).congr (fun _ => Iff.rfl) fun a _ => ?_
    simp [orUpTo]
  | succ T ih =>
    intro hT
    have h1 := ih (by omega)
    have h2 := packLevel_writes L w src dst g (T + 1) (forUpTo (T + 1) (packLevel L w src dst g) e)
    constructor
    · intro a ha
      rw [forUpTo, h2.hit a ha]
      obtain ⟨l, hl, rfl⟩ := ha
      have e1 := h1.read_hit (a := dst + (g * L + l)) ⟨l, hl, rfl⟩
      have e2 := h1.read_miss (a := src + (g * L + l) * vpw w + (T + 1)) (by
        rintro ⟨l', hl', h⟩; exact hd l (T + 1) l' hl (by omega) hl' h)
      simp only [Nat.add_sub_cancel_left] at e1 ⊢
      rw [e1, e2, if_neg (by omega)]
      rfl
    · intro a ha
      rw [forUpTo, h2.miss a ha, h1.miss a ha]

theorem group_lt {L nW g l : Nat} (hm : nW % L = 0) (hg : g < nW / L) (hl : l < L) : g * L + l < nW := by
  have h1 := slot_lt hg hl
  have h2 := Nat.div_add_mod nW L
  rw [hm, Nat.mul_comm] at h2
  omega

theorem group_of_lt {L nW x : Nat} (hm : nW % L = 0) (hx : x < nW) :
    x / L < nW / L ∧ x % L < L ∧ x / L * L + x % L = x := by
  have hL : 0 < L := by
    rcases Nat.eq_zero_or_pos L with rfl | h
    · simp at hm; omega
    · exact h
  have h2 := Nat.div_add_mod nW L
  refine ⟨?_, Nat.mod_lt _ hL, by have := Nat.div_add_mod x L; rw [Nat.mul_comm] at this; exact this⟩
  rw [Nat.div_lt_iff_lt_mul hL]
  rw [hm, Nat.mul_comm] at h2
  omega

/-- The addresses of the groups of a lane-parallel form are those of its range. -/
theorem group_addresses {L nW dst : Nat} (hm : nW % L = 0) (a : Nat) :
    (dst ≤ a ∧ a < dst + nW) ↔ ∃ g, g < nW / L ∧ ∃ l, l < L ∧ a = dst + (g * L + l) := by
  constructor
  · rintro ⟨h1, h2⟩
    obtain ⟨ha, hb, hc⟩ := group_of_lt hm (x := a - dst) (by omega)
    exact ⟨_, ha, _, hb, by omega⟩
  · rintro ⟨g, hg, l, hl, rfl⟩
    have := group_lt hm hg hl
    omega

theorem packLanes_writes {L w src dst nW : Nat} {e : Engine} (hn : 0 < vpw w) (hm : nW % L = 0)
    (hd : ∀ a, src ≤ a → a < src + nW * vpw w → ¬ (dst ≤ a ∧ a < dst + nW)) :
    Writes e.mem (packLanes L w src dst nW e).mem (fun a => dst ≤ a ∧ a < dst + nW) (packOut w src dst e.mem) := by
  have hread : ∀ g, g < nW / L → ∀ l, l < L → ∀ i, i < vpw w → ∀ g', g' < nW / L → ∀ l', l' < L →
      src + (g * L + l) * vpw w + i ≠ dst + (g' * L + l') := by
    intro g hg l hl i hi g' hg' l' hl' heq
    have h1 := slot_lt (group_lt hm hg hl) hi
    have h2 := group_lt hm hg' hl'
    exact hd (dst + (g' * L + l')) (by omega) (by omega) ⟨by omega, by omega⟩
  have key := Writes.loopMem (n := nW / L) (body := packGroup L w src dst) (e := e)
    (S := fun g a => ∃ l, l < L ∧ a = dst + (g * L + l)) (F := packOut w src dst e.mem) fun g hg e' he' => by
      refine (packGroup_writes hn fun l i l' hl hi hl' => hread g hg l hl i hi g hg l' hl').congr
        (fun _ => Iff.rfl) fun a ha => ?_
      obtain ⟨l, hl, rfl⟩ := ha
      refine orUpTo_congr fun i hi => ?_
      rw [he'.read_miss]
      rintro ⟨g', hg', l', hl', heq⟩
      rw [Nat.add_sub_cancel_left] at heq
      exact hread g hg l hl i hi g' (by omega) l' hl' heq
  exact key.congr (fun a => group_addresses hm a) (fun _ _ => rfl)

/-! ## UNPACK -/

/-- Result of UNPACK at address `a` (R103). -/
def unpackOut (w src dst : Nat) (m : Memory) (a : Nat) : Word :=
  slot w (m.read (src + (a - dst) / vpw w)) ((a - dst) % vpw w)

theorem unpackOut_at (w src dst : Nat) (m : Memory) {j i : Nat} (hi : i < vpw w) :
    unpackOut w src dst m (dst + j * vpw w + i) = slot w (m.read (src + j)) i := by
  have e1 : dst + j * vpw w + i - dst = i + vpw w * j := by rw [Nat.mul_comm]; omega
  rw [unpackOut, e1, Nat.add_mul_div_left _ _ (by omega), Nat.add_mul_mod_self_left, Nat.div_eq_of_lt hi,
    Nat.mod_eq_of_lt hi, Nat.zero_add]

theorem slot_addresses {n k dst : Nat} (hn : 0 < n) (a : Nat) :
    (dst ≤ a ∧ a < dst + k * n) ↔ ∃ j, j < k ∧ ∃ i, i < n ∧ a = dst + j * n + i := by
  constructor
  · rintro ⟨h1, h2⟩
    have h3 := Nat.div_add_mod (a - dst) n
    rw [Nat.mul_comm] at h3
    exact ⟨(a - dst) / n, by rw [Nat.div_lt_iff_lt_mul hn]; omega, (a - dst) % n, Nat.mod_lt _ hn, by omega⟩
  · rintro ⟨j, hj, i, hi, rfl⟩
    have := slot_lt hj hi
    omega

theorem unpackSerial_writes {w src dst m : Nat} {e : Engine} (hn : 0 < vpw w)
    (hd : ∀ a, src ≤ a → a < src + m → ¬ (dst ≤ a ∧ a < dst + m * vpw w)) :
    Writes e.mem (unpackSerial w src dst m e).mem (fun a => dst ≤ a ∧ a < dst + m * vpw w)
      (unpackOut w src dst e.mem) := by
  have key := Writes.loopMem (n := m) (body := unpackWord w src dst) (e := e)
    (S := fun j a => ∃ i, i < vpw w ∧ a = dst + j * vpw w + i) (F := unpackOut w src dst e.mem) fun j hj e' he' => by
      unfold unpackWord
      refine Writes.loopMem (S := fun i a => a = dst + j * vpw w + i) fun i hi e'' _ => ?_
      have hr : e'.read (src + j) = e.mem.read (src + j) := by
        refine he'.read_miss ?_
        rintro ⟨y, hy, i', hi', heq⟩
        have := slot_lt (show y < m by omega) hi'
        exact hd (src + j) (by omega) (by omega) ⟨by omega, by omega⟩
      rw [hr, ← unpackOut_at w src dst e.mem hi]
      exact Writes.single _ _
  exact key.congr (fun a => slot_addresses hn a) (fun _ _ => rfl)

theorem unpackLanes_writes {L w src dst m : Nat} {e : Engine} (hn : 0 < vpw w) (hm : m % L = 0)
    (hd : ∀ a, src ≤ a → a < src + m → ¬ (dst ≤ a ∧ a < dst + m * vpw w)) :
    Writes e.mem (unpackLanes L w src dst m e).mem (fun a => dst ≤ a ∧ a < dst + m * vpw w)
      (unpackOut w src dst e.mem) := by
  have key := Writes.loopMem (n := m / L) (body := unpackGroup L w src dst) (e := e)
    (S := fun g a => ∃ t, t < vpw w ∧ ∃ l, l < L ∧ a = dst + (g * L + l) * vpw w + t)
    (F := unpackOut w src dst e.mem) fun g hg e' he' => by
      unfold unpackGroup
      refine (Writes.loop (e := e'.setV (lanes L fun l => e'.read (src + (g * L + l))))
        (S := fun t a => ∃ l, l < L ∧ a = dst + (g * L + l) * vpw w + t)
        (fun e'' => e''.regs.v = lanes L fun l => e'.read (src + (g * L + l))) rfl rfl
        fun t ht e'' hv _ => ?_).2
      obtain ⟨h1, h2⟩ := Writes.storeLanes (e := e'') (F := unpackOut w src dst e.mem) (L := L)
        (addr := fun l => dst + (g * L + l) * vpw w + t)
        (xs := lanes L fun l => slot w (lane e''.regs.v l) t) rfl fun l hl => by
          have hr : e'.read (src + (g * L + l)) = e.mem.read (src + (g * L + l)) := by
            refine he'.read_miss ?_
            rintro ⟨g', hg', t', ht', l', hl', heq⟩
            have h1 := group_lt hm hg hl
            have h2 := slot_lt (group_lt hm (show g' < m / L by omega) hl') ht'
            exact hd (src + (g * L + l)) (by omega) (by omega) ⟨by omega, by omega⟩
          rw [lane_lanes _ hl, hv, lane_lanes _ hl, hr, unpackOut_at w src dst e.mem ht]
      exact ⟨by rw [h1, hv], h2⟩
  refine key.congr (fun a => ?_) (fun _ _ => rfl)
  rw [slot_addresses hn]
  constructor
  · rintro ⟨j, hj, i, hi, rfl⟩
    obtain ⟨h1, h2, h3⟩ := group_of_lt hm hj
    exact ⟨_, h1, i, hi, _, h2, by rw [h3]⟩
  · rintro ⟨g, hg, t, ht, l, hl, rfl⟩
    exact ⟨_, group_lt hm hg hl, t, ht, rfl⟩

/-! ## COLLAPSE -/

/-- Result of COLLAPSE at address `a` (R139). -/
def collapseOut (k src dst n : Nat) (m : Memory) (a : Nat) : Word :=
  orUpTo k fun j => shl32 (m.read (src + j * n + (a - dst))) (psh k j)

theorem collapseIndex_writes {k : Nat} (hk : 0 < k) (src dst n i : Nat) (e : Engine) :
    Writes e.mem (collapseIndex k src dst n i e).mem (fun a => a = dst + i) (collapseOut k src dst n e.mem) := by
  have h := orInto_loop (k - 1) (fun j => src + (j + 1) * n + i) (fun j => psh k (j + 1))
    (e.setAcc (shl32 (e.read (src + i)) (psh k 0)))
  have hv : (forUpTo (k - 1) (fun j e => e.orInto (src + (j + 1) * n + i) (psh k (j + 1)))
      (e.setAcc (shl32 (e.read (src + i)) (psh k 0)))).regs.acc = collapseOut k src dst n e.mem (dst + i) := by
    obtain ⟨k, rfl⟩ : ∃ k', k = k' + 1 := ⟨k - 1, by omega⟩
    rw [h.2, collapseOut, orUpTo_succ_left]
    simp
  simp only [collapseIndex, Engine.write_mem, h.1, hv, Engine.setAcc_mem]
  exact Writes.single _ _

/-- The write of index `y < i` lands on no word that index `i` reads (R140, R51). -/
theorem collapse_reads_kept {k src dst n : Nat} (hd : (∀ a, src ≤ a → a < src + k * n → ¬ (dst ≤ a ∧ a < dst + n)) ∨
    dst = src) {j i y : Nat} (hj : j < k) (hi : i < n) (hy : y < i) : src + j * n + i ≠ dst + y := by
  intro heq
  have := slot_lt hj hi
  rcases hd with hd | rfl
  · exact hd (dst + y) (by omega) (by omega) ⟨by omega, by omega⟩
  · omega

theorem collapseSerial_writes {k src dst n : Nat} {e : Engine} (hk : 0 < k)
    (hd : (∀ a, src ≤ a → a < src + k * n → ¬ (dst ≤ a ∧ a < dst + n)) ∨ dst = src) :
    Writes e.mem (collapseSerial k src dst n e).mem (fun a => dst ≤ a ∧ a < dst + n)
      (collapseOut k src dst n e.mem) := by
  have key := Writes.loopMem (n := n) (body := collapseIndex k src dst n) (e := e) (S := fun i a => a = dst + i)
    (F := collapseOut k src dst n e.mem) fun i hi e' he' => by
      refine (collapseIndex_writes hk src dst n i e').congr (fun _ => Iff.rfl) fun a ha => ?_
      subst ha
      refine orUpTo_congr fun j hj => ?_
      rw [he'.read_miss]
      rintro ⟨y, hy, heq⟩
      rw [Nat.add_sub_cancel_left] at heq
      exact collapse_reads_kept hd hj hi hy heq
  refine key.congr (fun a => ?_) (fun _ _ => rfl)
  constructor
  · rintro ⟨h1, h2⟩; exact ⟨a - dst, by omega, by omega⟩
  · rintro ⟨y, hy, rfl⟩; exact ⟨by omega, by omega⟩

/-- COLLAPSE.V, the loads of a group: `A` ends with the merged words, the memory is untouched. -/
theorem collapsePlanes_acc (L k src n g : Nat) (e : Engine) (K : Nat) :
    let e0 := e.setA (lanes L fun l => shl32 (e.read (src + (g * L + l))) (psh k 0))
    let e1 := forUpTo K (fun j e => collapsePlane L k src n g (j + 1) e) e0
    e1.mem = e.mem ∧ ∀ l, l < L → lane e1.regs.a l =
      orUpTo (K + 1) fun j => shl32 (e.mem.read (src + j * n + (g * L + l))) (psh k j) := by
  intro e0 e1
  induction K with
  | zero =>
    refine ⟨rfl, fun l hl => ?_⟩
    simp only [e1, e0, forUpTo, Engine.setA_a, lane_lanes _ hl, orUpTo]
    simp
  | succ K ih =>
    obtain ⟨h1, h2⟩ := ih
    refine ⟨h1, fun l hl => ?_⟩
    simp only [e1, forUpTo]
    rw [collapsePlane, Engine.setA_a, lane_lanes _ hl, Engine.setT_a, h2 l hl, Engine.setT_t, lane_lanes _ hl,
      Engine.read_def, h1]
    rfl

theorem collapseLanes_writes {L k src dst n : Nat} {e : Engine} (hk : 0 < k) (hm : n % L = 0)
    (hd : (∀ a, src ≤ a → a < src + k * n → ¬ (dst ≤ a ∧ a < dst + n)) ∨ dst = src) :
    Writes e.mem (collapseLanes L k src dst n e).mem (fun a => dst ≤ a ∧ a < dst + n)
      (collapseOut k src dst n e.mem) := by
  have key := Writes.loopMem (n := n / L) (body := collapseGroup L k src dst n) (e := e)
    (S := fun g a => ∃ l, l < L ∧ a = dst + (g * L + l)) (F := collapseOut k src dst n e.mem) fun g hg e' he' => by
      unfold collapseGroup
      obtain ⟨h1, h2⟩ := collapsePlanes_acc L k src n g e' (k - 1)
      refine (Writes.storeLanes h1 fun l hl => ?_).2
      rw [h2 l hl, collapseOut, Nat.sub_add_cancel hk]
      refine orUpTo_congr fun j hj => ?_
      rw [Nat.add_sub_cancel_left, he'.read_miss]
      rintro ⟨g', hg', l', hl', heq⟩
      have := slot_lt hg' hl'
      exact collapse_reads_kept hd hj (group_lt hm hg hl) (y := g' * L + l') (by omega) heq
  exact key.congr (fun a => group_addresses hm a) (fun _ _ => rfl)

/-! ## EXPAND -/

/-- Result of EXPAND at address `a` (R139). -/
def expandOut (k src dst n : Nat) (m : Memory) (a : Nat) : Word :=
  planeOf k (m.read (src + (a - dst) % n)) ((a - dst) / n)

theorem expandOut_at (k src dst : Nat) (m : Memory) {n j i : Nat} (hi : i < n) :
    expandOut k src dst n m (dst + j * n + i) = planeOf k (m.read (src + i)) j := by
  have e1 : dst + j * n + i - dst = i + n * j := by rw [Nat.mul_comm]; omega
  rw [expandOut, e1, Nat.add_mul_div_left _ _ (by omega), Nat.add_mul_mod_self_left, Nat.div_eq_of_lt hi,
    Nat.mod_eq_of_lt hi, Nat.zero_add]

/-- The writes of index `y < i` land on no word that index `i` reads (R141, R51). -/
theorem expand_reads_kept {k src dst n : Nat} (hd : (∀ a, src ≤ a → a < src + n → ¬ (dst ≤ a ∧ a < dst + k * n)) ∨
    dst = src) {j i y : Nat} (hj : j < k) (hi : i < n) (hy : y < i) : src + i ≠ dst + j * n + y := by
  intro heq
  have := slot_lt hj (show y < n by omega)
  rcases hd with hd | rfl
  · exact hd (src + i) (by omega) (by omega) ⟨by omega, by omega⟩
  · rcases Nat.eq_zero_or_pos j with rfl | hpos
    · omega
    · have := Nat.le_mul_of_pos_left n hpos
      omega

theorem expand_addresses {n k dst : Nat} (a : Nat) :
    (dst ≤ a ∧ a < dst + k * n) ↔ ∃ i, i < n ∧ ∃ j, j < k ∧ a = dst + j * n + i := by
  rcases Nat.eq_zero_or_pos n with rfl | hn
  · simp
  · rw [slot_addresses hn]
    exact ⟨fun ⟨j, hj, i, hi, h⟩ => ⟨i, hi, j, hj, h⟩, fun ⟨i, hi, j, hj, h⟩ => ⟨j, hj, i, hi, h⟩⟩

theorem expandSerial_writes {k src dst n : Nat} {e : Engine}
    (hd : (∀ a, src ≤ a → a < src + n → ¬ (dst ≤ a ∧ a < dst + k * n)) ∨ dst = src) :
    Writes e.mem (expandSerial k src dst n e).mem (fun a => dst ≤ a ∧ a < dst + k * n)
      (expandOut k src dst n e.mem) := by
  have key := Writes.loopMem (n := n) (body := expandIndex k src dst n) (e := e)
    (S := fun i a => ∃ j, j < k ∧ a = dst + j * n + i) (F := expandOut k src dst n e.mem) fun i hi e' he' => by
      unfold expandIndex
      refine Writes.loopMem (S := fun j a => a = dst + j * n + i) fun j hj e'' _ => ?_
      have hr : e'.read (src + i) = e.mem.read (src + i) := by
        refine he'.read_miss ?_
        rintro ⟨y, hy, j', hj', heq⟩
        exact expand_reads_kept hd hj' hi hy heq
      rw [hr, ← expandOut_at k src dst e.mem hi]
      exact Writes.single _ _
  exact key.congr (fun a => expand_addresses a) (fun _ _ => rfl)

theorem expandLanes_writes {L k src dst n : Nat} {e : Engine} (hm : n % L = 0)
    (hd : (∀ a, src ≤ a → a < src + n → ¬ (dst ≤ a ∧ a < dst + k * n)) ∨ dst = src) :
    Writes e.mem (expandLanes L k src dst n e).mem (fun a => dst ≤ a ∧ a < dst + k * n)
      (expandOut k src dst n e.mem) := by
  have key := Writes.loopMem (n := n / L) (body := expandGroup L k src dst n) (e := e)
    (S := fun g a => ∃ j, j < k ∧ ∃ l, l < L ∧ a = dst + j * n + (g * L + l))
    (F := expandOut k src dst n e.mem) fun g hg e' he' => by
      unfold expandGroup
      refine (Writes.loop (e := e'.setV (lanes L fun l => e'.read (src + (g * L + l))))
        (S := fun j a => ∃ l, l < L ∧ a = dst + j * n + (g * L + l))
        (fun e'' => e''.regs.v = lanes L fun l => e'.read (src + (g * L + l))) rfl rfl
        fun j hj e'' hv _ => ?_).2
      obtain ⟨h1, h2⟩ := Writes.storeLanes (e := e'') (F := expandOut k src dst n e.mem) (L := L)
        (addr := fun l => dst + j * n + (g * L + l))
        (xs := lanes L fun l => planeOf k (lane e''.regs.v l) j) rfl fun l hl => by
          have hr : e'.read (src + (g * L + l)) = e.mem.read (src + (g * L + l)) := by
            refine he'.read_miss ?_
            rintro ⟨g', hg', j', hj', l', hl', heq⟩
            have := slot_lt hg' hl'
            exact expand_reads_kept hd hj' (group_lt hm hg hl) (y := g' * L + l') (by omega) heq
          rw [lane_lanes _ hl, hv, lane_lanes _ hl, hr, expandOut_at k src dst e.mem (group_lt hm hg hl)]
      exact ⟨by rw [h1, hv], h2⟩
  refine key.congr (fun a => ?_) (fun _ _ => rfl)
  rw [expand_addresses]
  constructor
  · rintro ⟨i, hi, j, hj, rfl⟩
    obtain ⟨h1, h2, h3⟩ := group_of_lt hm hi
    exact ⟨_, h1, j, hj, _, h2, by rw [h3]⟩
  · rintro ⟨g, hg, j, hj, l, hl, rfl⟩
    exact ⟨_, group_lt hm hg hl, j, hj, rfl⟩

end Sys2Proof.Machine
end

