-- ==== Sys2Proof/Laws/Command.lean ====
section
/-! SUPPORT. What a command can do, said once: `exec` is the command's datapath inside its domain and a refusal outside
it, and the datapath writes exactly `W(c)` with the command's result. The domain as computed is the domain as the spec
words it. -/

namespace Sys2Proof.Machine

open Sys2Proof.Safety

/-! ## Footprints -/

theorem disjoint_iff (f g : Footprint) : f.Disjoint g ↔ Apart f g := by
  unfold Apart
  constructor
  · rintro h a ⟨h1, h2⟩ ⟨h3, h4⟩
    rcases h with h | h | h | h <;> omega
  · intro h
    by_contra hc
    simp only [not_or] at hc
    obtain ⟨h1, h2, h3, h4⟩ := hc
    rcases Nat.le_total f.base g.base with hl | hl
    · exact h g.base ⟨hl, by omega⟩ ⟨Nat.le_refl _, by omega⟩
    · exact h f.base ⟨Nat.le_refl _, by omega⟩ ⟨hl, by omega⟩

theorem within_iff (f : Footprint) (c : Config) : f.Within c.memWords ↔ InMemory c f := by
  unfold InMemory
  constructor
  · rintro h a ⟨h1, h2⟩
    rcases h with h | h <;> omega
  · intro h
    by_cases hl : f.len = 0
    · exact .inl hl
    · exact .inr (by have := h (f.base + f.len - 1) ⟨by omega, by omega⟩; omega)

theorem Footprint.disjoint_symm {f g : Footprint} (h : f.Disjoint g) : g.Disjoint f := by
  rcases h with h | h | h | h
  · exact .inr (.inl h)
  · exact .inl h
  · exact .inr (.inr (.inr h))
  · exact .inr (.inr (.inl h))

theorem Independent.symm {i j : Instr} (h : Independent i j) : Independent j i :=
  ⟨h.2.2.1, h.2.2.2, h.1, h.2.1⟩

/-! ## Violations -/

theorem report_nil (b : Bool) (v : Violation) : report b v = [] ↔ b = false := by cases b <;> simp [report]

theorem mem_report (b : Bool) (v u : Violation) : u ∈ report b v ↔ b = true ∧ u = v := by
  cases b <;> simp [report]

theorem staticViolations_nil (c : Config) (i : Instr) : staticViolations c i = [] ↔
    i.WellFormed ∧ widthSupported c (operands i) = true ∧ planeLengthSupported c (operands i) = true ∧
    lengthFits (operands i) = true ∧ ((operands i).vector = true → laneCondition c.lanes (operands i) = true) ∧
    (reads i).Within c.memWords ∧ (writes i).Within c.memWords ∧ overlapAdmitted (operands i) = true ∧
    onPlainMemory c (operands i) = true := by
  simp only [staticViolations, List.append_eq_nil_iff, report_nil, Bool.not_eq_false', Bool.and_eq_true,
    decide_eq_true_eq, Bool.and_eq_false_iff, reads, writes, and_assoc]
  cases (operands i).vector <;> simp

theorem violations_nil (c : Config) (i : Instr) (m : Memory) :
    violations c i m = [] ↔ staticViolations c i = [] ∧ dataViolations i m = [] := by
  unfold violations
  cases h : staticViolations c i <;> simp

theorem command_next {s t : State} {i : Instr} {f : Engine → Engine} :
    s.command i f = .next t ↔ violations s.cfg i s.mem = [] ∧ t = s.commit (f s.engine) := by
  unfold State.command
  cases h : violations s.cfg i s.mem with
  | nil => simp [eq_comm]
  | cons v vs => simp

theorem command_refused {s : State} {i : Instr} {f : Engine → Engine} {r : Refusal} :
    s.command i f = .refused r ↔ violations s.cfg i s.mem ≠ [] ∧ r = .precondition (violations s.cfg i s.mem) := by
  unfold State.command
  cases h : violations s.cfg i s.mem with
  | nil => simp
  | cons v vs => simp [eq_comm]

theorem command_not_fault {s : State} {i : Instr} {f : Engine → Engine} {r : Fault} : s.command i f ≠ .fault r := by
  unfold State.command
  cases violations s.cfg i s.mem <;> simp

/-! ## The datapath of a command -/

/-- The datapath each meaning runs. -/
def datapathOf (c : Config) : Instr → Engine → Engine
  | .packS w s d n => packSerial w s.toNat d.toNat (n.toNat / vpw w)
  | .packV w s d n => packLanes c.lanes w s.toNat d.toNat (n.toNat / vpw w)
  | .unpackS w s d n => unpackSerial w s.toNat d.toNat n.toNat
  | .unpackV w s d n => unpackLanes c.lanes w s.toNat d.toNat n.toNat
  | .collapse16S s d n => collapseSerial 2 s.toNat d.toNat n.toNat
  | .collapse16V s d n => collapseLanes c.lanes 2 s.toNat d.toNat n.toNat
  | .collapse8S s d n => collapseSerial 4 s.toNat d.toNat n.toNat
  | .collapse8V s d n => collapseLanes c.lanes 4 s.toNat d.toNat n.toNat
  | .expand16S s d n => expandSerial 2 s.toNat d.toNat n.toNat
  | .expand16V s d n => expandLanes c.lanes 2 s.toNat d.toNat n.toNat
  | .expand8S s d n => expandSerial 4 s.toNat d.toNat n.toNat
  | .expand8V s d n => expandLanes c.lanes 4 s.toNat d.toNat n.toNat

/-- The result of a command at address `a` of `W(c)`, as a function of the initial memory (R52 `Out_c`). -/
def resultAt (o : Operands) (m : Memory) (a : Nat) : Word :=
  match o.op with
  | .pack w => packOut w o.src o.dst m a
  | .unpack w => unpackOut w o.src o.dst m a
  | .collapse k => collapseOut k o.src o.dst o.len m a
  | .expand k => expandOut k o.src o.dst o.len m a

theorem exec_eq (i : Instr) (s : State) : exec i s = s.command i (datapathOf s.cfg i) := by cases i <;> rfl

theorem exec_next {i : Instr} {s t : State} : exec i s = .next t ↔
    violations s.cfg i s.mem = [] ∧ t = s.commit (datapathOf s.cfg i s.engine) := by
  rw [exec_eq, command_next]

theorem vpw_pos {w : Nat} (h : LegalWidth w) : 0 < vpw w := Nat.div_pos h.2 h.1

theorem not_in_both {f g : Footprint} (h : f.Disjoint g) (a : Nat) (h1 : f.base ≤ a) (h2 : a < f.base + f.len) :
    ¬ (g.base ≤ a ∧ a < g.base + g.len) :=
  (disjoint_iff f g).1 h a ⟨h1, h2⟩

/-- A command inside its domain by form writes exactly `W(c)`, each word its result (R52, R139, R101, R103). -/
theorem datapathOf_writes {c : Config} {i : Instr} (h : staticViolations c i = []) (e : Engine) :
    Writes e.mem (datapathOf c i e).mem (writes i).Has (resultAt (operands i) e.mem) := by
  rw [staticViolations_nil] at h
  obtain ⟨hw, -, -, hl, hv, -, -, ho, -⟩ := h
  have pack : ∀ {w src dst N : Nat}, Footprint.Disjoint ⟨src, N⟩ ⟨dst, N / vpw w⟩ →
      ∀ a, src ≤ a → a < src + N / vpw w * vpw w → ¬ (dst ≤ a ∧ a < dst + N / vpw w) := by
    intro w src dst N hd a h1 h2
    have := Nat.div_mul_le_self N (vpw w)
    exact not_in_both hd a h1 (show a < src + N by omega)
  cases i with
  | packS w s d n =>
    have ho := of_decide_eq_true ho
    exact packSerial_writes (pack ho)
  | packV w s d n =>
    have ho := of_decide_eq_true ho
    have hv := of_decide_eq_true (hv rfl)
    have hw : LegalWidth w := of_decide_eq_true hw
    exact packLanes_writes (vpw_pos hw) hv.2 (pack ho)
  | unpackS w s d n =>
    have ho := of_decide_eq_true ho
    have hw : LegalWidth w := of_decide_eq_true hw
    exact unpackSerial_writes (vpw_pos hw) (not_in_both ho)
  | unpackV w s d n =>
    have ho := of_decide_eq_true ho
    have hv := of_decide_eq_true (hv rfl)
    have hw : LegalWidth w := of_decide_eq_true hw
    exact unpackLanes_writes (vpw_pos hw) hv.2 (not_in_both ho)
  | collapse16S s d n =>
    have ho := of_decide_eq_true ho
    exact collapseSerial_writes (by omega) (ho.imp_left not_in_both)
  | collapse16V s d n =>
    have ho := of_decide_eq_true ho
    have hv := of_decide_eq_true (hv rfl)
    exact collapseLanes_writes (by omega) hv (ho.imp_left not_in_both)
  | collapse8S s d n =>
    have ho := of_decide_eq_true ho
    exact collapseSerial_writes (by omega) (ho.imp_left not_in_both)
  | collapse8V s d n =>
    have ho := of_decide_eq_true ho
    have hv := of_decide_eq_true (hv rfl)
    exact collapseLanes_writes (by omega) hv (ho.imp_left not_in_both)
  | expand16S s d n =>
    have ho := of_decide_eq_true ho
    exact expandSerial_writes (ho.imp_left not_in_both)
  | expand16V s d n =>
    have ho := of_decide_eq_true ho
    have hv := of_decide_eq_true (hv rfl)
    exact expandLanes_writes hv (ho.imp_left not_in_both)
  | expand8S s d n =>
    have ho := of_decide_eq_true ho
    exact expandSerial_writes (ho.imp_left not_in_both)
  | expand8V s d n =>
    have ho := of_decide_eq_true ho
    have hv := of_decide_eq_true (hv rfl)
    exact expandLanes_writes hv (ho.imp_left not_in_both)

/-! ## The canonical form of the memory -/

theorem forUpTo_keeps {α : Type} {P : α → Prop} {n : Nat} {body : Nat → α → α} {x : α} (h : P x)
    (hb : ∀ i y, P y → P (body i y)) : P (forUpTo n body x) := by
  induction n with
  | zero => exact h
  | succ n ih => exact hb n _ ih

/-- The addresses listed rise strictly. -/
def Memory.Sorted (m : Memory) : Prop := ∃ b, Memory.wf b m = true

theorem Memory.wfFrom_bound {b b' lo : Nat} {m : Memory} (h : Memory.wfFrom b lo m = true) (hb : b ≤ b') :
    Memory.wfFrom b' lo m = true := by
  induction m generalizing lo with
  | nil => rfl
  | cons p m ih =>
    obtain ⟨a, x⟩ := p
    simp only [Memory.wfFrom, Bool.and_eq_true, decide_eq_true_eq] at h ⊢
    exact ⟨⟨h.1.1, by omega⟩, ih h.2⟩

theorem Memory.sorted_write {m : Memory} (h : m.Sorted) (a : Nat) (x : Word) : (m.write a x).Sorted := by
  obtain ⟨b, hb⟩ := h
  exact ⟨max b (a + 1), Memory.wf_write x (Memory.wfFrom_bound hb (Nat.le_max_left _ _)) (by omega)⟩

theorem Memory.wfFrom_of_listed {b b' lo : Nat} {m : Memory} (h : Memory.wfFrom b lo m = true)
    (hl : ∀ a, m.get? a ≠ none → a < b') : Memory.wfFrom b' lo m = true := by
  induction m generalizing lo with
  | nil => rfl
  | cons p m ih =>
    obtain ⟨a, x⟩ := p
    simp only [Memory.wfFrom, Bool.and_eq_true, decide_eq_true_eq] at h ⊢
    refine ⟨⟨h.1.1, hl a (by simp [Memory.get?])⟩, ih h.2 fun a' ha' => hl a' ?_⟩
    by_cases he : a' = a
    · simp [Memory.get?, he]
    · simpa [Memory.get?, he] using ha'

theorem Memory.listed_lt {b lo : Nat} {m : Memory} (h : Memory.wfFrom b lo m = true) {a : Nat}
    (ha : m.get? a ≠ none) : a < b := by
  induction m generalizing lo with
  | nil => exact absurd rfl ha
  | cons p m ih =>
    obtain ⟨c, x⟩ := p
    simp only [Memory.wfFrom, Bool.and_eq_true, decide_eq_true_eq] at h
    by_cases he : a = c
    · omega
    · exact ih h.2 (by simpa [Memory.get?, he] using ha)

theorem Engine.sorted_write {e : Engine} (h : e.mem.Sorted) (a : Nat) (x : Word) : (e.write a x).mem.Sorted :=
  Memory.sorted_write h a x

theorem Engine.sorted_storeLanes {e : Engine} (h : e.mem.Sorted) (L : Nat) (addr : Nat → Nat) (xs : List Word) :
    (e.storeLanes L addr xs).mem.Sorted :=
  forUpTo_keeps (P := fun e : Engine => e.mem.Sorted) h fun _ _ h => Engine.sorted_write h _ _

/-- Every datapath keeps the addresses rising. -/
theorem datapathOf_sorted (c : Config) (i : Instr) (e : Engine) (h : e.mem.Sorted) :
    (datapathOf c i e).mem.Sorted := by
  have packS : ∀ w s d n, (packSerial w s d n e).mem.Sorted := fun w s d n =>
    forUpTo_keeps (P := fun e : Engine => e.mem.Sorted) h fun j e' h' => by
      refine Engine.sorted_write ?_ _ _
      refine forUpTo_keeps (P := fun e : Engine => e.mem.Sorted) ?_ fun _ _ h => ?_
      · exact h'
      · exact h
  have packV : ∀ w s d n, (packLanes c.lanes w s d n e).mem.Sorted := fun w s d n =>
    forUpTo_keeps (P := fun e : Engine => e.mem.Sorted) h fun g e' h' =>
      forUpTo_keeps (P := fun e : Engine => e.mem.Sorted) h' fun t e'' h'' => by
        unfold packLevel
        by_cases ht : t = 0
        · simp only [ht, if_true]
          refine Engine.sorted_storeLanes ?_ _ _ _
          exact h''
        · simp only [ht, if_false]
          refine Engine.sorted_storeLanes ?_ _ _ _
          exact h''
  have unpackS : ∀ w s d n, (unpackSerial w s d n e).mem.Sorted := fun w s d n =>
    forUpTo_keeps (P := fun e : Engine => e.mem.Sorted) h fun j e' h' =>
      forUpTo_keeps (P := fun e : Engine => e.mem.Sorted) h' fun _ _ h => Engine.sorted_write h _ _
  have unpackV : ∀ w s d n, (unpackLanes c.lanes w s d n e).mem.Sorted := fun w s d n =>
    forUpTo_keeps (P := fun e : Engine => e.mem.Sorted) h fun g e' h' =>
      forUpTo_keeps (P := fun e : Engine => e.mem.Sorted) (x := e'.setV _) h' fun _ _ h => Engine.sorted_storeLanes h _ _ _
  have colS : ∀ k s d n, (collapseSerial k s d n e).mem.Sorted := fun k s d n =>
    forUpTo_keeps (P := fun e : Engine => e.mem.Sorted) h fun j e' h' => by
      refine Engine.sorted_write ?_ _ _
      refine forUpTo_keeps (P := fun e : Engine => e.mem.Sorted) ?_ fun _ _ h => ?_
      · exact h'
      · exact h
  have colV : ∀ k s d n, (collapseLanes c.lanes k s d n e).mem.Sorted := fun k s d n =>
    forUpTo_keeps (P := fun e : Engine => e.mem.Sorted) h fun j e' h' => by
      refine Engine.sorted_storeLanes ?_ _ _ _
      refine forUpTo_keeps (P := fun e : Engine => e.mem.Sorted) ?_ fun _ _ h => ?_
      · exact h'
      · exact h
  have expS : ∀ k s d n, (expandSerial k s d n e).mem.Sorted := fun k s d n =>
    forUpTo_keeps (P := fun e : Engine => e.mem.Sorted) h fun j e' h' =>
      forUpTo_keeps (P := fun e : Engine => e.mem.Sorted) h' fun _ _ h => Engine.sorted_write h _ _
  have expV : ∀ k s d n, (expandLanes c.lanes k s d n e).mem.Sorted := fun k s d n =>
    forUpTo_keeps (P := fun e : Engine => e.mem.Sorted) h fun g e' h' =>
      forUpTo_keeps (P := fun e : Engine => e.mem.Sorted) (x := e'.setV _) h' fun _ _ h => Engine.sorted_storeLanes h _ _ _
  cases i with
  | packS => exact packS _ _ _ _
  | packV => exact packV _ _ _ _
  | unpackS => exact unpackS _ _ _ _
  | unpackV => exact unpackV _ _ _ _
  | collapse16S => exact colS _ _ _ _
  | collapse16V => exact colV _ _ _ _
  | collapse8S => exact colS _ _ _ _
  | collapse8V => exact colV _ _ _ _
  | expand16S => exact expS _ _ _ _
  | expand16V => exact expV _ _ _ _
  | expand8S => exact expS _ _ _ _
  | expand8V => exact expV _ _ _ _

/-- A command inside its domain keeps the canonical form of the memory. -/
theorem datapathOf_wf {c : Config} {i : Instr} (h : staticViolations c i = []) (e : Engine)
    (hm : Memory.wf c.memWords e.mem = true) : Memory.wf c.memWords (datapathOf c i e).mem = true := by
  obtain ⟨b, hb⟩ := datapathOf_sorted c i e ⟨_, hm⟩
  refine Memory.wfFrom_of_listed hb fun a ha => ?_
  have hw := datapathOf_writes h e
  by_cases hin : (writes i).Has a
  · exact (within_iff _ _).1 ((staticViolations_nil c i).1 h).2.2.2.2.2.2.1 a hin
  · exact Memory.listed_lt hm (by rwa [hw.miss a hin] at ha)

/-- The memory after a transition, word by word (R52). -/
theorem exec_mem {i : Instr} {s t : State} (h : exec i s = .next t) :
    Writes s.mem t.mem (writes i).Has (resultAt (operands i) s.mem) := by
  obtain ⟨hv, rfl⟩ := exec_next.1 h
  exact datapathOf_writes ((violations_nil _ _ _).1 hv).1 s.engine

end Sys2Proof.Machine
end

