-- ==== Sys2Proof/Laws/Domain.lean ====
section
/-! SUPPORT. The domain as the model computes it (`violations`) is the domain as the spec words it (`InDomain`). -/

namespace Sys2Proof.Machine

open Sys2Proof.Safety

theorem onPlainMemory_iff (c : Config) (o : Operands) :
    onPlainMemory c o = true ↔ Plain c (readsOf o) ∧ Plain c (writesOf o) := by
  rw [onPlainMemory, List.all_eq_true]
  constructor
  · intro h
    have h' := fun p hp => of_decide_eq_true (h p hp)
    exact ⟨fun a ha p hp => (disjoint_iff _ _).1 (h' p hp).1 a ha, fun a ha p hp => (disjoint_iff _ _).1 (h' p hp).2 a ha⟩
  · intro h p hp
    exact decide_eq_true ⟨(disjoint_iff _ _).2 fun a ha => h.1 a ha p hp, (disjoint_iff _ _).2 fun a ha => h.2 a ha p hp⟩

theorem planeN_all_iff (c : Config) (k n : Nat) :
    ((Config.planeN c k).all (· == n)) = true ↔ PlaneLength c k n := by
  unfold PlaneLength
  cases Config.planeN c k with
  | none => simp
  | some n' => simpa only [Option.all_some, beq_iff_eq, Option.some.injEq, forall_eq'] using eq_comm

theorem allBelow_planes (m : Memory) (k src n b : Nat) : m.AllBelow ⟨src, k * n⟩ b ↔
    ∀ j i, j < k → i < n → (m.read (src + j * n + i)).toNat < 2 ^ b := by
  unfold Memory.AllBelow
  constructor
  · intro h j i hj hi
    have := h (j * n + i) (slot_lt hj hi)
    rwa [← Nat.add_assoc] at this
  · intro h t ht
    have hn : 0 < n := by
      rcases Nat.eq_zero_or_pos n with rfl | hn
      · simp at ht
      · exact hn
    have h1 : t / n < k := (Nat.div_lt_iff_lt_mul hn).2 ht
    have h2 := h (t / n) (t % n) h1 (Nat.mod_lt _ hn)
    have h3 := Nat.div_add_mod t n
    rw [Nat.mul_comm] at h3
    rwa [Nat.add_assoc, h3] at h2

section
variable {c : Config} {m : Memory} {w k : Nat} {s d n : Nat}

theorem packDomain_iff : PackDomain c m w s d n ↔
    LegalWidth w ∧ c.widths.contains w = true ∧ n % vpw w = 0 ∧ Footprint.Within ⟨s, n⟩ c.memWords ∧
    Footprint.Within ⟨d, n / vpw w⟩ c.memWords ∧ Footprint.Disjoint ⟨s, n⟩ ⟨d, n / vpw w⟩ ∧
    (Plain c ⟨s, n⟩ ∧ Plain c ⟨d, n / vpw w⟩) ∧ m.AllBelow ⟨s, n⟩ w := by
  rw [within_iff, within_iff, disjoint_iff, List.contains_iff_mem]
  exact ⟨fun h => ⟨h.width.1, h.width.2, h.multiple, h.bounds.1, h.bounds.2, h.apart, h.plain, h.values⟩,
    fun h => ⟨⟨h.1, h.2.1⟩, h.2.2.1, h.2.2.2.2.2.2.2, ⟨h.2.2.2.1, h.2.2.2.2.1⟩, h.2.2.2.2.2.1, h.2.2.2.2.2.2.1⟩⟩

theorem unpackDomain_iff : UnpackDomain c w s d n ↔
    LegalWidth w ∧ c.widths.contains w = true ∧ Footprint.Within ⟨s, n⟩ c.memWords ∧
    Footprint.Within ⟨d, n * vpw w⟩ c.memWords ∧ Footprint.Disjoint ⟨s, n⟩ ⟨d, n * vpw w⟩ ∧
    (Plain c ⟨s, n⟩ ∧ Plain c ⟨d, n * vpw w⟩) := by
  rw [within_iff, within_iff, disjoint_iff, List.contains_iff_mem]
  exact ⟨fun h => ⟨h.width.1, h.width.2, h.bounds.1, h.bounds.2, h.apart, h.plain⟩,
    fun h => ⟨⟨h.1, h.2.1⟩, ⟨h.2.2.1, h.2.2.2.1⟩, h.2.2.2.2.1, h.2.2.2.2.2⟩⟩

theorem collapseDomain_iff : CollapseDomain c m k s d n ↔
    ((Config.planeN c k).all (· == n)) = true ∧ Footprint.Within ⟨s, k * n⟩ c.memWords ∧
    Footprint.Within ⟨d, n⟩ c.memWords ∧ (Footprint.Disjoint ⟨s, k * n⟩ ⟨d, n⟩ ∨ d = s) ∧
    (Plain c ⟨s, k * n⟩ ∧ Plain c ⟨d, n⟩) ∧ m.AllBelow ⟨s, k * n⟩ (bpp k) := by
  rw [within_iff, within_iff, disjoint_iff, planeN_all_iff, allBelow_planes]
  exact ⟨fun h => ⟨h.length, h.bounds.1, h.bounds.2, h.apart, h.plain, h.planes⟩,
    fun h => ⟨h.2.2.2.2.2, ⟨h.2.1, h.2.2.1⟩, h.2.2.2.1, h.2.2.2.2.1, h.1⟩⟩

theorem expandDomain_iff : ExpandDomain c k s d n ↔
    ((Config.planeN c k).all (· == n)) = true ∧ Footprint.Within ⟨s, n⟩ c.memWords ∧
    Footprint.Within ⟨d, k * n⟩ c.memWords ∧ (Footprint.Disjoint ⟨s, n⟩ ⟨d, k * n⟩ ∨ d = s) ∧
    (Plain c ⟨s, n⟩ ∧ Plain c ⟨d, k * n⟩) := by
  rw [within_iff, within_iff, disjoint_iff, planeN_all_iff]
  exact ⟨fun h => ⟨h.length, h.bounds.1, h.bounds.2, h.apart, h.plain⟩,
    fun h => ⟨⟨h.2.1, h.2.2.1⟩, h.2.2.2.1, h.2.2.2.2, h.1⟩⟩

end

theorem report_not_decide (p : Prop) [Decidable p] (v : Violation) : report (!decide p) v = [] ↔ p := by
  by_cases h : p <;> simp [report, h]

section
variable {c : Config} {i : Instr} {m : Memory} {w k s d n : Nat} {v : Bool}

theorem violations_pack (ho : operands i = ⟨.pack w, v, s, d, n⟩) (hw : i.WellFormed ↔ LegalWidth w) :
    violations c i m = [] ↔ PackDomain c m w s d n ∧ (v = true → PackLanesOk c.lanes w (n / vpw w)) := by
  rw [violations_nil, staticViolations_nil, onPlainMemory_iff, packDomain_iff, dataViolations, reads, writes, ho, hw]
  simp only [report_not_decide]
  exact ⟨fun ⟨⟨h1, h2, _, h4, h5, h6, h7, h8, h9⟩, h10⟩ =>
      ⟨⟨h1, h2, of_decide_eq_true h4, h6, h7, of_decide_eq_true h8, h9, h10⟩, fun h => of_decide_eq_true (h5 h)⟩,
    fun ⟨⟨h1, h2, h4, h6, h7, h8, h9, h10⟩, h5⟩ =>
      ⟨⟨h1, h2, rfl, decide_eq_true h4, fun h => decide_eq_true (h5 h), h6, h7, decide_eq_true h8, h9⟩, h10⟩⟩

theorem violations_unpack (ho : operands i = ⟨.unpack w, v, s, d, n⟩) (hw : i.WellFormed ↔ LegalWidth w) :
    violations c i m = [] ↔ UnpackDomain c w s d n ∧ (v = true → PackLanesOk c.lanes w n) := by
  rw [violations_nil, staticViolations_nil, onPlainMemory_iff, unpackDomain_iff, dataViolations, reads, writes, ho, hw]
  exact ⟨fun ⟨⟨h1, h2, _, _, h5, h6, h7, h8, h9⟩, _⟩ =>
      ⟨⟨h1, h2, h6, h7, of_decide_eq_true h8, h9⟩, fun h => of_decide_eq_true (h5 h)⟩,
    fun ⟨⟨h1, h2, h6, h7, h8, h9⟩, h5⟩ =>
      ⟨⟨h1, h2, rfl, rfl, fun h => decide_eq_true (h5 h), h6, h7, decide_eq_true h8, h9⟩, rfl⟩⟩

theorem violations_collapse (ho : operands i = ⟨.collapse k, v, s, d, n⟩) (hw : i.WellFormed) :
    violations c i m = [] ↔ CollapseDomain c m k s d n ∧ (v = true → n % c.lanes = 0) := by
  rw [violations_nil, staticViolations_nil, onPlainMemory_iff, collapseDomain_iff, dataViolations, reads, writes, ho]
  simp only [report_not_decide]
  exact ⟨fun ⟨⟨_, _, h3, _, h5, h6, h7, h8, h9⟩, h10⟩ =>
      ⟨⟨h3, h6, h7, of_decide_eq_true h8, h9, h10⟩, fun h => of_decide_eq_true (h5 h)⟩,
    fun ⟨⟨h3, h6, h7, h8, h9, h10⟩, h5⟩ =>
      ⟨⟨hw, rfl, h3, rfl, fun h => decide_eq_true (h5 h), h6, h7, decide_eq_true h8, h9⟩, h10⟩⟩

theorem violations_expand (ho : operands i = ⟨.expand k, v, s, d, n⟩) (hw : i.WellFormed) :
    violations c i m = [] ↔ ExpandDomain c k s d n ∧ (v = true → n % c.lanes = 0) := by
  rw [violations_nil, staticViolations_nil, onPlainMemory_iff, expandDomain_iff, dataViolations, reads, writes, ho]
  exact ⟨fun ⟨⟨_, _, h3, _, h5, h6, h7, h8, h9⟩, _⟩ =>
      ⟨⟨h3, h6, h7, of_decide_eq_true h8, h9⟩, fun h => of_decide_eq_true (h5 h)⟩,
    fun ⟨⟨h3, h6, h7, h8, h9⟩, h5⟩ =>
      ⟨⟨hw, rfl, h3, rfl, fun h => decide_eq_true (h5 h), h6, h7, decide_eq_true h8, h9⟩, rfl⟩⟩

end

theorem and_serial {p q : Prop} : (p ∧ (false = true → q)) ↔ p := by simp

theorem and_vector {p q : Prop} : (p ∧ (true = true → q)) ↔ p ∧ q := by simp

theorem wellFormed_pack {w : Nat} {b : Bool} (h : b = decide (LegalWidth w)) : b = true ↔ LegalWidth w := by
  rw [h, decide_eq_true_iff]

/-- `InDomain` is computable (R163): it holds exactly when no violation is found. -/
theorem inDomain_iff (s : State) (i : Instr) : InDomain s i ↔ violations s.cfg i s.mem = [] := by
  cases i with
  | packS w a b n => rw [violations_pack (i := .packS w a b n) rfl (wellFormed_pack rfl), and_serial]; rfl
  | packV w a b n => rw [violations_pack (i := .packV w a b n) rfl (wellFormed_pack rfl), and_vector]; rfl
  | unpackS w a b n => rw [violations_unpack (i := .unpackS w a b n) rfl (wellFormed_pack rfl), and_serial]; rfl
  | unpackV w a b n => rw [violations_unpack (i := .unpackV w a b n) rfl (wellFormed_pack rfl), and_vector]; rfl
  | collapse16S a b n => rw [violations_collapse rfl rfl, and_serial]; rfl
  | collapse16V a b n => rw [violations_collapse rfl rfl, and_vector]; rfl
  | collapse8S a b n => rw [violations_collapse rfl rfl, and_serial]; rfl
  | collapse8V a b n => rw [violations_collapse rfl rfl, and_vector]; rfl
  | expand16S a b n => rw [violations_expand rfl rfl, and_serial]; rfl
  | expand16V a b n => rw [violations_expand rfl rfl, and_vector]; rfl
  | expand8S a b n => rw [violations_expand rfl rfl, and_serial]; rfl
  | expand8V a b n => rw [violations_expand rfl rfl, and_vector]; rfl

/-! ## What a command depends on: its read footprint only -/

theorem wellFormed_iff (i : Instr) : i.WellFormed ↔
    ∀ w, ((operands i).op = .pack w ∨ (operands i).op = .unpack w) → LegalWidth w := by
  cases i <;> simp [Instr.WellFormed, Instr.wellFormed, operands]

theorem vpw_pos_of {c : Config} {i : Instr} (h : staticViolations c i = []) :
    ∀ w, ((operands i).op = .pack w ∨ (operands i).op = .unpack w) → 0 < vpw w := fun w ho =>
  vpw_pos ((wellFormed_iff i).1 ((staticViolations_nil _ _).1 h).1 w ho)

/-- The source words a precondition looks at are those of `R(c)`. -/
theorem dataViolations_congr {i : Instr} {m m' : Memory} (ha : AgreeOn (reads i) m m')
    (h : dataViolations i m = []) : dataViolations i m' = [] := by
  have hb : ∀ b, Memory.AllBelow m (readsOf (operands i)) b → Memory.AllBelow m' (readsOf (operands i)) b := by
    intro b h t ht
    have := h t ht
    rwa [ha ((readsOf (operands i)).base + t) ⟨Nat.le_add_right _ _, Nat.add_lt_add_left ht _⟩] at this
  cases ho : (operands i).op <;> simp only [dataViolations, ho, report_not_decide] at h ⊢
  · exact hb _ h
  · exact hb _ h

/-- The result of a command is a function of the words of `R(c)`. -/
theorem resultAt_congr {i : Instr} {m m' : Memory}
    (hw : ∀ w, ((operands i).op = .pack w ∨ (operands i).op = .unpack w) → 0 < vpw w) (h : AgreeOn (reads i) m m')
    {a : Nat} (ha : (writes i).Has a) : resultAt (operands i) m' a = resultAt (operands i) m a := by
  unfold AgreeOn reads readsOf at h
  unfold writes writesOf at ha
  unfold resultAt
  obtain ⟨h1, h2⟩ := ha
  generalize operands i = o at *
  obtain ⟨op, v, src, dst, len⟩ := o
  cases op with
  | pack w =>
    dsimp only at *
    refine orUpTo_congr fun x hx => ?_
    have := slot_lt (j := a - dst) (nW := len / vpw w) (by omega) hx
    have h3 := Nat.div_mul_le_self len (vpw w)
    rw [h _ ⟨by dsimp only; omega, by dsimp only; omega⟩]
  | unpack w =>
    dsimp only at *
    simp only [unpackOut]
    have e1 : (a - dst) / vpw w < len := (Nat.div_lt_iff_lt_mul (hw w (.inr rfl))).2 (by omega)
    generalize (a - dst) / vpw w = q at *
    rw [h _ ⟨by dsimp only; omega, by dsimp only; omega⟩]
  | collapse k =>
    dsimp only at *
    refine orUpTo_congr fun x hx => ?_
    have := slot_lt (n := len) (i := a - dst) hx (by omega)
    rw [h _ ⟨by dsimp only; omega, by dsimp only; omega⟩]
  | expand k =>
    dsimp only at *
    simp only [expandOut]
    have hn : 0 < len := by
      rcases Nat.eq_zero_or_pos len with h | h
      · rw [h] at h2; simp at h2; omega
      · exact h
    have := Nat.mod_lt (a - dst) hn
    rw [h _ ⟨by dsimp only; omega, by dsimp only; omega⟩]

/-! ## Fields of a word -/

theorem mask_toNat {w : Nat} (h : w ≤ 32) : (mask w).toNat = 2 ^ w - 1 := by
  have : 2 ^ w ≤ 2 ^ 32 := Nat.pow_le_pow_right (by omega) h
  simp only [mask, BitVec.toNat_ofNat]
  exact Nat.mod_eq_of_lt (by omega)

theorem bitsAt_toNat (x : Word) (s b : Nat) : (bitsAt x s b).toNat = x.toNat / 2 ^ s % 2 ^ b := by
  have h1 := x.isLt
  have h2 : x.toNat / 2 ^ s ≤ x.toNat := Nat.div_le_self _ _
  have h3 := Nat.mod_le (x.toNat / 2 ^ s) (2 ^ b)
  rw [bitsAt, BitVec.toNat_ofNat, Nat.mod_eq_of_lt (by omega)]

theorem shift_mask {w : Nat} (h : w ≤ 32) (x : Word) (s : Nat) : shr32 x s &&& mask w = bitsAt x s w := by
  apply BitVec.eq_of_toNat_eq
  rw [bitsAt_toNat]
  simp only [shr32, BitVec.toNat_and, BitVec.toNat_ushiftRight, mask_toNat h, Nat.and_two_pow_sub_one_eq_mod,
    Nat.shiftRight_eq_div_pow]

end Sys2Proof.Machine
end

