-- ==== Sys2Proof/Laws/Step.lean ====
section
/-! SUPPORT. What a step can do, said once: `step_to` lists every way to a next state, with its guards. -/

namespace Sys2Proof.Machine

open Sys2Proof.Safety

/-- The moves that let an instance go on without being the host's own act: none pending, `run k`, or an ISSUE to the busy
instance, with the moves that remain. -/
inductive GoesOn (s : State) (k : Nat) : List HostMove → Prop where
  | alone : s.moves = [] → s.insts.findIdx? (·.busy) = some k → GoesOn s k []
  | told (rest : List HostMove) : s.moves = .run k :: rest → GoesOn s k rest
  | waited (d : Descriptor) (rest : List HostMove) : s.moves = .issue k d :: rest → GoesOn s k s.moves

/-- Every way a step answers a next state. -/
inductive StepTo (s : State) : State → Prop where
  | idle : s.moves = [] → s.insts.findIdx? (·.busy) = none → StepTo s s
  | hostRead (a : Nat) (rest : List HostMove) : s.moves = .read a :: rest → a < s.cfg.memWords →
      s.insts.any (·.writesAt a) = false → StepTo s { s with moves := rest }
  | hostWrite (a : Nat) (x : Word) (rest : List HostMove) : s.moves = .write a x :: rest → a < s.cfg.memWords →
      s.insts.any (·.touches a) = false → StepTo s { s with moves := rest, mem := s.mem.write a x }
  | issue (k : Nat) (x : Instance) (d : Descriptor) (i : Instr) (rest : List HostMove) :
      s.moves = .issue k d :: rest → s.insts[k]? = some x → x.busy = false → decode d = .ok i →
      violations s.cfg i s.mem = [] → s.insts.any (·.conflictsWith i) = false →
      StepTo s { s with
        moves := rest
        insts := s.insts.set k { x with busy := true, made := false, cur := d }
        issued := s.issued + 1 }
  | transition (k : Nat) (x : Instance) (i : Instr) (rest : List HostMove) : GoesOn s k rest →
      s.insts[k]? = some x → InFlight x i → x.made = false → violations s.cfg i s.mem = [] →
      StepTo s (State.commit { s with moves := rest, active := k }
        (datapathOf s.cfg i (State.engine { s with moves := rest, active := k })))
  | done (k : Nat) (x : Instance) (rest : List HostMove) : GoesOn s k rest → s.insts[k]? = some x → x.busy = true →
      x.made = true → StepTo s (State.done { s with moves := rest } k x)
  | runIdle (k : Nat) (x : Instance) (rest : List HostMove) : s.moves = .run k :: rest → s.insts[k]? = some x →
      x.busy = false → StepTo s { s with moves := rest }
  | reset (rest : List HostMove) : s.moves = .reset :: rest → s.insts.all (Instance.sound s.cfg) = true →
      StepTo s { s with
        moves := rest
        mem := (s.insts.foldl (fun p x => abandon x p) (s.mem, s.fresh)).1
        insts := s.insts.map fun _ => Instance.reset s.cfg.lanes
        fresh := (s.insts.foldl (fun p x => abandon x p) (s.mem, s.fresh)).2 }

/-- What `runInstance` answers, by the instance it finds. -/
theorem runInstance_none {s : State} {k : Nat} (h : s.insts[k]? = none) :
    s.runInstance k = .refused (.noSuchInstance k) := by simp [State.runInstance, h]

theorem runInstance_idle {s : State} {k : Nat} {x : Instance} (h : s.insts[k]? = some x) (hb : x.busy = false) :
    s.runInstance k = .next s := by simp [State.runInstance, h, hb]

theorem runInstance_done {s : State} {k : Nat} {x : Instance} (h : s.insts[k]? = some x) (hb : x.busy = true)
    (hm : x.made = true) : s.runInstance k = .next (s.done k x) := by simp [State.runInstance, h, hb, hm]

theorem runInstance_reserved {s : State} {k : Nat} {x : Instance} {r : Reserved} (h : s.insts[k]? = some x)
    (hb : x.busy = true) (hm : x.made = false) (hd : decode x.cur = .error r) :
    s.runInstance k = .refused (.reserved r) := by simp [State.runInstance, h, hb, hm, hd]

theorem runInstance_exec {s : State} {k : Nat} {x : Instance} {i : Instr} (h : s.insts[k]? = some x)
    (hi : InFlight x i) (hm : x.made = false) : s.runInstance k = exec i { s with active := k } := by
  simp [State.runInstance, h, hi.1, hm, hi.2]

/-- An instance going on reaches a next state in one of three ways. -/
theorem runInstance_to {s t u : State} {k : Nat} {rest : List HostMove} (g : GoesOn s k rest)
    (hu : u = { s with moves := rest }) (h : u.runInstance k = .next t)
    (hb : ∀ x, s.insts[k]? = some x → x.busy = false → s.moves = .run k :: rest) : StepTo s t := by
  subst hu
  cases hx : s.insts[k]? with
  | none => rw [runInstance_none (s := { s with moves := rest }) (k := k) hx] at h; cases h
  | some x =>
    by_cases hbz : x.busy = true
    · by_cases hm : x.made = true
      · rw [runInstance_done (s := { s with moves := rest }) (k := k) hx hbz hm] at h
        cases h
        exact .done k x rest g hx hbz hm
      · simp only [Bool.not_eq_true] at hm
        cases hd : decode x.cur with
        | error r => rw [runInstance_reserved (s := { s with moves := rest }) (k := k) hx hbz hm hd] at h; cases h
        | ok i =>
          rw [runInstance_exec (s := { s with moves := rest }) (k := k) hx ⟨hbz, hd⟩ hm, exec_next] at h
          obtain ⟨hv, rfl⟩ := h
          exact .transition k x i rest g hx ⟨hbz, hd⟩ hm hv
    · simp only [Bool.not_eq_true] at hbz
      rw [runInstance_idle (s := { s with moves := rest }) (k := k) hx hbz] at h
      cases h
      exact .runIdle k x rest (hb x hx hbz) hx hbz

/-- The inversion of `step`. -/
theorem step_to {s t : State} (h : step s = .next t) : StepTo s t := by
  unfold step at h
  split at h
  · rename_i hm
    unfold State.proceed at h
    split at h
    · rename_i k hk
      refine runInstance_to (.alone hm hk) (by rw [← hm]) h fun x hx hb => ?_
      rw [List.findIdx?_eq_some_iff_getElem] at hk
      obtain ⟨hlt, hbz, -⟩ := hk
      rw [List.getElem?_eq_getElem hlt] at hx
      cases hx
      rw [hbz] at hb
      cases hb
    · rename_i hk
      cases h
      exact .idle hm hk
  · rename_i m rest hm
    cases m with
    | read a =>
      simp only [State.move, State.hostRead] at h
      split_ifs at h with h1 h2 h3
      cases h
      exact .hostRead a rest hm (by omega) (by simpa using h3)
    | write a x =>
      simp only [State.move, State.hostWrite] at h
      split_ifs at h with h1 h2 h3
      cases h
      exact .hostWrite a x rest hm (by omega) (by simpa using h3)
    | issue k d =>
      simp only [State.move, State.hostIssue] at h
      split at h
      · cases h
      · rename_i x hx
        split_ifs at h with hb
        · refine runInstance_to (.waited d rest hm) (by simp) h fun y hy hyb => ?_
          rw [hx] at hy
          cases hy
          rw [hb] at hyb
          cases hyb
        · simp only [State.issue] at h
          split at h
          · cases h
          · rename_i i hd
            split at h
            · rename_i hv
              split_ifs at h with hc
              cases h
              exact .issue k x d i rest hm hx (by simpa using hb) hd hv (by simpa using hc)
            · cases h
    | run k => exact runInstance_to (.told rest hm) rfl h fun _ _ _ => hm
    | reset =>
      simp only [State.move, State.resetEvent] at h
      split_ifs at h with hs
      cases h
      exact .reset rest hm hs

/-! ## What is in flight -/

theorem conflictsWith_iff {x : Instance} {i : Instr} : x.conflictsWith i = false ↔
    (x.busy = true → ∃ j, decode x.cur = .ok j ∧ Independent i j) := by
  unfold Instance.conflictsWith
  cases x.busy <;> cases h : decode x.cur <;>
    simp only [Bool.true_and, Bool.false_and, Bool.not_eq_false', decide_eq_true_eq, Bool.false_eq_true, reduceCtorEq,
      false_implies, true_implies, Except.ok.injEq, exists_eq_left', false_and, exists_false]

theorem writesAt_iff {x : Instance} {a : Nat} (h : x.busy = true → ∃ i, decode x.cur = .ok i) :
    x.writesAt a = true ↔ ∃ i, InFlight x i ∧ (writes i).Has a := by
  unfold Instance.writesAt InFlight
  by_cases hb : x.busy = true
  · obtain ⟨i, hi⟩ := h hb
    simp only [hb, hi, Bool.true_and, decide_eq_true_eq, true_and, Except.ok.injEq, exists_eq_left']
  · simp [hb]

theorem touches_iff {x : Instance} {a : Nat} (h : x.busy = true → ∃ i, decode x.cur = .ok i) :
    x.touches a = true ↔ ∃ i, InFlight x i ∧ ((reads i).Has a ∨ (writes i).Has a) := by
  unfold Instance.touches InFlight
  by_cases hb : x.busy = true
  · obtain ⟨i, hi⟩ := h hb
    simp only [hb, hi, Bool.true_and, decide_eq_true_eq, true_and, Except.ok.injEq, exists_eq_left']
  · simp [hb]

/-- The moves a running instance leaves are those it was given. -/
theorem runInstance_moves {s t : State} {k : Nat} (h : s.runInstance k = .next t) : t.moves = s.moves := by
  unfold State.runInstance at h
  split at h
  · cases h
  · split_ifs at h
    · cases h; rfl
    · split at h
      · cases h
      · obtain ⟨-, rfl⟩ := exec_next.1 h; rfl
    · cases h; rfl

/-! ## Counting the commands of a run -/

/-- One instance replaced: the number of busy ones changes by that one. -/
theorem busyCount_set {xs : List Instance} {k : Nat} {x : Instance} (y : Instance) (h : xs[k]? = some x) :
    (xs.set k y).countP (·.busy) + x.busy.toNat = xs.countP (·.busy) + y.busy.toNat := by
  induction xs generalizing k with
  | nil => cases h
  | cons z zs ih =>
    cases k with
    | zero =>
      cases h
      rw [List.set_cons_zero, List.countP_cons, List.countP_cons]
      cases x.busy <;> cases y.busy <;> simp
    | succ k =>
      have := ih h
      rw [List.set_cons_succ, List.countP_cons, List.countP_cons]
      omega

/-- A transition leaves every instance as busy as it was. -/
theorem busyCount_commit (s : State) (e : Engine) :
    (s.commit e).insts.countP (·.busy) = s.insts.countP (·.busy) := by
  unfold State.commit
  dsimp only
  generalize s.insts = xs
  generalize s.active = k
  induction xs generalizing k with
  | nil => simp
  | cons z zs ih =>
    cases k with
    | zero => simp [List.countP_cons]
    | succ k => simp [List.countP_cons, ih]

theorem busyCount_reset (L : Nat) (xs : List Instance) :
    (xs.map fun _ => Instance.reset L).countP (·.busy) = 0 := by
  simp [Instance.reset]

/-- What a step does to the count of issued commands that are neither in flight nor done: it never falls, and a reset
raises it by the commands it cuts. -/
theorem step_counts {s t : State} (h : step s = .next t) :
    t.completed + t.insts.countP (·.busy) + s.issued ≤ s.completed + s.insts.countP (·.busy) + t.issued := by
  cases step_to h with
  | idle _ _ => exact Nat.le_refl _
  | hostRead a rest _ _ _ => exact Nat.le_refl _
  | hostWrite a x rest _ _ _ => exact Nat.le_refl _
  | runIdle k x rest _ _ _ => exact Nat.le_refl _
  | issue k x d i rest _ hx hb _ _ _ =>
    have := busyCount_set { x with busy := true, made := false, cur := d } hx
    simp only [hb, Bool.toNat_false, Bool.toNat_true] at this
    dsimp only
    omega
  | transition k x i rest _ _ _ _ _ => rw [busyCount_commit]; exact Nat.le_refl _
  | done k x rest _ hx hb _ =>
    have := busyCount_set { x with busy := false, made := false, cur := Descriptor.free s.fresh } hx
    simp only [hb, Bool.toNat_false, Bool.toNat_true] at this
    simp only [State.done_completed, State.done_issued, State.done_insts]
    omega
  | reset rest _ _ =>
    dsimp only
    rw [busyCount_reset]
    omega

/-! ## The beginning and the end of a run -/

/-- A run may begin in any machine that meets the invariant, idle or not. -/
theorem beginRun_inv {s : State} (h : Inv s) (ms : List HostMove) : Inv (s.beginRun ms) :=
  ⟨h.legal, h.memory, h.count, h.vectors, h.idle, h.inFlight, h.independent, by simp⟩

/-- No command of a run that begins has been cut by a reset. -/
theorem beginRun_not_cut (s : State) (ms : List HostMove) : ¬ CutByReset (s.beginRun ms) := by
  simp [CutByReset]

theorem ended_iff (s : State) : s.ended = true ↔
    (∀ m ∈ s.moves, m.isIssue = false) ∧ s.issued = s.completed ∧ ∀ x ∈ s.insts, x.busy = false := by
  simp only [State.ended, Bool.and_eq_true, Bool.not_eq_true', List.any_eq_false, List.all_eq_true, beq_iff_eq, and_assoc,
    Bool.not_eq_true]

theorem result_of_ended {s : State} (n : Nat) (h : s.ended = true) : s.result n = some s.mem := by
  cases n <;> simp only [State.result, h, if_true]

theorem result_of_step {s t : State} (n : Nat) (he : s.ended = false) (hr : s.resetNext = false)
    (h : step s = .next t) : s.result (n + 1) = t.result n := by
  simp only [State.result, he, hr, h, if_false, Bool.false_eq_true]

/-! ## Abandoning a command at reset -/

theorem Memory.forget_miss (m : Memory) (f : Footprint) (n : Nat) {a : Nat} (h : ¬ f.Has a) :
    (m.forget f n).get? a = m.get? a := by
  obtain ⟨base, len⟩ := f
  unfold Memory.forget
  dsimp only
  induction len with
  | zero => rfl
  | succ l ih =>
    simp only [forUpTo, Memory.get?_write]
    rw [if_neg fun he : a = base + l => h ⟨by simp only; omega, by simp only; omega⟩]
    exact ih fun ⟨h2, h3⟩ => h ⟨h2, by simp only at h3 ⊢; omega⟩

theorem Memory.forget_wf {m : Memory} {f : Footprint} {b : Nat} (n : Nat) (hf : f.Within b)
    (hm : Memory.wf b m = true) : Memory.wf b (m.forget f n) = true := by
  obtain ⟨base, len⟩ := f
  unfold Memory.forget
  dsimp only
  induction len with
  | zero => exact hm
  | succ l ih =>
    have hb : base + (l + 1) ≤ b := by
      rcases hf with h | h
      · cases h
      · exact h
    exact Memory.wf_write _ (ih (.inr (by simp only; omega))) (by omega)

/-- Abandoning every command in flight keeps the canonical form and every word no such command writes. -/
theorem abandon_all (c : Config) (xs : List Instance) (p : Memory × Nat)
    (hs : ∀ x ∈ xs, x.busy = true → ∃ i, decode x.cur = .ok i ∧ staticViolations c i = [])
    (hp : Memory.wf c.memWords p.1 = true) :
    Memory.wf c.memWords (xs.foldl (fun p x => abandon x p) p).1 = true ∧
    ∀ a, (∀ x ∈ xs, ∀ i, InFlight x i → ¬ (writes i).Has a) →
      (xs.foldl (fun p x => abandon x p) p).1.get? a = p.1.get? a := by
  induction xs generalizing p with
  | nil => exact ⟨hp, fun _ _ => rfl⟩
  | cons x xs ih =>
    have h1 : Memory.wf c.memWords (abandon x p).1 = true ∧
        ∀ a, (∀ i, InFlight x i → ¬ (writes i).Has a) → (abandon x p).1.get? a = p.1.get? a := by
      unfold abandon
      by_cases hb : x.busy = true
      · obtain ⟨i, hd, hst⟩ := hs x (by simp) hb
        simp only [hb, hd, if_true]
        exact ⟨Memory.forget_wf _ ((staticViolations_nil _ _).1 hst).2.2.2.2.2.2.1 hp,
          fun a ha => Memory.forget_miss _ _ _ (ha i ⟨hb, hd⟩)⟩
      · simp only [hb]
        exact ⟨hp, fun _ _ => rfl⟩
    obtain ⟨h2, h3⟩ := ih (abandon x p) (fun x hx => hs x (by simp [hx])) h1.1
    exact ⟨h2, fun a ha => by rw [List.foldl_cons, h3 a fun y hy => ha y (by simp [hy]), h1.2 a (ha x (by simp))]⟩

end Sys2Proof.Machine
end

