-- ==== Sys2Proof/Laws/Checker.lean ====
section
/-! SUPPORT. What the moves of the checker do on the machine, one lemma for each kind. -/

namespace Sys2Proof.Machine

open Sys2Proof.Safety

@[simp] theorem perform_nil (s : State) : s.perform [] = .ok s := rfl

/-- A move that the machine takes off and answers. -/
theorem perform_cons {s t : State} {m : HostMove} (ms : List HostMove) (h : step { s with moves := [m] } = .next t)
    (ht : t.moves = []) : s.perform (m :: ms) = t.perform ms := by
  rw [State.perform, h]
  simp [ht]

theorem perform_append {s t : State} {ms : List HostMove} (h : s.perform ms = .ok t) (ms' : List HostMove) :
    s.perform (ms ++ ms') = t.perform ms' := by
  induction ms generalizing s with
  | nil => cases h; rfl
  | cons m ms ih =>
    rw [List.cons_append, State.perform]
    rw [State.perform] at h
    split at h
    · split_ifs at h with he
      simp only [he, if_true]
      exact ih h
    · cases h
    · cases h

/-- The host's access to the word at `a` is one R162 and R194 allow: it exists, is plain, and no command in flight
forbids it. -/
structure Touchable (s : State) (a : Nat) : Prop where
  exist : a < s.cfg.memWords
  plain : notPlainAt s.cfg a = false
  free : s.insts.any (·.touches a) = false

theorem step_hostWrite {s : State} {a : Nat} {x : Word} (h : Touchable s a) :
    step { s with moves := [.write a x] } = .next { s with moves := [], mem := s.mem.write a x } := by
  have h1 := h.exist
  have h2 := h.free
  simp only [step, State.move, State.hostWrite, show ¬ s.cfg.memWords ≤ a by omega, h.plain, h2, if_false,
    Bool.false_eq_true]

/-- A word no command in flight touches is one none of them writes. -/
theorem writesAt_of_touches {s : State} {a : Nat} (h : s.insts.any (·.touches a) = false) :
    s.insts.any (·.writesAt a) = false := by
  rw [List.any_eq_false] at h ⊢
  intro x hx hw
  refine h x hx ?_
  unfold Instance.writesAt at hw
  unfold Instance.touches
  cases hd : decode x.cur with
  | error r => rw [hd] at hw; exact hw
  | ok i =>
    simp only [hd, Bool.and_eq_true, decide_eq_true_eq] at hw ⊢
    exact ⟨hw.1, .inr hw.2⟩

theorem step_hostRead {s : State} {a : Nat} (h : Touchable s a) :
    step { s with moves := [.read a] } = .next { s with moves := [] } := by
  have h1 := h.exist
  have h2 := writesAt_of_touches h.free
  simp only [step, State.move, State.hostRead, show ¬ s.cfg.memWords ≤ a by omega, h.plain, h2, if_false,
    Bool.false_eq_true]

/-- The host places an array. -/
theorem perform_placing {s : State} {base : Nat} {xs : List Word}
    (h : ∀ t, t < xs.length → Touchable s (base + t)) :
    s.perform (placing base xs) = .ok { s with
      moves := if xs.length = 0 then s.moves else []
      mem := placed s.mem base xs } := by
  unfold placing placed
  generalize xs.length = n at *
  induction n with
  | zero => rfl
  | succ n ih =>
    rw [List.range_succ, List.map_append, perform_append (ih fun t ht => h t (by omega))]
    have := h n (by omega)
    refine (perform_cons [] (step_hostWrite (s := { s with
      moves := if n = 0 then s.moves else []
      mem := forUpTo n (fun t m => m.write (base + t) (xs.getD t 0)) s.mem }) ⟨this.exist, this.plain, this.free⟩)
      rfl).trans ?_
    simp [forUpTo]

/-- The words after placing: the array where it was placed, and every other word as before. -/
theorem placed_read (m : Memory) (base : Nat) (xs : List Word) (a : Nat) :
    (placed m base xs).read a = if base ≤ a ∧ a < base + xs.length then xs.getD (a - base) 0 else m.read a := by
  unfold placed
  generalize hn : xs.length = n
  clear hn
  induction n with
  | zero => rw [forUpTo, if_neg (by omega)]
  | succ n ih =>
    rw [forUpTo]
    by_cases h : a = base + n
    · subst h
      rw [Memory.read_write_same, if_pos (by omega), Nat.add_sub_cancel_left]
    · rw [Memory.read_write_other _ _ h, ih]
      by_cases h' : base ≤ a ∧ a < base + n
      · rw [if_pos h', if_pos (by omega)]
      · rw [if_neg h', if_neg (by omega)]

/-- The state after a command issued to the idle instance `k` and waited for: its transition's memory, every other
instance as it was, and instance `k` idle. -/
structure After (s : State) (k : Nat) (i : Instr) (t : State) : Prop where
  moves : t.moves = []
  cfg : t.cfg = s.cfg
  idle : ∃ x, t.insts[k]? = some x ∧ x.busy = false
  others : ∀ j, j ≠ k → t.insts[j]? = s.insts[j]?
  mem : Writes s.mem t.mem (writes i).Has (resultAt (operands i) s.mem)

theorem perform_issueAndWait {s : State} {k : Nat} {x : Instance} {i : Instr} (hx : s.insts[k]? = some x)
    (hb : x.busy = false) (hd : decode (encode i) = .ok i) (hv : violations s.cfg i s.mem = [])
    (hc : s.insts.any (·.conflictsWith i) = false) :
    ∃ t, s.perform (issueAndWait k i) = .ok t ∧ After s k i t := by
  have hk := (List.getElem?_eq_some_iff.1 hx).1
  have e1 : step { s with moves := [.issue k (encode i)] } = .next { s with
      moves := []
      insts := s.insts.set k { x with busy := true, made := false, cur := encode i }
      issued := s.issued + 1 } := by
    simp only [step, State.move, State.hostIssue, hx, hb, State.issue, hd, hv, hc]
    rfl
  have g1 : (s.insts.set k { x with busy := true, made := false, cur := encode i })[k]? =
      some { x with busy := true, made := false, cur := encode i } := by simp [hk]
  generalize hs1 : ({ s with
      moves := []
      insts := s.insts.set k { x with busy := true, made := false, cur := encode i }
      issued := s.issued + 1 } : State) = s1 at e1
  have e2 : step { s1 with moves := [.run k] } = .next (State.commit { s1 with moves := [], active := k }
      (datapathOf s.cfg i (State.engine { s1 with moves := [], active := k }))) := by
    subst hs1
    exact (runInstance_exec (s := { s with
      moves := []
      insts := s.insts.set k { x with busy := true, made := false, cur := encode i }
      issued := s.issued + 1 }) g1 ⟨rfl, hd⟩ rfl).trans (exec_next.2 ⟨hv, rfl⟩)
  have w2 : Writes s.mem (State.commit { s1 with moves := [], active := k }
      (datapathOf s.cfg i (State.engine { s1 with moves := [], active := k }))).mem (writes i).Has
      (resultAt (operands i) s.mem) := by
    subst hs1
    exact exec_mem (i := i) (s := { s with
      moves := []
      insts := s.insts.set k { x with busy := true, made := false, cur := encode i }
      active := k
      issued := s.issued + 1 }) (exec_next.2 ⟨hv, rfl⟩)
  have g2 := State.commit_inst { s1 with moves := [], active := k }
    (datapathOf s.cfg i (State.engine { s1 with moves := [], active := k }))
  have c2 : (State.commit { s1 with moves := [], active := k }
    (datapathOf s.cfg i (State.engine { s1 with moves := [], active := k }))).cfg = s.cfg := by subst hs1; rfl
  have h1 : s1.insts = s.insts.set k { x with busy := true, made := false, cur := encode i } := by subst hs1; rfl
  have m2 : (State.commit { s1 with moves := [], active := k }
    (datapathOf s.cfg i (State.engine { s1 with moves := [], active := k }))).moves = [] := rfl
  generalize State.commit { s1 with moves := [], active := k }
    (datapathOf s.cfg i (State.engine { s1 with moves := [], active := k })) = s2 at *
  dsimp only at g2
  have g3 := g2 k
  rw [h1, g1, Option.map_some, if_pos rfl] at g3
  have e3 : step { s2 with moves := [.run k] } = .next (State.done { s2 with moves := [] } k _) :=
    runInstance_done (s := { s2 with moves := [] }) g3 rfl rfl
  refine ⟨_, (perform_cons _ e1 (by subst hs1; rfl)).trans ((perform_cons _ e2 m2).trans
    ((perform_cons [] e3 rfl).trans (perform_nil _))), rfl, c2, ⟨_, List.getElem?_set_self (List.getElem?_eq_some_iff.1 g3).1, rfl⟩,
      fun j hj => ?_, w2⟩
  rw [State.done_insts, List.getElem?_set_ne (Ne.symm hj)]
  refine (g2 j).trans ?_
  rw [h1, List.getElem?_set_ne (Ne.symm hj)]
  simp [hj]

/-- The host reads, when every word it reads may be read. -/
theorem perform_comparing {s : State} {d1 d2 n : Nat} (hm : s.moves = [])
    (h : ∀ t, t < n → Touchable s (d1 + t) ∧ Touchable s (d2 + t)) : s.perform (comparing d1 d2 n) = .ok s := by
  unfold comparing
  induction n with
  | zero => rfl
  | succ n ih =>
    rw [List.range_succ, List.flatMap_append, perform_append (ih fun t ht => h t (by omega))]
    obtain ⟨h1, h2⟩ := h n (by omega)
    have e : ({ s with moves := [] } : State) = s := by rw [← hm]
    simp only [List.flatMap_singleton]
    rw [perform_cons (t := s) _ ((step_hostRead h1).trans (congrArg _ e)) hm,
      perform_cons (t := s) _ ((step_hostRead h2).trans (congrArg _ e)) hm, perform_nil]

end Sys2Proof.Machine
end

