-- ==== Sys2Proof/Laws/PerInstr.lean ====
section
/-! SUPPORT. Statements about every command as syntax, one lemma per constructor: the fields of its descriptor (R71, R72,
R74) hold the operands `operands` reads off it. -/

namespace Sys2Proof.Laws.DescriptorFields

open Sys2Proof.Machine

/-- `OP` of an operation (R71). -/
def opNumber : Op → Nat
  | .pack _ => 0
  | .unpack _ => 1
  | .collapse _ => 2
  | .expand _ => 3

/-- `PARAM` of an operation: `w` or `k` (R71, R74). -/
def opParam : Op → Nat
  | .pack w => w
  | .unpack w => w
  | .collapse k => k
  | .expand k => k

/-- The descriptor of a well-formed command carries its operation, form, parameter, addresses and length, and zeros in the
reserved fields. -/
def Statement (i : Instr) : Prop :=
  i.WellFormed →
    (encode i).op = opNumber (operands i).op ∧ (encode i).vector = (operands i).vector ∧ (encode i).rsv0 = 0 ∧
    (encode i).param = opParam (operands i).op ∧ (encode i).rsv1 = 0 ∧ (encode i).cw1.toNat = (operands i).src ∧
    (encode i).cw2.toNat = (operands i).dst ∧ (encode i).cw3.toNat = (operands i).len

/-- The control word's fields at every legal width; the plane counts 2 and 4 are among them. -/
theorem fields_of_width {w : Nat} (h : LegalWidth w) (op v : Nat) (ho : op < 4) (hv : v < 2) :
    (encodeFields op v w 0 0 0).op = op ∧ (encodeFields op v w 0 0 0).vector = (v == 1) ∧
    (encodeFields op v w 0 0 0).rsv0 = 0 ∧ (encodeFields op v w 0 0 0).param = w ∧
    (encodeFields op v w 0 0 0).rsv1 = 0 := by
  have all : ∀ w, w < 33 → ∀ op, op < 4 → ∀ v, v < 2 →
      (encodeFields op v w 0 0 0).op = op ∧ (encodeFields op v w 0 0 0).vector = (v == 1) ∧
      (encodeFields op v w 0 0 0).rsv0 = 0 ∧ (encodeFields op v w 0 0 0).param = w ∧
      (encodeFields op v w 0 0 0).rsv1 = 0 := by decide
  exact all w (by have := h.2; omega) op ho v hv

theorem packS (w : Nat) (src dst len : Word) : Statement (.packS w src dst len) := fun h =>
  have f := fields_of_width (of_decide_eq_true h) 0 0 (by decide) (by decide)
  ⟨f.1, f.2.1, f.2.2.1, f.2.2.2.1, f.2.2.2.2, rfl, rfl, rfl⟩

theorem packV (w : Nat) (src dst len : Word) : Statement (.packV w src dst len) := fun h =>
  have f := fields_of_width (of_decide_eq_true h) 0 1 (by decide) (by decide)
  ⟨f.1, f.2.1, f.2.2.1, f.2.2.2.1, f.2.2.2.2, rfl, rfl, rfl⟩

theorem unpackS (w : Nat) (src dst len : Word) : Statement (.unpackS w src dst len) := fun h =>
  have f := fields_of_width (of_decide_eq_true h) 1 0 (by decide) (by decide)
  ⟨f.1, f.2.1, f.2.2.1, f.2.2.2.1, f.2.2.2.2, rfl, rfl, rfl⟩

theorem unpackV (w : Nat) (src dst len : Word) : Statement (.unpackV w src dst len) := fun h =>
  have f := fields_of_width (of_decide_eq_true h) 1 1 (by decide) (by decide)
  ⟨f.1, f.2.1, f.2.2.1, f.2.2.2.1, f.2.2.2.2, rfl, rfl, rfl⟩

theorem collapse16S (src dst len : Word) : Statement (.collapse16S src dst len) := fun _ =>
  have f := fields_of_width (w := 2) (by decide) 2 0 (by decide) (by decide)
  ⟨f.1, f.2.1, f.2.2.1, f.2.2.2.1, f.2.2.2.2, rfl, rfl, rfl⟩

theorem collapse16V (src dst len : Word) : Statement (.collapse16V src dst len) := fun _ =>
  have f := fields_of_width (w := 2) (by decide) 2 1 (by decide) (by decide)
  ⟨f.1, f.2.1, f.2.2.1, f.2.2.2.1, f.2.2.2.2, rfl, rfl, rfl⟩

theorem collapse8S (src dst len : Word) : Statement (.collapse8S src dst len) := fun _ =>
  have f := fields_of_width (w := 4) (by decide) 2 0 (by decide) (by decide)
  ⟨f.1, f.2.1, f.2.2.1, f.2.2.2.1, f.2.2.2.2, rfl, rfl, rfl⟩

theorem collapse8V (src dst len : Word) : Statement (.collapse8V src dst len) := fun _ =>
  have f := fields_of_width (w := 4) (by decide) 2 1 (by decide) (by decide)
  ⟨f.1, f.2.1, f.2.2.1, f.2.2.2.1, f.2.2.2.2, rfl, rfl, rfl⟩

theorem expand16S (src dst len : Word) : Statement (.expand16S src dst len) := fun _ =>
  have f := fields_of_width (w := 2) (by decide) 3 0 (by decide) (by decide)
  ⟨f.1, f.2.1, f.2.2.1, f.2.2.2.1, f.2.2.2.2, rfl, rfl, rfl⟩

theorem expand16V (src dst len : Word) : Statement (.expand16V src dst len) := fun _ =>
  have f := fields_of_width (w := 2) (by decide) 3 1 (by decide) (by decide)
  ⟨f.1, f.2.1, f.2.2.1, f.2.2.2.1, f.2.2.2.2, rfl, rfl, rfl⟩

theorem expand8S (src dst len : Word) : Statement (.expand8S src dst len) := fun _ =>
  have f := fields_of_width (w := 4) (by decide) 3 0 (by decide) (by decide)
  ⟨f.1, f.2.1, f.2.2.1, f.2.2.2.1, f.2.2.2.2, rfl, rfl, rfl⟩

theorem expand8V (src dst len : Word) : Statement (.expand8V src dst len) := fun _ =>
  have f := fields_of_width (w := 4) (by decide) 3 1 (by decide) (by decide)
  ⟨f.1, f.2.1, f.2.2.1, f.2.2.2.1, f.2.2.2.2, rfl, rfl, rfl⟩

end Sys2Proof.Laws.DescriptorFields
end

