-- ==== Sys2Proof/Tests/Slice0.lean ====
section
/-! SUPPORT. Tests with results from spec/95_test_vectors.md and from hand-written words, and for every statement of
Certificates/Slice0/Obligations.lean that has hypotheses a witness that meets them. -/

namespace Sys2Proof.Tests

open Sys2Proof.Machine Sys2Proof.Safety

/-! ## Small states -/

/-- The build of the vectors with `L` lanes. -/
def build (L : Nat) : Config := { Config.vectors with lanes := L }

/-- An idle machine with `L` lanes whose memory lists `ws` from address `a` on, then `vs` from address `b` on. -/
def at2 (L a : Nat) (ws : List Word) (b : Nat) (vs : List Word) : State :=
  { State.resetWith (build L) with
    mem := Memory.ofList (ws.zipIdx.map (fun p => (a + p.2, p.1)) ++ vs.zipIdx.map (fun p => (b + p.2, p.1))) }

/-- An idle machine with `L` lanes whose memory lists `ws` from address `a` on. -/
def at1 (L a : Nat) (ws : List Word) : State := at2 L a ws 0 []

/-- The words of `[a, a + n)` after the command. -/
def after (i : Instr) (s : State) (a n : Nat) : Option (List Word) :=
  match exec i s with
  | .next t => some (t.mem.region a n)
  | _ => none

/-- What a refused command reports. -/
def refusal (i : Instr) (s : State) : Option (List Violation) :=
  match exec i s with
  | .refused (.precondition vs) => some vs
  | _ => none

/-! ## WellFormed refuses -/

theorem test_wellFormed_packS : (Instr.packS 0 0 8 8).wellFormed = false ∧ (Instr.packS 33 0 8 8).wellFormed = false ∧
    (Instr.packS 1 0 8 8).wellFormed = true ∧ (Instr.packS 32 0 8 8).wellFormed = true := by decide
theorem test_wellFormed_packV : (Instr.packV 0 0 8 8).wellFormed = false ∧ (Instr.packV 33 0 8 8).wellFormed = false ∧
    (Instr.packV 1 0 8 8).wellFormed = true ∧ (Instr.packV 32 0 8 8).wellFormed = true := by decide
theorem test_wellFormed_unpackS : (Instr.unpackS 0 0 8 8).wellFormed = false ∧
    (Instr.unpackS 33 0 8 8).wellFormed = false ∧ (Instr.unpackS 32 0 8 8).wellFormed = true := by decide
theorem test_wellFormed_unpackV : (Instr.unpackV 0 0 8 8).wellFormed = false ∧
    (Instr.unpackV 33 0 8 8).wellFormed = false ∧ (Instr.unpackV 32 0 8 8).wellFormed = true := by decide

/-! ## Decoding: words written bit by bit from R71 (`000000000000000000 pppppp 00000 v oo`), operands from T80 -/

theorem test_decode_packS : decode ⟨0b000000000000000000_000100_00000_0_00, 0x100, 0x200, 8⟩ =
    .ok (.packS 4 0x100 0x200 8) := rfl
theorem test_decode_packV : decode ⟨0b000000000000000000_001000_00000_1_00, 0, 8, 8⟩ = .ok (.packV 8 0 8 8) := rfl
theorem test_decode_unpackS : decode ⟨0b000000000000000000_100000_00000_0_01, 8, 16, 1⟩ =
    .ok (.unpackS 32 8 16 1) := rfl
theorem test_decode_unpackV : decode ⟨0b000000000000000000_000001_00000_1_01, 0, 64, 2⟩ =
    .ok (.unpackV 1 0 64 2) := rfl
theorem test_decode_collapse16S : decode ⟨0b000000000000000000_000010_00000_0_10, 16, 16, 2⟩ =
    .ok (.collapse16S 16 16 2) := rfl
theorem test_decode_collapse16V : decode ⟨0b000000000000000000_000010_00000_1_10, 0, 8, 4⟩ =
    .ok (.collapse16V 0 8 4) := rfl
theorem test_decode_collapse8S : decode ⟨0b000000000000000000_000100_00000_0_10, 0, 256, 64⟩ =
    .ok (.collapse8S 0 256 64) := rfl
theorem test_decode_collapse8V : decode ⟨0b000000000000000000_000100_00000_1_10, 0, 0, 64⟩ =
    .ok (.collapse8V 0 0 64) := rfl
theorem test_decode_expand16S : decode ⟨0b000000000000000000_000010_00000_0_11, 0, 0, 4⟩ =
    .ok (.expand16S 0 0 4) := rfl
theorem test_decode_expand16V : decode ⟨0b000000000000000000_000010_00000_1_11, 0x40, 0x80, 8⟩ =
    .ok (.expand16V 0x40 0x80 8) := rfl
theorem test_decode_expand8S : decode ⟨0b000000000000000000_000100_00000_0_11, 8, 8, 2⟩ =
    .ok (.expand8S 8 8 2) := rfl
theorem test_decode_expand8V : decode ⟨0b000000000000000000_000100_00000_1_11, 256, 512, 64⟩ =
    .ok (.expand8V 256 512 64) := rfl

/-- T81: the reserved control words. -/
theorem test_decode_reserved :
    [0x00000000, 0x00002100, 0x00003F01, 0x00000302, 0x00000802, 0x00000103, 0x00002003, 0x00000408, 0x00004400,
      0x80000400].map (fun w => (decode ⟨w, 0, 0, 0⟩).toOption) = List.replicate 10 none := by decide

/-- T80 as one number (R82, first row), bit 0 the least significant bit of the first word. -/
theorem test_decodeTableWord : decodeTableWord 128 0x00000008_00000200_00000100_00000400 =
    some (.packS 4 0x100 0x200 8) := by decide

/-- With 32 bits given, the operand words are zeros. -/
theorem test_decodeTableWord_short : decodeTableWord 32 0x00000207 = some (.expand16V 0 0 0) := by decide

/-! ## The commands -/

/-- T7. -/
theorem test_packS : after (.packS 4 0 8 8) (at1 1 0 [1, 2, 3, 4, 5, 6, 7, 8]) 8 1 = some [0x12345678] := by decide
/-- T5, over a stale destination word (PRG4): the pad bits are 0. -/
theorem test_packS_pad : after (.packS 3 0 10 10) (at1 1 0 [1, 2, 3, 4, 5, 6, 7, 0, 1, 2, 0xFFFFFFFF]) 10 1 =
    some [0x29CBB828] := by decide
/-- T20, over a destination nothing has written. -/
theorem test_packV : after (.packV 8 0 8 8) (at1 2 0 [0xDE, 0xAD, 0xBE, 0xEF, 0, 1, 2, 0xFF]) 8 2 =
    some [0xDEADBEEF, 0x000102FF] := by decide
/-- T26: `nW` is no multiple of `LANES = 4`. -/
theorem test_packV_lanes : refusal (.packV 8 0 8 8) (at1 4 0 [0xDE, 0xAD, 0xBE, 0xEF, 0, 1, 2, 0xFF]) =
    some [.laneCondition] := by decide
/-- T36: the pad bits of the source are ignored. -/
theorem test_unpackS : after (.unpackS 3 0 1 1) (at1 1 0 [0xFFFFFFFF]) 1 10 = some (List.replicate 10 7) := by decide
/-- T35: the mask at 32. -/
theorem test_unpackS_identity : after (.unpackS 32 0 1 1) (at1 1 0 [0xCAFEBABE]) 1 1 = some [0xCAFEBABE] := by decide
/-- T39g. -/
theorem test_unpackV : after (.unpackV 8 8 16 2) (at1 2 8 [0xDEADBEEF, 0x000102FF]) 16 8 =
    some [0xDE, 0xAD, 0xBE, 0xEF, 0, 1, 2, 0xFF] := by decide
/-- T26. -/
theorem test_unpackV_lanes : refusal (.unpackV 8 8 16 3) (at1 2 8 [1, 2, 3]) = some [.laneCondition] := by decide
/-- T40. -/
theorem test_collapse16S : after (.collapse16S 0 8 2) (at1 1 0 [0xDEAD, 0xABCD, 0xBEEF, 0x1234]) 8 2 =
    some [0xDEADBEEF, 0xABCD1234] := by decide
/-- T46: in place; plane 1 stays. -/
theorem test_collapse16S_inPlace : after (.collapse16S 16 16 2) (at1 1 16 [0xDEAD, 0x0001, 0xBEEF, 0x02FF]) 16 4 =
    some [0xDEADBEEF, 0x000102FF, 0xBEEF, 0x02FF] := by decide
/-- T41 with `LANES = 2`. -/
theorem test_collapse16V :
    after (.collapse16V 0 8 4) (at1 2 0 [0xDEAD, 0xABCD, 0, 0xFFFF, 0xBEEF, 0x1234, 0xFFFF, 0]) 8 4 =
    some [0xDEADBEEF, 0xABCD1234, 0x0000FFFF, 0xFFFF0000] := by decide
/-- T42. -/
theorem test_collapse8S : after (.collapse8S 0 8 2) (at1 1 0 [0xDE, 1, 0xAD, 2, 0xBE, 3, 0xEF, 4]) 8 2 =
    some [0xDEADBEEF, 0x01020304] := by decide
/-- T49: the topmost plane is not exempt. -/
theorem test_collapse8S_refused : refusal (.collapse8S 0 8 1) (at1 1 0 [0x100, 0, 0, 0]) =
    some [.planeValueTooWide] := by decide
/-- T43 with `LANES = 4`, in place. -/
theorem test_collapse8V : after (.collapse8V 0 0 4)
    (at1 4 0 [0x11, 0x22, 0x33, 0x44, 0x55, 0x66, 0x77, 0x88, 0x99, 0xAA, 0xBB, 0xCC, 0xDD, 0xEE, 0xFF, 0x00]) 0 5 =
    some [0x115599DD, 0x2266AAEE, 0x3377BBFF, 0x4488CC00, 0x55] := by decide
/-- T53. -/
theorem test_expand16S : after (.expand16S 0 8 3) (at1 1 0 [0xFFFFFFFF, 0, 0x80000001]) 8 6 =
    some [0xFFFF, 0, 0x8000, 0xFFFF, 0, 1] := by decide
/-- T82: `R = [4, 8)` and `W = [0, 8)` overlap although `DST ≠ SRC`. -/
theorem test_expand16S_refused : refusal (.expand16S 4 0 4) (at1 1 0 []) = some [.overlap] := by decide
/-- T55 with `LANES = 2`: in place. -/
theorem test_expand16V : after (.expand16V 0 0 4) (at1 2 0 [0xDEADBEEF, 0xABCD1234, 0x0000FFFF, 0xFFFF0000]) 0 8 =
    some [0xDEAD, 0xABCD, 0, 0xFFFF, 0xBEEF, 0x1234, 0xFFFF, 0] := by decide
/-- T54: in place. -/
theorem test_expand8S : after (.expand8S 8 8 2) (at1 1 8 [0xDEADBEEF, 0x01020304]) 8 8 =
    some [0xDE, 1, 0xAD, 2, 0xBE, 3, 0xEF, 4] := by decide
/-- T52 with `LANES = 3`. -/
theorem test_expand8V : after (.expand8V 0 8 3) (at1 3 0 [0xFFFFFFFF, 0, 0x80000001]) 8 12 =
    some [0xFF, 0, 0x80, 0xFF, 0, 0, 0xFF, 0, 0, 0xFF, 0, 1] := by decide
/-- T82. -/
theorem test_expand8V_refused : refusal (.expand8V 0 16 3) (at1 2 0 []) = some [.laneCondition] := by decide
/-- T82: V1, V3, V6 and V5 (no wrap past 2^32). -/
theorem test_refusals :
    refusal (.packS 4 0 8 8) (at1 2 0 [1, 2, 3, 4, 5, 6, 7, 16]) = some [.valueTooWide] ∧
    refusal (.packS 4 0 8 7) (at1 2 0 []) = some [.lengthNotMultiple] ∧
    refusal (.packS 8 0 0 8) (at1 2 0 []) = some [.overlap] ∧
    refusal (.packS 32 0xFFFFFFFF 0 2) (at1 2 0 []) = some [.outOfBounds] ∧
    refusal (.unpackS 1 0 1000 1) (at1 2 0 []) = some [.outOfBounds] := by decide
/-- The checker gave the answer `a`. -/
def answers (r : Except CheckStop CheckResult) (a : CheckResult) : Bool :=
  match r with
  | .ok b => b == a
  | .error _ => false

/-- The checker stopped for `e`. -/
def stops (r : Except CheckStop CheckResult) (e : CheckStop) : Bool :=
  match r with
  | .ok _ => false
  | .error f => f == e

/-- T60 (two lanes corrupted) and T61. -/
theorem test_checker :
    compareRegions (at2 1 16 [0x10111213, 0x14151617, 0x18191A1B, 0x1C1D1E1F]
      32 [0x10111213, 0x14151617, 0x18191A1A, 0]).mem 16 32 4 = .mismatch 2 0x18191A1B 0x18191A1A ∧
    answers (checkOn 0 [0xDE, 1, 0xAD, 2, 0xBE, 3, 0xEF, 4] (.collapse8S 0 0 2) (.collapse8V 8 8 2) (at1 2 0 []))
      .ok = true := by decide
/-- R171: no check without equal lengths, independent clones and as many words as the command reads; R162: an input out of
the domain and a source region outside memory are turned away by the machine. -/
theorem test_checker_stops :
    stops (checkOn 0 [1, 2] (.packS 16 0 8 2) (.packV 16 2 9 4) (at1 1 0 [])) .setup = true ∧
    stops (checkOn 0 [1, 2] (.packS 16 0 8 2) (.packV 16 1 9 2) (at1 1 0 [])) .setup = true ∧
    stops (checkOn 0 [1] (.packS 16 0 8 2) (.packV 16 2 9 2) (at1 1 0 [])) .setup = true ∧
    stops (checkOn 0 [1, 0x10000] (.packS 16 0 8 2) (.packV 16 2 9 2) (at1 1 0 []))
      (.refused (.precondition [.valueTooWide])) = true ∧
    stops (checkOn 0 [1, 2] (.packS 16 1023 8 2) (.packV 16 2 9 2) (at1 1 0 [])) (.fault (.noSuchWord 1024)) = true := by
  decide
/-- R79: `COLLAPSE.S 4` and `EXPAND16.V buf, n` expand, `EXPAND.S 3` does not. -/
theorem test_assemble : assemble (.collapse false 4 0 8 2) = some (.collapse8S 0 8 2) ∧
    assemble (.expandInPlace true 2 8 2) = some (.expand16V 8 8 2) ∧ assemble (.expand false 3 0 8 2) = none := by decide
/-- R78: an in-place line with a comment, a line without suffix (T80), and a plane count with no expansion. -/
theorem test_assembleText :
    assembleText [['P', 'A', 'C', 'K', ' ', '4', ',', ' ', '0', 'x', '1', '0', '0', ',', '5', '1', '2', ' ', ',', '8'],
      [' ', ';', 'x'], ['E', 'X', 'P', 'A', 'N', 'D', '8', '.', 'V', ' ', '8', ',', '2', ' ', ';', ' ', 'p']] =
      some [.packS 4 0x100 0x200 8, .expand8V 8 8 2] ∧
    assembleLine ['E', 'X', 'P', 'A', 'N', 'D', ' ', '3', ',', '0', ',', '8', ',', '2'] = none := by decide
/-- `withFetchWord` from reset: the very next step runs the word (LEN = 0 completes, R72). -/
theorem test_withFetchWord : (match step (State.reset.withFetchWord 32 0x00000403) with
    | .next t => t.insts.map (·.made)
    | _ => []) = [true] := by decide

/-! ## Witnesses: the encoding statements -/

/-- For DecodeEncodeRoundTrip: the largest fields, the widest width, and a descriptor that is a command. -/
theorem witness_roundTrip : ((3 : Nat) < 4 ∧ (1 : Nat) < 2 ∧ (63 : Nat) < 64) ∧ (Instr.packV 32 0 1 1).WellFormed ∧
    decode ⟨0x00002004, 0, 1, 1⟩ = .ok (.packV 32 0 1 1) := ⟨by decide, by decide, rfl⟩

/-- A busy machine: one instance, `d` latched, `made` as said, the host's moves `ms`. -/
def busyWith (d : Descriptor) (made : Bool) (ms : List HostMove) : State :=
  { at1 1 0 [1, 2, 3, 4, 5, 6, 7, 8] with
    insts := [⟨true, made, d, Transients.reset 1⟩]
    moves := ms
    issued := 1 }

/-- An idle machine with the host's moves `ms`. -/
def idleWith (ms : List HostMove) : State := { at1 1 0 [1, 2, 3, 4, 5, 6, 7, 8] with moves := ms }

/-- For ReservedDescriptorsRefused: at ISSUE and latched, one descriptor for each of (a), (b), (c). -/
theorem witness_reserved :
    (IsReserved ⟨0x00004400, 0, 0, 0⟩ ∧ IsReserved ⟨0x00002100, 0, 0, 0⟩ ∧ IsReserved ⟨0x00000302, 0, 0, 0⟩) ∧
    (∃ x, (idleWith [.issue 0 ⟨0x00004400, 0, 0, 0⟩]).insts[0]? = some x ∧ x.busy = false) ∧
    (∃ x, (busyWith ⟨0x00000302, 0, 0, 0⟩ false [.run 0]).insts[0]? = some x ∧ IsReserved x.cur ∧ x.busy = true ∧
      x.made = false) :=
  ⟨⟨.inl (by decide), .inr (.inl (by decide)), .inr (.inr (by decide))⟩, ⟨_, rfl, rfl⟩,
    ⟨_, rfl, .inr (.inr (by decide)), rfl, rfl⟩⟩

/-! ## Witnesses: the results -/

theorem inside {s : State} {i : Instr} (h : violations s.cfg i s.mem = []) : InDomain s i := (inDomain_iff s i).2 h

theorem outside {s : State} {i : Instr} (h : violations s.cfg i s.mem ≠ []) : ¬ InDomain s i :=
  mt (inDomain_iff s i).1 h

/-- For PackSerialResult: widths at both ends; footprints up to the last word, and one word past it. -/
theorem witness_packS : LegalWidth 1 ∧ LegalWidth 32 ∧
    InDomain (at1 1 1023 [0xFFFFFFFF]) (.packS 32 1023 1022 1) ∧
    InDomain (at1 1 0 [15, 0, 15, 0, 15, 0, 15, 0]) (.packS 4 0 1023 8) ∧
    ¬ InDomain (at1 1 0 [15, 0, 15, 0, 15, 0, 15, 16]) (.packS 4 0 1023 8) ∧
    ¬ InDomain (at1 1 0 [0, 0]) (.packS 16 0 1024 2) :=
  ⟨by decide, by decide, inside (by decide), inside (by decide), outside (by decide), outside (by decide)⟩

/-- For PackVectorResult: two lanes, in and out of the lane condition. -/
theorem witness_packV : LegalWidth 1 ∧ LegalWidth 32 ∧
    InDomain (at1 2 0 [0xFF, 0, 0, 0, 0, 0, 0, 0xFF]) (.packV 8 0 1022 8) ∧
    ¬ InDomain (at1 2 0 [0xFF, 0, 0, 0]) (.packV 8 0 1022 4) ∧
    ¬ InDomain (at1 2 0 [0x100, 0, 0, 0, 0, 0, 0, 0xFF]) (.packV 8 0 1022 8) :=
  ⟨by decide, by decide, inside (by decide), outside (by decide), outside (by decide)⟩

/-- For UnpackSerialResult (T82 and its in-domain neighbour). -/
theorem witness_unpackS : LegalWidth 1 ∧ LegalWidth 32 ∧ InDomain (at1 1 0 []) (.unpackS 1 0 992 1) ∧
    ¬ InDomain (at1 1 0 []) (.unpackS 1 0 993 1) ∧ ¬ InDomain (at1 1 0 []) (.unpackS 8 4 0 2) :=
  ⟨by decide, by decide, inside (by decide), outside (by decide), outside (by decide)⟩

/-- For UnpackVectorResult. -/
theorem witness_unpackV : LegalWidth 1 ∧ LegalWidth 32 ∧ InDomain (at1 2 0 []) (.unpackV 1 1022 0 2) ∧
    ¬ InDomain (at1 2 0 []) (.unpackV 1 1022 0 1) ∧ ¬ InDomain (at1 2 0 []) (.unpackV 1 1023 0 2) :=
  ⟨by decide, by decide, inside (by decide), outside (by decide), outside (by decide)⟩

/-- For Collapse16SerialResult: plane elements up to 0xFFFF, disjoint and in place. -/
theorem witness_collapse16S : InDomain (at1 1 1022 [0xFFFF, 0xFFFF]) (.collapse16S 1022 0 1) ∧
    InDomain (at1 1 1022 [0xFFFF, 0xFFFF]) (.collapse16S 1022 1022 1) ∧
    ¬ InDomain (at1 1 1022 [0xFFFF, 0x10000]) (.collapse16S 1022 0 1) ∧
    ¬ InDomain (at1 1 1022 [0, 0]) (.collapse16S 1022 1023 1) :=
  ⟨inside (by decide), inside (by decide), outside (by decide), outside (by decide)⟩

/-- For Collapse16VectorResult. -/
theorem witness_collapse16V : InDomain (at1 2 1020 [0xFFFF, 0, 0xFFFF, 0]) (.collapse16V 1020 0 2) ∧
    ¬ InDomain (at1 2 1022 [0xFFFF, 0xFFFF]) (.collapse16V 1022 0 1) := ⟨inside (by decide), outside (by decide)⟩

/-- For Collapse8SerialResult. -/
theorem witness_collapse8S : InDomain (at1 1 1020 [0xFF, 0, 0, 0xFF]) (.collapse8S 1020 1020 1) ∧
    ¬ InDomain (at1 1 1020 [0xFF, 0, 0, 0x100]) (.collapse8S 1020 1020 1) ∧
    ¬ InDomain (at1 1 0 []) (.collapse8S 0 1 4) := ⟨inside (by decide), outside (by decide), outside (by decide)⟩

/-- For Collapse8VectorResult. -/
theorem witness_collapse8V : InDomain (at1 2 1016 [1, 2, 3, 4, 5, 6, 7, 0xFF]) (.collapse8V 1016 0 2) ∧
    ¬ InDomain (at1 2 1020 [0xFF, 0, 0, 0xFF]) (.collapse8V 1020 0 1) := ⟨inside (by decide), outside (by decide)⟩

/-- For Expand16SerialResult. -/
theorem witness_expand16S : InDomain (at1 1 0 []) (.expand16S 1022 1022 1) ∧
    ¬ InDomain (at1 1 0 []) (.expand16S 1023 1023 1) ∧ ¬ InDomain (at1 1 0 []) (.expand16S 4 0 4) :=
  ⟨inside (by decide), outside (by decide), outside (by decide)⟩

/-- For Expand16VectorResult. -/
theorem witness_expand16V : InDomain (at1 2 0 []) (.expand16V 0 1020 2) ∧
    ¬ InDomain (at1 2 0 []) (.expand16V 0 1020 1) ∧ ¬ InDomain (at1 2 0 []) (.expand16V 0 1022 2) :=
  ⟨inside (by decide), outside (by decide), outside (by decide)⟩

/-- For Expand8SerialResult. -/
theorem witness_expand8S : InDomain (at1 1 0 []) (.expand8S 1020 1020 1) ∧
    ¬ InDomain (at1 1 0 []) (.expand8S 1021 1021 1) := ⟨inside (by decide), outside (by decide)⟩

/-- For Expand8VectorResult. -/
theorem witness_expand8V : InDomain (at1 2 0 []) (.expand8V 0 1016 2) ∧
    ¬ InDomain (at1 2 0 []) (.expand8V 0 1016 1) := ⟨inside (by decide), outside (by decide)⟩

/-- For PseudoInstructionsExpand: a plane count with no expansion. -/
theorem witness_noExpansion : (3 : Nat) ≠ 2 ∧ (3 : Nat) ≠ 4 := by decide

/-- For ShiftLevels: the narrowest width has 32 levels, the widest one. -/
theorem witness_shiftLevels : LegalWidth 1 ∧ 30 + 1 < vpw 1 ∧ LegalWidth 32 := by decide

/-- For PackedWordStructure: full slots at a width that leaves pad bits, and at 32. -/
theorem witness_packedWord : (LegalWidth 3 ∧ ∀ i, i < 32 / 3 → (7 : Word).toNat < 2 ^ 3) ∧
    (LegalWidth 32 ∧ ∀ i, i < 32 / 32 → (0xFFFFFFFF : Word).toNat < 2 ^ 32) := by decide

/-- For MergedWordStructure, at both plane counts. -/
theorem witness_mergedWord : (∀ j, j < 2 → (0xFFFF : Word).toNat < 2 ^ (32 / 2)) ∧
    (∀ j, j < 4 → (0xFF : Word).toNat < 2 ^ (32 / 4)) := by decide

/-- The command completes. -/
def completes (i : Instr) (s : State) : Bool :=
  match exec i s with
  | .next _ => true
  | _ => false

/-- The two commands complete, one after the other. -/
def completes2 (i j : Instr) (s : State) : Bool :=
  match exec i s with
  | .next t => completes j t
  | _ => false

theorem next_of_completes {i : Instr} {s : State} (h : completes i s = true) : ∃ t, exec i s = .next t := by
  unfold completes at h
  split at h
  · exact ⟨_, by assumption⟩
  · cases h

theorem next_of_completes2 {i j : Instr} {s : State} (h : completes2 i j s = true) :
    ∃ t u, exec i s = .next t ∧ exec j t = .next u := by
  unfold completes2 at h
  split at h
  · rename_i t ht
    obtain ⟨u, hu⟩ := next_of_completes h
    exact ⟨t, u, ht, hu⟩
  · cases h

/-- For PackThenUnpack: both forms of each, at a width with pad bits and at 32; `n = m * vpw(w)`. -/
theorem witness_packThenUnpack :
    (∃ t u, exec (.packS 3 0 10 10) (at1 2 0 [1, 2, 3, 4, 5, 6, 7, 0, 1, 7]) = .next t ∧
      exec (.unpackS 3 10 11 1) t = .next u) ∧
    (∃ t u, exec (.packV 16 0 8 4) (at1 2 0 [0xFFFF, 0, 1, 0xFFFF]) = .next t ∧
      exec (.unpackV 16 8 16 2) t = .next u) ∧
    (1 : Word).toNat = (10 : Word).toNat / (32 / 3) ∧ (2 : Word).toNat = (4 : Word).toNat / (32 / 16) :=
  ⟨next_of_completes2 (by decide), next_of_completes2 (by decide), by decide, by decide⟩

/-- For IdentityAtWidth32: the five commands. -/
theorem witness_identity :
    (∃ t, exec (.packS 32 0 16 2) (at1 1 0 [0xDEADBEEF, 0]) = .next t) ∧
    (∃ t, exec (.packV 32 0 16 2) (at1 1 0 [0xDEADBEEF, 0]) = .next t) ∧
    (∃ t, exec (.unpackS 32 0 16 2) (at1 1 0 []) = .next t) ∧ (∃ t, exec (.unpackV 32 0 16 2) (at1 1 0 []) = .next t) ∧
    assemble (.copy false 0 16 2) = some (.packS 32 0 16 2) ∧
    assemble (.copy true 0 16 2) = some (.packV 32 0 16 2) :=
  ⟨next_of_completes (by decide), next_of_completes (by decide), next_of_completes (by decide),
    next_of_completes (by decide), rfl, rfl⟩

/-- For SerialAndLaneFormsAgree: the six `.V` forms complete on canonical memories with two lanes, and with one. -/
theorem witness_formsAgree :
    Memory.wf 1024 (at1 2 0 [1, 2, 3, 4]).mem = true ∧
    (∃ t, exec (.packV 16 0 8 4) (at1 2 0 [1, 2, 3, 4]) = .next t) ∧
    (∃ t, exec (.packV 16 0 8 4) (at1 1 0 [1, 2, 3, 4]) = .next t) ∧
    (∃ t, exec (.unpackV 16 0 8 2) (at1 2 0 [1, 2, 3, 4]) = .next t) ∧
    (∃ t, exec (.collapse16V 0 0 2) (at1 2 0 [1, 2, 3, 4]) = .next t) ∧
    (∃ t, exec (.collapse8V 0 8 2) (at1 2 0 [1, 2, 3, 4, 5, 6, 7, 8]) = .next t) ∧
    (∃ t, exec (.expand16V 0 0 2) (at1 2 0 [1, 2, 3, 4]) = .next t) ∧
    (∃ t, exec (.expand8V 0 8 2) (at1 2 0 [1, 2, 3, 4]) = .next t) :=
  ⟨by decide, next_of_completes (by decide), next_of_completes (by decide), next_of_completes (by decide),
    next_of_completes (by decide), next_of_completes (by decide), next_of_completes (by decide),
    next_of_completes (by decide)⟩

/-- For PadBits: a packed word with pad bits, and two sources that differ in their pad bits only (T36). -/
theorem witness_padBits :
    (∃ t, exec (.packS 3 0 10 10) (at1 1 0 [7, 7, 7, 7, 7, 7, 7, 7, 7, 7]) = .next t) ∧
    (∃ t, exec (.unpackS 3 0 1 1) (at1 1 0 [0xFFFFFFFF]) = .next t) ∧
    (∃ t, exec (.unpackS 3 0 1 1) (at1 1 0 [0xFFFFFFFC]) = .next t) ∧
    ∀ j, j < 1 → ((at1 1 0 [0xFFFFFFFF]).mem.read (0 + j)).toNat / 2 ^ (32 % 3) =
      ((at1 1 0 [0xFFFFFFFC]).mem.read (0 + j)).toNat / 2 ^ (32 % 3) :=
  ⟨next_of_completes (by decide), next_of_completes (by decide), next_of_completes (by decide), by decide⟩

/-- For UnpackThenPack and UnpackLandsInDomain (T36). -/
theorem witness_unpackThenPack :
    (∃ t u, exec (.unpackS 3 0 1 1) (at1 1 0 [0xFFFFFFFF]) = .next t ∧ exec (.packS 3 1 11 10) t = .next u) ∧
    (∃ t u, exec (.unpackV 16 0 4 2) (at1 2 0 [0xFFFFFFFF, 0]) = .next t ∧ exec (.packV 16 4 8 4) t = .next u) ∧
    (10 : Word).toNat = (1 : Word).toNat * (32 / 3) ∧ (4 : Word).toNat = (2 : Word).toNat * (32 / 16) :=
  ⟨next_of_completes2 (by decide), next_of_completes2 (by decide), by decide, by decide⟩

/-- For CollapseInPlace: all four commands, two indices, so that each clause has an element. -/
theorem witness_collapseInPlace :
    (IsCollapse 2 8 8 2 (.collapse16S 8 8 2) ∧ InDomain (at1 1 8 [1, 2, 3, 4]) (.collapse16S 8 8 2)) ∧
    (IsCollapse 2 8 8 2 (.collapse16V 8 8 2) ∧ InDomain (at1 2 8 [1, 2, 3, 4]) (.collapse16V 8 8 2)) ∧
    (IsCollapse 4 8 8 2 (.collapse8S 8 8 2) ∧ InDomain (at1 1 8 [1, 2, 3, 4, 5, 6, 7, 8]) (.collapse8S 8 8 2)) ∧
    (IsCollapse 4 8 8 2 (.collapse8V 8 8 2) ∧ InDomain (at1 2 8 [1, 2, 3, 4, 5, 6, 7, 8]) (.collapse8V 8 8 2)) :=
  ⟨⟨.inl ⟨rfl, .inl rfl⟩, inside (by decide)⟩, ⟨.inl ⟨rfl, .inr rfl⟩, inside (by decide)⟩,
    ⟨.inr ⟨rfl, .inl rfl⟩, inside (by decide)⟩, ⟨.inr ⟨rfl, .inr rfl⟩, inside (by decide)⟩⟩

/-- For ExpandInPlace (and ExpandLandsInDomain): all four commands, and two memories that agree on the words. -/
theorem witness_expandInPlace :
    (IsExpand 2 8 8 2 (.expand16S 8 8 2) ∧ InDomain (at1 1 8 [1, 2]) (.expand16S 8 8 2) ∧
      InDomain (at1 1 8 [1, 2, 9, 9]) (.expand16S 8 8 2) ∧
      ∀ e, e < 2 → (at1 1 8 [1, 2, 9, 9]).mem.read (8 + e) = (at1 1 8 [1, 2]).mem.read (8 + e)) ∧
    (IsExpand 2 8 8 2 (.expand16V 8 8 2) ∧ InDomain (at1 2 8 [1, 2]) (.expand16V 8 8 2)) ∧
    (IsExpand 4 8 8 2 (.expand8S 8 8 2) ∧ InDomain (at1 1 8 [1, 2]) (.expand8S 8 8 2)) ∧
    (IsExpand 4 8 8 2 (.expand8V 8 8 2) ∧ InDomain (at1 2 8 [1, 2]) (.expand8V 8 8 2)) :=
  ⟨⟨.inl ⟨rfl, .inl rfl⟩, inside (by decide), inside (by decide), by decide⟩,
    ⟨.inl ⟨rfl, .inr rfl⟩, inside (by decide)⟩, ⟨.inr ⟨rfl, .inl rfl⟩, inside (by decide)⟩,
    ⟨.inr ⟨rfl, .inr rfl⟩, inside (by decide)⟩⟩

/-- For PlaneRoundTrips: collapse then expand to another place, expand then collapse, and both in place. -/
theorem witness_planeRoundTrips :
    (∃ t u, exec (.collapse8S 0 16 1) (at1 1 0 [0xCA, 0xFE, 0xBA, 0xBE]) = .next t ∧
      exec (.expand8V 16 32 1) t = .next u) ∧
    (∃ t u, exec (.expand16V 0 16 2) (at1 2 0 [0xCAFEBABE, 1]) = .next t ∧ exec (.collapse16S 16 32 2) t = .next u) ∧
    (∃ t u, exec (.expand16S 0 0 2) (at1 2 0 [0xCAFEBABE, 1]) = .next t ∧ exec (.collapse16V 0 0 2) t = .next u) :=
  ⟨next_of_completes2 (by decide), next_of_completes2 (by decide), next_of_completes2 (by decide)⟩

/-- For PlanesAreTransposedPacking: EXPAND8 beside UNPACK at width 8 (T59), COLLAPSE8 beside PACK at width 8. -/
theorem witness_transposed :
    ((∃ t, exec (.expand8S 0 8 2) (at1 1 0 [0xDEADBEEF, 0x01020304]) = .next t) ∧
      (∃ t, exec (.unpackS (32 / 4) 0 8 2) (at1 1 0 [0xDEADBEEF, 0x01020304]) = .next t)) ∧
    ((∃ t, exec (.collapse8S 0 8 2) (at1 1 0 [0xDE, 1, 0xAD, 2, 0xBE, 3, 0xEF, 4]) = .next t) ∧
      (∃ t, exec (.packS (32 / 4) 0 8 8) (at1 1 0 [0xDE, 0xAD, 0xBE, 0xEF, 1, 2, 3, 4]) = .next t) ∧
      (8 : Word).toNat = 4 * (2 : Word).toNat ∧
      ∀ j, j < 4 → ∀ e, e < 2 → (at1 1 0 [0xDE, 0xAD, 0xBE, 0xEF, 1, 2, 3, 4]).mem.read (0 + e * 4 + j) =
        (at1 1 0 [0xDE, 1, 0xAD, 2, 0xBE, 3, 0xEF, 4]).mem.read (0 + j * 2 + e)) :=
  ⟨⟨next_of_completes (by decide), next_of_completes (by decide)⟩, next_of_completes (by decide),
    next_of_completes (by decide), by decide, by decide⟩

/-! ## Witnesses: commands in general -/

/-- For ViolationsReported: a descriptor that breaks V6, beside source words that break V1 (only V6 is promised), and one
whose only violation is V1. -/
theorem witness_violations :
    Broken (at1 1 0 [16, 0, 0, 0, 0, 0, 0, 0]) (.packS 4 0 7 8) .overlap ∧
    refusal (.packS 4 0 7 8) (at1 1 0 [16, 0, 0, 0, 0, 0, 0, 0]) = some [.overlap] ∧
    Broken (at1 1 0 [16, 0, 0, 0, 0, 0, 0, 0]) (.packS 4 0 8 8) .valueTooWide ∧
    refusal (.packS 4 0 8 8) (at1 1 0 [16, 0, 0, 0, 0, 0, 0, 0]) = some [.valueTooWide] :=
  ⟨⟨⟨7, by decide⟩, trivial⟩, by decide, ⟨4, rfl, 0, by decide⟩, by decide⟩

/-- For ViolationsReported, last clause: the second command of `witness_violations` breaks nothing but V1. -/
theorem witness_onlyValueTooWide (v : Violation)
    (h : Broken (at1 1 0 [16, 0, 0, 0, 0, 0, 0, 0]) (.packS 4 0 8 8) v) :
    v = .valueTooWide ∨ v = .planeValueTooWide := by
  cases v with
  | valueTooWide => exact .inl rfl
  | planeValueTooWide => exact .inr rfl
  | lengthNotMultiple => obtain ⟨w, hw, h⟩ := h; cases hw; exact absurd (by decide) h
  | laneCondition => cases h.1
  | outOfBounds =>
    obtain ⟨a, h1, h2⟩ := h
    have h1 : 1024 ≤ a := h1
    have h2 : (0 ≤ a ∧ a < 8) ∨ (8 ≤ a ∧ a < 9) := h2
    omega
  | overlap =>
    obtain ⟨⟨a, h1, h2⟩, -⟩ := h
    have h1 : 0 ≤ a ∧ a < 8 := h1
    have h2 : 8 ≤ a ∧ a < 9 := h2
    omega
  | reserved => exact absurd (by decide) h
  | notPlain => obtain ⟨a, -, p, hp, -⟩ := h; cases hp
  | widthNotSupported =>
    obtain ⟨w, hw | hw, h⟩ := h
    · cases hw; exact absurd (by decide) h
    · cases hw
  | planeLengthNotSupported => obtain ⟨k, hk | hk, -⟩ := h <;> cases hk

/-- For OnlyHostAccessFaults: the first word that does not exist. -/
theorem witness_hostFault : step (idleWith [.read 1024]) = .fault (.noSuchWord 1024) ∧
    step (idleWith [.write 1024 0]) = .fault (.noSuchWord 1024) := ⟨rfl, rfl⟩

/-- For ResultDependsOnReadFootprintOnly and CommandsChangeOnlyMemory: two states that agree on `R(c)` and differ in the
destination, the build and elsewhere. -/
theorem witness_readFootprint :
    (∃ t, exec (.packS 16 0 8 2) (at1 1 0 [1, 2]) = .next t) ∧
    (∃ t, exec (.packS 16 0 8 2) (at2 4 0 [1, 2] 8 [0xFFFFFFFF, 9]) = .next t) ∧
    AgreeOn (reads (.packS 16 0 8 2)) (at1 1 0 [1, 2]).mem (at2 4 0 [1, 2] 8 [0xFFFFFFFF, 9]).mem := by
  refine ⟨next_of_completes (by decide), next_of_completes (by decide), fun a ha => ?_⟩
  have h : ∀ a, a < 2 → (at1 1 0 [1, 2]).mem.read a = (at2 4 0 [1, 2] 8 [0xFFFFFFFF, 9]).mem.read a := by decide
  exact h a (by have := ha.2; simpa [reads, readsOf, operands] using this)

/-- For EmptyCommandCompletes: a `.V` form that the lane condition admits, and a serial form at any address. -/
theorem witness_emptyCommand :
    ((Instr.packV 8 0 0 0).WellFormed ∧ (operands (.packV 8 0 0 0)).len = 0 ∧
      widthSupported (build 2) (operands (.packV 8 0 0 0)) = true ∧
      planeLengthSupported (build 2) (operands (.packV 8 0 0 0)) = true ∧ vpw 8 % (build 2).lanes = 0) ∧
    (operands (.expand8S 0xFFFFFFFF 5 0)).len = 0 := by decide

/-- Two instances, sixteen words listed (PRG5): instance 0 runs `PACK.S 8, 0, 8, 8`, instance 1 has made the transition of
`COLLAPSE16.S 16, 24, 2`. -/
def twoBusy (ms : List HostMove) : State :=
  { at2 1 0 [0xDE, 0xAD, 0xBE, 0xEF, 0, 1, 2, 0xFF] 16 [0xDEAD, 0xABCD, 0xBEEF, 0x1234] with
    cfg := { Config.vectors with nInst := 2 }
    insts := [⟨true, false, encode (.packS 8 0 8 8), Transients.reset 1⟩,
      ⟨true, true, encode (.collapse16S 16 24 2), Transients.reset 1⟩]
    moves := ms
    issued := 2 }

/-- For IndependentCommandsCommute: the two commands of PRG5. -/
theorem witness_commute : Memory.wf 1024 (twoBusy []).mem = true ∧
    Independent (.packS 8 0 8 8) (.collapse16S 16 24 2) ∧ InDomain (twoBusy []) (.packS 8 0 8 8) ∧
    InDomain (twoBusy []) (.collapse16S 16 24 2) :=
  ⟨by decide, by decide, inside (by decide), inside (by decide)⟩

/-! ## Witnesses: the machine -/

/-- Instance 0 idle, instance 1 busy with `PACK.S 8, 0, 8, 8`. -/
def secondBusy (ms : List HostMove) : State :=
  { twoBusy ms with
    insts := [Instance.reset 1, ⟨true, false, encode (.packS 8 0 8 8), Transients.reset 1⟩]
    issued := 1 }

/-- For StepRunsDecoded: told, waited for, alone (instance 0 idle, instance 1 busy), and placed by `withFetchWord`. -/
theorem witness_stepRuns :
    (∃ x, (twoBusy [.run 0]).insts[0]? = some x ∧ InFlight x (.packS 8 0 8 8) ∧ x.made = false) ∧
    (∃ x, (twoBusy [.issue 0 Descriptor.zero]).insts[0]? = some x ∧ InFlight x (.packS 8 0 8 8) ∧ x.made = false) ∧
    (∃ x, (secondBusy []).insts[1]? = some x ∧ InFlight x (.packS 8 0 8 8) ∧ x.made = false ∧
      ∀ j, j < 1 → ∀ y, (secondBusy []).insts[j]? = some y → y.busy = false) ∧
    decodeTableWord 32 0x00000403 = some (.expand8S 0 0 0) :=
  ⟨⟨_, rfl, ⟨rfl, rfl⟩, rfl⟩, ⟨_, rfl, ⟨rfl, rfl⟩, rfl⟩,
    ⟨_, rfl, ⟨rfl, rfl⟩, rfl, fun j hj y hy => by obtain rfl : j = 0 := Nat.lt_one_iff.1 hj; cases hy; rfl⟩, by decide⟩

/-- One instance busy with `PACK.S 8, 0, 8, 8`, the other idle. -/
def oneBusy (ms : List HostMove) : State :=
  { twoBusy ms with
    insts := [⟨true, false, encode (.packS 8 0 8 8), Transients.reset 1⟩, Instance.reset 1]
    issued := 1 }

/-- For IssueLatchesDescriptor: an idle instance beside a busy one whose command does not alias (PRG5). -/
theorem witness_issue :
    let s := oneBusy [.issue 1 (encode (.collapse16S 16 24 2))]
    s.insts[1]? = some (Instance.reset 1) ∧
    decode (encode (.collapse16S 16 24 2)) = .ok (.collapse16S 16 24 2) ∧ InDomain s (.collapse16S 16 24 2) ∧
    ∀ y ∈ s.insts, y.busy = true → ∃ j, decode y.cur = .ok j ∧ Independent (.collapse16S 16 24 2) j := by
  refine ⟨rfl, rfl, inside (by decide), fun y hy hb => ?_⟩
  simp only [oneBusy, List.mem_cons, List.not_mem_nil, or_false] at hy
  rcases hy with rfl | rfl
  · exact ⟨.packS 8 0 8 8, rfl, by decide⟩
  · cases hb

/-- For IssueRefusals: out of the domain (V1), and in it but aliasing the command in flight (PRG5's refused variant). -/
theorem witness_issueRefusals :
    (¬ InDomain (oneBusy [.issue 1 (encode (.packS 4 0 8 8))]) (.packS 4 0 8 8)) ∧
    InDomain (oneBusy [.issue 1 (encode (.unpackS 16 8 24 1))]) (.unpackS 16 8 24 1) ∧
    ∃ y ∈ (oneBusy [.issue 1 (encode (.unpackS 16 8 24 1))]).insts, ∃ j, InFlight y j ∧
      ¬ Independent (.unpackS 16 8 24 1) j :=
  ⟨outside (by decide), inside (by decide), _, List.mem_cons_self, .packS 8 0 8 8, ⟨rfl, rfl⟩, by decide⟩

/-- For DoneClearsBusy: instance 1 is busy and has made its transition. -/
theorem witness_done : ∃ x, (twoBusy [.run 1]).insts[1]? = some x ∧ x.busy = true ∧ x.made = true := ⟨_, rfl, rfl, rfl⟩

/-- For IssueToBusyWaits: an ISSUE to the busy instance 1, and the step answers a next state. -/
theorem witness_issueToBusy : (∃ x, (twoBusy [.issue 1 Descriptor.zero]).insts[1]? = some x ∧ x.busy = true) ∧
    ∃ t, step (twoBusy [.issue 1 Descriptor.zero]) = .next t := ⟨⟨_, rfl, rfl⟩, _, rfl⟩

/-- For IssuedCommandReachesDone: scenario A (S1) issued to the one, idle instance. -/
theorem witness_reachesDone :
    (∃ x, (idleWith [.issue 0 (encode (.packS 4 0 8 8))]).insts[0]? = some x) ∧
    (∀ y ∈ (idleWith [.issue 0 (encode (.packS 4 0 8 8))]).insts, y.busy = false) ∧
    decode (encode (.packS 4 0 8 8)) = .ok (.packS 4 0 8 8) ∧
    InDomain (idleWith [.issue 0 (encode (.packS 4 0 8 8))]) (.packS 4 0 8 8) ∧
    (idleWith [.issue 0 (encode (.packS 4 0 8 8))]).issued = (idleWith [.issue 0 (encode (.packS 4 0 8 8))]).completed :=
  ⟨⟨_, rfl⟩, by decide, rfl, inside (by decide), rfl⟩

/-- The invariant holds of a machine with two commands in flight, one of them executed, and any moves: for StepKeepsInv,
AcceptedCommandCompletes, OnlyHostMovesAreRefused, ResetEventAbandons, HostKeepsOffFootprints. -/
theorem witness_inv (ms : List HostMove) : Inv (twoBusy ms) where
  legal := by
    change Config.Legal (twoBusy []).cfg
    exact ⟨by decide, by decide, by decide, by decide, by decide⟩
  memory := by change Memory.wf 1024 (twoBusy []).mem = true; decide
  count := rfl
  vectors := by
    change ∀ x ∈ (twoBusy []).insts, x.regs.v.length = 1 ∧ x.regs.a.length = 1 ∧ x.regs.t.length = 1
    decide
  idle := by change ∀ x ∈ (twoBusy []).insts, _; decide
  inFlight x hx hb := by
    simp only [twoBusy, List.mem_cons, List.not_mem_nil, or_false] at hx
    rcases hx with rfl | rfl
    · refine ⟨.packS 8 0 8 8, rfl, ?_, fun _ => ?_⟩
      · change staticViolations (twoBusy []).cfg _ = []
        decide
      · change violations (twoBusy []).cfg _ (twoBusy []).mem = []
        decide
    · refine ⟨.collapse16S 16 24 2, rfl, ?_, fun h => by cases h⟩
      change staticViolations (twoBusy []).cfg _ = []
      decide
  independent j k x y p q hjk hx hy hbx hby hp hq := by
    have ind : Independent (.packS 8 0 8 8) (.collapse16S 16 24 2) := by decide
    match j, k with
    | 0, 0 => exact absurd rfl hjk
    | 0, 1 => cases hx; cases hy; cases hp; cases hq; exact ind
    | 1, 0 => cases hx; cases hy; cases hp; cases hq; exact ind.symm
    | 1, 1 => exact absurd rfl hjk
    | j + 2, _ => cases hx
    | 0, k + 2 => cases hy
    | 1, k + 2 => cases hy
  counted := by
    change (twoBusy []).completed + (twoBusy []).insts.countP (·.busy) ≤ (twoBusy []).issued
    decide

/-- For StepKeepsInv, AcceptedCommandCompletes and OnlyHostMovesAreRefused: the step of a told instance answers a next
state, and the host's look at a running destination is refused. -/
theorem witness_steps : (∃ t, step (twoBusy [.run 0]) = .next t) ∧ (∃ t, step (twoBusy []) = .next t) ∧
    step (twoBusy [.read 8]) = .refused (.hostTouchesFootprint 8) := by
  refine ⟨?_, ?_, rfl⟩
  · exact next_of_completes (i := .packS 8 0 8 8) (s := twoBusy []) (by decide)
  · exact next_of_completes (i := .packS 8 0 8 8) (s := twoBusy []) (by decide)

/-- For ResetMeetsInv: the build of the vectors, and the smallest one, are legal. -/
theorem witness_legal : Config.vectors.Legal ∧
    Config.Legal ⟨1, 1, 1, [1, 2, 4, 8, 16, 32], none, some 64, []⟩ :=
  ⟨⟨by decide, by decide, by decide, by decide, by decide⟩, ⟨by decide, by decide, by decide, by decide, by decide⟩⟩

/-- For ResetEventAbandons: the word 8 is in an abandoned footprint, the word 0 in none. -/
theorem witness_abandon : (writes (.packS 8 0 8 8)).Has 8 ∧ (writes (.packS 8 0 8 8)).Has 9 ∧
    ¬ (writes (.packS 8 0 8 8)).Has 10 ∧ ¬ (writes (.collapse16S 16 24 2)).Has 10 := by decide

/-- For HostKeepsOffFootprints: words 0 and 8 are in footprints of instance 0, word 10 in none; word 0 may be read. -/
theorem witness_host : (10 < (twoBusy []).cfg.memWords ∧ ∀ p ∈ (twoBusy []).cfg.notPlain, ¬ (p.1 ≤ 10 ∧ 10 < p.1 + p.2)) ∧
    step (twoBusy [.read 0]) = .next (twoBusy []) ∧ step (twoBusy [.read 9]) = .refused (.hostTouchesFootprint 9) ∧
    step (twoBusy [.write 0 1]) = .refused (.hostTouchesFootprint 0) ∧
    (∃ t, step (twoBusy [.write 10 1]) = .next t) := ⟨by decide, rfl, rfl, rfl, _, rfl⟩

/-! ## Witnesses: the checker -/

/-- For PerturbedLaneIsReported: two equal regions of two words, the second lane perturbed. -/
theorem witness_perturbed : Footprint.Disjoint ⟨0, 2⟩ ⟨2, 2⟩ ∧ 1 < 2 ∧
    compareRegions (at1 1 0 [5, 6, 5, 6]).mem 0 2 2 = .ok ∧ (7 : Word) ≠ (at1 1 0 [5, 6, 5, 6]).mem.read (2 + 1) := by
  decide

/-- For CheckerNeverFails: PACK on one shared source on instance 1 beside the command in flight on instance 0, which it does
not alias, and COLLAPSE8 in place on two clones. -/
theorem witness_checker :
    (SameOperation (.packS 32 16 40 2) (.packV 32 16 48 2) ∧ Separate (.packS 32 16 40 2) (.packV 32 16 48 2) ∧
      (oneBusy []).insts[1]? = some (Instance.reset 1) ∧ InDomain (oneBusy []) (.packS 32 16 40 2) ∧
      InDomain (oneBusy []) (.packV 32 16 48 2) ∧ decode (encode (.packS 8 0 8 8)) = .ok (.packS 8 0 8 8) ∧
      Independent (.packS 32 16 40 2) (.packS 8 0 8 8) ∧ Independent (.packV 32 16 48 2) (.packS 8 0 8 8)) ∧
    (SameOperation (.collapse8S 0 0 1) (.collapse8V 8 8 1) ∧ Separate (.collapse8S 0 0 1) (.collapse8V 8 8 1) ∧
      InDomain (at2 1 0 [1, 2, 3, 4] 8 [1, 2, 3, 4]) (.collapse8S 0 0 1) ∧
      InDomain (at2 1 0 [1, 2, 3, 4] 8 [1, 2, 3, 4]) (.collapse8V 8 8 1) ∧
      ∀ t, t < 4 → (at2 1 0 [1, 2, 3, 4] 8 [1, 2, 3, 4]).mem.read (0 + t) =
        (at2 1 0 [1, 2, 3, 4] 8 [1, 2, 3, 4]).mem.read (8 + t)) :=
  ⟨⟨by decide, by decide, rfl, inside (by decide), inside (by decide), rfl, by decide, by decide⟩,
    by decide, by decide, inside (by decide), inside (by decide), by decide⟩

/-- For CheckerProcedureSucceeds: T61, COLLAPSE8 in place with two lanes. -/
theorem witness_procedure :
    let input : List Word := [0xDE, 1, 0xAD, 2, 0xBE, 3, 0xEF, 4]
    let s := { at1 2 0 [] with mem := placed (placed [] 0 input) 8 input }
    SameOperation (.collapse8S 0 0 2) (.collapse8V 8 8 2) ∧ Separate (.collapse8S 0 0 2) (.collapse8V 8 8 2) ∧
      (reads (.collapse8S 0 0 2)).Disjoint (reads (.collapse8V 8 8 2)) ∧
      input.length = (reads (.collapse8S 0 0 2)).len ∧ (∀ y ∈ s.insts, y.busy = false) ∧ 0 < s.insts.length ∧
      InDomain s (.collapse8S 0 0 2) ∧ InDomain s (.collapse8V 8 8 2) :=
  ⟨by decide, by decide, by decide, by decide, by decide, by decide, inside (by decide), inside (by decide)⟩

/-! ## The end of a run -/

/-- For RunEndsExactly (with `witness_inv`): both commands of `twoBusy` are in flight, so it has not ended; an idle machine
with a write left
has, and one with an ISSUE left has not. -/
theorem witness_runEnds : (twoBusy []).ended = false ∧ (idleWith [.write 0 1]).ended = true ∧
    (idleWith [.issue 0 Descriptor.zero]).ended = false := by decide

/-- R192: a reset after the ISSUE leaves a run that has not ended and has no result. -/
theorem test_cutRun :
    let s := idleWith [.issue 0 (encode (.packS 4 0 8 8)), .reset]
    (match Host.Core.run Sys2Proof.core 2 s with
      | .next t => t.insts.all (!·.busy) && t.moves.isEmpty && !t.ended
      | _ => false) = true ∧ s.result 5 = none := by decide

/-- A run that begins with both instances busy (log entry 25) has not ended, and has when both have produced DONE. -/
theorem test_beginRun_busy : ((twoBusy []).beginRun []).ended = false ∧
    (match Host.Core.run Sys2Proof.core 3 ((twoBusy []).beginRun []) with
      | .next t => t.ended
      | _ => false) = true := by decide

/-- For RunEndsExactly, its clauses on a reset: `twoBusy` is reset, the state after it is cut, and goes on. -/
theorem witness_cutRun : (∃ x ∈ (twoBusy [.reset]).insts, x.busy = true) ∧
    ∃ t, step (twoBusy [.reset]) = .next t ∧ CutByReset t ∧ step t = .next t :=
  ⟨⟨_, List.mem_cons_self, rfl⟩, _, rfl, by decide, rfl⟩

/-- For RunResultIsMemoryAtEnd: S1 with a host write to its output after the end (R192: the result is the memory when the
run ended, `0x12345678` at word 8). -/
theorem witness_runResult :
    let s := idleWith [.issue 0 (encode (.packS 4 0 8 8)), .run 0, .run 0, .write 8 0]
    (∀ m ∈ [HostMove.write 8 0], m.isIssue = false) ∧ (∀ y ∈ s.insts, y.busy = false) ∧
      InDomain s (.packS 4 0 8 8) ∧ s.issued = s.completed ∧ (s.result 3).map (·.read 8) = some 0x12345678 :=
  ⟨by decide, by decide, inside (by decide), rfl, by decide⟩

end Sys2Proof.Tests
end

section
/-! The invariant of the machine is kept by every step (R8, R22, R27, R40, R56, R84, R192, R194). The moves that leave the
instances alone are `inv_of_same_insts`; ISSUE, the transition and DONE replace one of them and write no word that
another command in flight reads, `inv_of_replace`; the reset event resets them all, `inv_of_reset_insts`. -/

namespace Sys2Proof.Proofs.Invariant

open Sys2Proof.Machine Sys2Proof.Safety

/-! ## The words a command in flight reads -/

/-- Words written in the range `f` leave a range that `f` does not meet as it was. -/
theorem agreeOn_of_writes_disjoint {m m' : Memory} {f g : Footprint} {F : Nat → Word} (hw : Writes m m' f.Has F)
    (hd : f.Disjoint g) : AgreeOn g m m' := fun a ha =>
  (hw.read_miss fun hf => (disjoint_iff f g).1 hd a hf ha).symm

theorem agreeOn_write {m : Memory} {f : Footprint} {a : Nat} (x : Word) (ha : ¬ f.Has a) :
    AgreeOn f m (m.write a x) := by
  intro b hb
  have hne : b ≠ a := fun hba => ha (hba ▸ hb)
  exact (Memory.read_write_other m x hne).symm

/-- A command stays in its domain while the words of its read footprint stay. -/
theorem violations_nil_of_agreeOn {c : Config} {i : Instr} {m m' : Memory} (ha : AgreeOn (reads i) m m')
    (h : violations c i m = []) : violations c i m' = [] := by
  obtain ⟨hstatic, hdata⟩ := (violations_nil c i m).1 h
  exact (violations_nil c i m').2 ⟨hstatic, dataViolations_congr ha hdata⟩

/-! ## What the invariant says of one `Instance` -/

/-- The clauses of `Inv` about one of the instances, in a build and a memory. -/
structure InstanceOk (c : Config) (m : Memory) (x : Instance) : Prop where
  vectors : x.regs.v.length = c.lanes ∧ x.regs.a.length = c.lanes ∧ x.regs.t.length = c.lanes
  idle : x.busy = false → x.made = false
  inFlight : x.busy = true → ∃ i, decode x.cur = .ok i ∧ staticViolations c i = [] ∧
    (x.made = false → violations c i m = [])

theorem instanceOk_of_inv {s : State} (h : Inv s) {x : Instance} (hx : x ∈ s.insts) : InstanceOk s.cfg s.mem x :=
  ⟨h.vectors x hx, h.idle x hx, h.inFlight x hx⟩

theorem instanceOk_of_agreeOn {c : Config} {m m' : Memory} {x : Instance} (h : InstanceOk c m x)
    (ha : ∀ i, InFlight x i → AgreeOn (reads i) m m') : InstanceOk c m' x where
  vectors := h.vectors
  idle := h.idle
  inFlight hb := by
    obtain ⟨i, hd, hstatic, hdomain⟩ := h.inFlight hb
    exact ⟨i, hd, hstatic, fun hm => violations_nil_of_agreeOn (ha i ⟨hb, hd⟩) (hdomain hm)⟩

section
variable {c : Config} {m : Memory} {x : Instance} {i : Instr}

theorem instanceOk_reset : InstanceOk c m (Instance.reset c.lanes) where
  vectors := ⟨Transients.reset_v_length _, Transients.reset_a_length _, Transients.reset_t_length _⟩
  idle _ := rfl
  inFlight := nofun

/-- After ISSUE of a command in its domain. -/
theorem instanceOk_issued {d : Descriptor} (h : InstanceOk c m x) (hd : decode d = .ok i)
    (hdomain : violations c i m = []) : InstanceOk c m { x with busy := true, made := false, cur := d } where
  vectors := h.vectors
  idle := nofun
  inFlight _ := ⟨i, hd, ((violations_nil c i m).1 hdomain).1, fun _ => hdomain⟩

/-- After the transition, in whatever memory: the input is not looked at again. -/
theorem instanceOk_committed (n : Nat) (hi : InFlight x i) (hstatic : staticViolations c i = []) :
    InstanceOk c m { x with made := true, regs := Transients.free c.lanes n } where
  vectors := ⟨Transients.free_v_length _ _, Transients.free_a_length _ _, Transients.free_t_length _ _⟩
  idle hb := nomatch hi.1.symm.trans hb
  inFlight _ := ⟨i, hi.2, hstatic, nofun⟩

/-- After DONE, whatever `cur` holds (R22). -/
theorem instanceOk_done {d : Descriptor} (h : InstanceOk c m x) :
    InstanceOk c m { x with busy := false, made := false, cur := d } where
  vectors := h.vectors
  idle _ := rfl
  inFlight := nofun

end

/-! ## Commands in flight do not alias (R56) -/

/-- The command `p` is in flight on one of the instances other than number `k`. -/
def InFlightBeside (xs : List Instance) (k : Nat) (p : Instr) : Prop :=
  ∃ j z, j ≠ k ∧ xs[j]? = some z ∧ InFlight z p

/-- No two commands in flight alias. -/
def CommandsApart (xs : List Instance) : Prop :=
  ∀ k x p q, xs[k]? = some x → InFlight x p → InFlightBeside xs k q → Independent p q

theorem commandsApart_of_inv {s : State} (h : Inv s) : CommandsApart s.insts := by
  rintro k x p q hx ⟨hxb, hxp⟩ ⟨j, y, hj, hy, hyb, hyq⟩
  exact h.independent k j x y p q hj.symm hx hy hxb hyb hxp hyq

theorem commandsApart_of_idle {xs : List Instance} (h : ∀ x ∈ xs, x.busy = false) : CommandsApart xs := by
  rintro k x p q hx ⟨hb, -⟩ -
  rw [h x (List.mem_of_getElem? hx)] at hb
  cases hb

theorem getElem?_set_cases {xs : List Instance} {k j : Nat} {x y : Instance} (h : (xs.set k y)[j]? = some x) :
    j = k ∧ x = y ∨ j ≠ k ∧ xs[j]? = some x := by
  rw [List.getElem?_set] at h
  split_ifs at h with hkj hlt
  · exact .inl ⟨hkj.symm, (Option.some.inj h).symm⟩
  · exact .inr ⟨Ne.symm hkj, h⟩

/-- Number `k` replaced: the new command in flight there, if any, must not alias those beside it. -/
theorem commandsApart_set {xs : List Instance} {k : Nat} {y : Instance} (h : CommandsApart xs)
    (hy : ∀ p, InFlight y p → ∀ q, InFlightBeside xs k q → Independent p q) : CommandsApart (xs.set k y) := by
  rintro a x p q hx hp ⟨b, z, hba, hz, hq⟩
  obtain ⟨rfl, rfl⟩ | ⟨hak, hx'⟩ := getElem?_set_cases hx
  · obtain ⟨rfl, -⟩ | ⟨hbk, hz⟩ := getElem?_set_cases hz
    · exact absurd rfl hba
    · exact hy p hp q ⟨b, z, hbk, hz, hq⟩
  · obtain ⟨rfl, rfl⟩ | ⟨-, hz'⟩ := getElem?_set_cases hz
    · exact (hy q hq p ⟨a, x, hak, hx', hp⟩).symm
    · exact h a x p q hx' hp ⟨b, z, hba, hz', hq⟩

/-- A command that ISSUE finds no conflict for aliases no command in flight. -/
theorem independent_of_no_conflict {xs : List Instance} {k : Nat} {i q : Instr}
    (hc : xs.any (·.conflictsWith i) = false) (hq : InFlightBeside xs k q) : Independent i q := by
  obtain ⟨j, z, -, hz, hb, hd⟩ := hq
  have hfree := List.any_eq_false.1 hc z (List.mem_of_getElem? hz)
  obtain ⟨q', hd', hind⟩ := conflictsWith_iff.1 (by simpa using hfree) hb
  rw [hd] at hd'
  cases hd'
  exact hind

/-- A word the host may write is read by no command in flight (R194). -/
theorem not_reads_of_untouched {xs : List Instance} {a : Nat} (ht : xs.any (·.touches a) = false) {x : Instance}
    (hx : x ∈ xs) {i : Instr} (hi : InFlight x i) : ¬ (reads i).Has a := by
  intro ha
  have htouches : x.touches a = true := (touches_iff fun _ => ⟨i, hi.2⟩).2 ⟨i, hi, .inl ha⟩
  exact List.any_eq_false.1 ht x hx htouches

/-! ## The shapes of a step -/

section
variable {s t : State} (h : Inv s) (hcfg : t.cfg = s.cfg) (hmem : Memory.wf s.cfg.memWords t.mem = true)
  (hcounted : t.completed + t.insts.countP (·.busy) ≤ t.issued)
include h hcfg hmem hcounted

/-- The invariant from its parts, in a state of the same build. -/
theorem inv_of_instanceOk (hcount : t.insts.length = s.insts.length)
    (hok : ∀ x ∈ t.insts, InstanceOk s.cfg t.mem x) (hapart : CommandsApart t.insts) : Inv t where
  legal := hcfg ▸ h.legal
  memory := hcfg ▸ hmem
  count := by rw [hcount, hcfg, h.count]
  vectors x hx := hcfg ▸ (hok x hx).vectors
  idle x hx := (hok x hx).idle
  inFlight x hx := hcfg ▸ (hok x hx).inFlight
  independent j k x y p q hjk hx hy hxb hyb hp hq :=
    hapart j x p q hx ⟨hxb, hp⟩ ⟨k, y, hjk.symm, hy, hyb, hq⟩
  counted := hcounted

/-- The instances are as they were, and so is every word a command in flight reads. -/
theorem inv_of_same_insts (hinsts : t.insts = s.insts)
    (hkept : ∀ x ∈ s.insts, ∀ i, InFlight x i → AgreeOn (reads i) s.mem t.mem) : Inv t := by
  refine inv_of_instanceOk h hcfg hmem hcounted (by rw [hinsts]) ?_ (hinsts ▸ commandsApart_of_inv h)
  intro x hx
  rw [hinsts] at hx
  exact instanceOk_of_agreeOn (instanceOk_of_inv h hx) (hkept x hx)

/-- Number `k` of the instances is replaced, and every word a command beside it reads is as it was. -/
theorem inv_of_replace {k : Nat} {y : Instance} (hinsts : t.insts = s.insts.set k y) (hy : InstanceOk s.cfg t.mem y)
    (hapart : ∀ p, InFlight y p → ∀ q, InFlightBeside s.insts k q → Independent p q)
    (hkept : ∀ q, InFlightBeside s.insts k q → AgreeOn (reads q) s.mem t.mem) : Inv t := by
  refine inv_of_instanceOk h hcfg hmem hcounted (by rw [hinsts, List.length_set]) ?_
    (hinsts ▸ commandsApart_set (commandsApart_of_inv h) hapart)
  intro x hx
  rw [hinsts] at hx
  obtain ⟨j, hj⟩ := List.mem_iff_getElem?.1 hx
  obtain ⟨-, rfl⟩ | ⟨hjk, hj⟩ := getElem?_set_cases hj
  · exact hy
  · exact instanceOk_of_agreeOn (instanceOk_of_inv h (List.mem_of_getElem? hj)) fun q hq => hkept q ⟨j, x, hjk, hj, hq⟩

/-- All instances are reset. -/
theorem inv_of_reset_insts (hinsts : t.insts = s.insts.map fun _ => Instance.reset s.cfg.lanes) : Inv t := by
  have hreset : ∀ x ∈ t.insts, x = Instance.reset s.cfg.lanes := by simp [hinsts]
  refine inv_of_instanceOk h hcfg hmem hcounted (by rw [hinsts, List.length_map]) ?_ ?_
  · exact fun x hx => hreset x hx ▸ instanceOk_reset
  · exact commandsApart_of_idle fun x hx => hreset x hx ▸ rfl

end

/-- A transition replaces the active one of the instances. -/
theorem commit_insts {s : State} {x : Instance} (e : Engine) (hx : s.insts[s.active]? = some x) :
    (s.commit e).insts =
      s.insts.set s.active { x with made := true, regs := Transients.free s.cfg.lanes s.fresh } := by
  rw [State.commit, List.modify_eq_set_getElem?, hx]
  rfl

/-! ## The steps -/

theorem counted_of_step {s t : State} (h : Inv s) (hstep : step s = .next t) :
    t.completed + t.insts.countP (·.busy) ≤ t.issued := by
  have := step_counts hstep
  have := h.counted
  omega

/-- Settles O50: each way a step goes on (`step_to`) has one of the shapes above. -/
theorem stepKeepsInv : Obligations.StepKeepsInv := by
  intro s t h hstep
  have hcounted := counted_of_step h hstep
  have hok {k : Nat} {x : Instance} (hx : s.insts[k]? = some x) := instanceOk_of_inv h (List.mem_of_getElem? hx)
  cases step_to hstep with
  | idle => exact h
  | hostRead => exact inv_of_same_insts h rfl h.memory hcounted rfl fun _ _ _ _ _ _ => rfl
  | runIdle => exact inv_of_same_insts h rfl h.memory hcounted rfl fun _ _ _ _ _ _ => rfl
  | hostWrite a v rest _ ha huntouched =>
    exact inv_of_same_insts h rfl (Memory.wf_write v h.memory ha) hcounted rfl fun x hx i hi =>
      agreeOn_write v (not_reads_of_untouched huntouched hx hi)
  | issue k x d i rest _ hx _ hd hdomain hfree =>
    refine inv_of_replace h rfl h.memory hcounted rfl (instanceOk_issued (hok hx) hd hdomain) ?_ fun _ _ _ _ => rfl
    rintro p ⟨-, hp⟩ q hq
    cases hd.symm.trans hp
    exact independent_of_no_conflict hfree hq
  | transition k x i rest _ hx hi _ hdomain =>
    have hstatic := ((violations_nil _ _ _).1 hdomain).1
    have hapart := commandsApart_of_inv h k x
    let u : State := { s with moves := rest, active := k }
    refine inv_of_replace h rfl (datapathOf_wf hstatic u.engine h.memory) hcounted (commit_insts _ hx)
      (instanceOk_committed _ hi hstatic) ?_ ?_
    · exact fun p hp q hq => hapart p q hx hp hq
    · intro q hq
      obtain ⟨hwritesReads, -⟩ := hapart i q hx hi hq
      exact agreeOn_of_writes_disjoint (datapathOf_writes hstatic u.engine) hwritesReads
  | done k x rest _ hx =>
    exact inv_of_replace h rfl h.memory hcounted rfl (instanceOk_done (hok hx)) nofun fun _ _ _ _ => rfl
  | reset =>
    have hsound : ∀ x ∈ s.insts, x.busy = true → ∃ i, decode x.cur = .ok i ∧ staticViolations s.cfg i = [] := by
      intro x hx hb
      obtain ⟨i, hd, hstatic, -⟩ := h.inFlight x hx hb
      exact ⟨i, hd, hstatic⟩
    exact inv_of_reset_insts h rfl (abandon_all s.cfg s.insts _ hsound h.memory).1 hcounted rfl

end Sys2Proof.Proofs.Invariant
end

section
/-! The shift levels of a packed word (R12, R100). -/

namespace Sys2Proof.Proofs.ShiftLevels

open Sys2Proof.Machine

/-- The values of a word and its pad bits fill it (R12). -/
theorem vpw_mul_add_pad (w : Nat) : vpw w * w + pad w = 32 := Nat.div_add_mod' 32 w

/-- Each shift level is `w` below the one before it. -/
theorem sh_succ_add {w i : Nat} (hi : i + 1 < vpw w) : sh w (i + 1) + w = sh w i := by
  have hfits : (i + 2) * w ≤ vpw w * w := Nat.mul_le_mul_right w hi
  have hfill := vpw_mul_add_pad w
  rw [Nat.add_mul] at hfits
  rw [sh, sh, Nat.add_mul]
  omega

/-- The last shift level leaves the pad bits. -/
theorem sh_last {w : Nat} (h : LegalWidth w) : sh w (vpw w - 1) = pad w := by
  have hfill := vpw_mul_add_pad w
  obtain ⟨n, hn⟩ : ∃ n, vpw w = n + 1 := Nat.exists_eq_add_one.2 (vpw_pos h)
  rw [hn, Nat.succ_mul] at hfill
  rw [hn, sh, Nat.add_sub_cancel]
  omega

/-- Every shift level is a shift of a word (R10). -/
theorem sh_le_31 {w : Nat} (h : LegalWidth w) (i : Nat) : sh w i ≤ 31 := by
  obtain ⟨hpos, -⟩ := h
  rw [sh]
  omega

/-- Settles O11: all of it follows from `vpw w * w + pad w = 32`, but for the mask. -/
theorem shiftLevels : Obligations.ShiftLevels := by
  intro w h
  refine ⟨rfl, rfl, vpw_mul_add_pad w, vpw_pos h, ?_, fun _ => sh_succ_add, sh_last h, sh_le_31 h, mask_toNat h.2, rfl⟩
  rw [sh, Nat.zero_mul, Nat.sub_zero]

end Sys2Proof.Proofs.ShiftLevels
end

section
/-! What a transition leaves alone beside the memory (R20, R25, R26, R52). -/

namespace Sys2Proof.Proofs.TransitionFrame

open Sys2Proof.Machine Sys2Proof.Safety

/-- Whatever the datapath answers, the end of a transition touches only `made` and the transient registers of the
one `Instance` that moves. -/
theorem onlyTransition_commit (s : State) (e : Engine) : OnlyTransition s (s.commit e) where
  cfg := rfl
  moves := rfl
  active := rfl
  fresh := Nat.le_add_right _ _
  counters := ⟨rfl, rfl⟩
  count := s.commit_count e
  others k hk := by simp [State.commit_inst, hk]
  mover x hx := by simp [State.commit_inst, hx]

/-- Settles O38: a command that completes is a `commit` of its datapath (`exec_next`). -/
theorem commandsChangeOnlyMemory : Obligations.CommandsChangeOnlyMemory := by
  intro i s t h
  obtain ⟨-, rfl⟩ := exec_next.1 h
  exact onlyTransition_commit s _

end Sys2Proof.Proofs.TransitionFrame
end

section
/-! The machine after power-on reset (R30, R31, R180) and after the reset event (R33, R190). -/

namespace Sys2Proof.Proofs.Reset

open Sys2Proof.Machine Sys2Proof.Safety Sys2Proof.Proofs.Invariant

/-! ## Power-on reset -/

section
variable {c : Config} {x : Instance}

theorem eq_reset_of_mem_resetWith (hx : x ∈ (State.resetWith c).insts) : x = Instance.reset c.lanes :=
  List.eq_of_mem_replicate hx

theorem idle_of_mem_resetWith (hx : x ∈ (State.resetWith c).insts) : x.busy = false := by
  rw [eq_reset_of_mem_resetWith hx]
  rfl

theorem not_made_of_mem_resetWith (hx : x ∈ (State.resetWith c).insts) : x.made = false := by
  rw [eq_reset_of_mem_resetWith hx]
  rfl

theorem instanceOk_of_mem_resetWith (hx : x ∈ (State.resetWith c).insts) : InstanceOk c [] x := by
  rw [eq_reset_of_mem_resetWith hx]
  exact instanceOk_reset

theorem resetWith_count (c : Config) : (State.resetWith c).insts.length = c.nInst := List.length_replicate

theorem resetWith_busyCount (c : Config) : (State.resetWith c).insts.countP (·.busy) = 0 :=
  List.countP_eq_zero.2 fun _ hx => by simp [idle_of_mem_resetWith hx]

end

/-- Every `Instance` meets its part of the invariant, and with none busy no two commands meet. -/
theorem inv_resetWith {c : Config} (h : c.Legal) : Inv (State.resetWith c) where
  legal := h
  memory := rfl
  count := resetWith_count c
  vectors _ hx := (instanceOk_of_mem_resetWith hx).vectors
  idle _ hx := (instanceOk_of_mem_resetWith hx).idle
  inFlight _ hx := (instanceOk_of_mem_resetWith hx).inFlight
  independent j k x y p q hjk hx hy hxb hyb hp hq :=
    commandsApart_of_idle (fun _ => idle_of_mem_resetWith) j x p q hx ⟨hxb, hp⟩ ⟨k, y, hjk.symm, hy, hyb, hq⟩
  counted := by
    rw [resetWith_busyCount]
    exact Nat.le_refl 0

/-- The build of the test vectors is one R8 allows. -/
theorem vectors_legal : Config.vectors.Legal :=
  ⟨by decide, by decide, by decide, by decide, by decide⟩

/-- Settles O51: `State.reset` is the reset with the build of the vectors. -/
theorem resetMeetsInv : Obligations.ResetMeetsInv := ⟨inv_resetWith vectors_legal, fun _ => inv_resetWith⟩

/-- Settles O52: after reset the instances are `N_INST` copies of `Instance.reset`, and the memory lists no word. -/
theorem resetLeavesIdle : Obligations.ResetLeavesIdle := fun c =>
  ⟨resetWith_count c, fun _ hx => ⟨idle_of_mem_resetWith hx, not_made_of_mem_resetWith hx⟩, fun _ => rfl, rfl, rfl, rfl,
    rfl⟩

/-! ## The reset event -/

section
variable {s : State} (h : Inv s)
include h

/-- A command in flight is one that ISSUE accepts by its form (R84). -/
theorem accepted_of_inv : ∀ x ∈ s.insts, x.busy = true → ∃ i, decode x.cur = .ok i ∧ staticViolations s.cfg i = [] := by
  intro x hx hb
  obtain ⟨i, hd, hstatic, -⟩ := h.inFlight x hx hb
  exact ⟨i, hd, hstatic⟩

theorem all_sound_of_inv : s.insts.all (Instance.sound s.cfg) = true := by
  refine List.all_eq_true.2 fun x hx => ?_
  cases hb : x.busy with
  | false => simp [Instance.sound, hb]
  | true =>
    obtain ⟨i, hd, hstatic⟩ := accepted_of_inv h x hx hb
    simp [Instance.sound, hd, hstatic]

/-- Under the invariant the reset event is never refused. -/
theorem step_reset_of_inv {rest : List HostMove} (hm : s.moves = .reset :: rest) :
    step s = .next { s with
      moves := rest
      mem := (s.insts.foldl (fun p x => abandon x p) (s.mem, s.fresh)).1
      insts := s.insts.map fun _ => Instance.reset s.cfg.lanes
      fresh := (s.insts.foldl (fun p x => abandon x p) (s.mem, s.fresh)).2 } := by
  rw [step, hm]
  exact if_pos (all_sound_of_inv h)

end

/-- Settles O53: `step_reset_of_inv` says what the reset answers, and `abandon_all` what it keeps of the memory. -/
theorem resetEventAbandons : Obligations.ResetEventAbandons := by
  intro s rest h hm
  obtain ⟨-, hkept⟩ := abandon_all s.cfg s.insts (s.mem, s.fresh) (accepted_of_inv h) h.memory
  refine ⟨_, step_reset_of_inv h hm, List.length_map _, ?_, rfl, rfl, rfl, rfl, rfl, ?_⟩
  · intro x hx
    obtain ⟨-, -, rfl⟩ := List.mem_map.1 hx
    rfl
  · exact fun a ha => Memory.read_congr (hkept a ha)

end Sys2Proof.Proofs.Reset
end

section
/-! Where a step may fault (R40, R160): every part of the machine answers a next state or a refusal, but for the host's
own access to a word. -/

namespace Sys2Proof.Proofs.Faults

open Sys2Proof.Machine

section
variable {s : State} {k a : Nat} {f : Fault}

theorem exec_ne_fault {i : Instr} : exec i s ≠ .fault f := by
  rw [exec_eq]
  exact command_not_fault

theorem runInstance_ne_fault : s.runInstance k ≠ .fault f := by
  unfold State.runInstance
  split
  · nofun
  · split_ifs
    · nofun
    · split
      · nofun
      · exact exec_ne_fault
    · nofun

theorem issue_ne_fault {x : Instance} {d : Descriptor} : s.issue k x d ≠ .fault f := by
  unfold State.issue
  split
  · nofun
  · split
    · split_ifs <;> nofun
    · nofun

theorem hostIssue_ne_fault {d : Descriptor} {rest : List HostMove} : s.hostIssue k d rest ≠ .fault f := by
  unfold State.hostIssue
  split
  · nofun
  · split_ifs
    · exact runInstance_ne_fault
    · exact issue_ne_fault

theorem resetEvent_ne_fault : s.resetEvent ≠ .fault f := by
  unfold State.resetEvent
  split_ifs <;> nofun

theorem proceed_ne_fault : s.proceed ≠ .fault f := by
  unfold State.proceed
  split
  · exact runInstance_ne_fault
  · nofun

theorem hostRead_fault (h : s.hostRead a = .fault f) : s.cfg.memWords ≤ a ∧ f = .noSuchWord a := by
  unfold State.hostRead at h
  split_ifs at h with ha
  cases h
  exact ⟨ha, rfl⟩

theorem hostWrite_fault {x : Word} (h : s.hostWrite a x = .fault f) : s.cfg.memWords ≤ a ∧ f = .noSuchWord a := by
  unfold State.hostWrite at h
  split_ifs at h with ha
  cases h
  exact ⟨ha, rfl⟩

end

/-- Settles O36: of the moves a step may take, only the two accesses of the host fault. -/
theorem onlyHostAccessFaults : Obligations.OnlyHostAccessFaults := by
  intro s f h
  unfold step at h
  split at h
  next => exact absurd h proceed_ne_fault
  next m rest hm =>
    cases m with
    | read a => exact ⟨a, rest, .inl hm, hostRead_fault (s := { s with moves := rest }) h⟩
    | write a x => exact ⟨a, rest, .inr ⟨x, hm⟩, hostWrite_fault (s := { s with moves := rest }) h⟩
    | issue k d => exact absurd h hostIssue_ne_fault
    | run k => exact absurd h runInstance_ne_fault
    | reset => exact absurd h resetEvent_ne_fault

end Sys2Proof.Proofs.Faults
end

section
/-! Two commands that do not alias commute (R56, R203). The first leaves the words the second reads, so the second is
still in its domain and gives the result it gives alone; each order then writes the same words, and canonical memories
that list the same words are equal. -/

namespace Sys2Proof.Proofs.Commute

open Sys2Proof.Machine Sys2Proof.Safety Sys2Proof.Proofs.Invariant

/-- Two writes of separate ranges, made in either order, leave the same words. -/
theorem get?_eq_of_writes_swapped {m m₁ m₂ n₁ n₂ : Memory} {S T : Nat → Prop} {F G : Nat → Word}
    (hapart : ∀ a, S a → ¬ T a) (hS : Writes m m₁ S F) (hST : Writes m₁ n₁ T G) (hT : Writes m m₂ T G)
    (hTS : Writes m₂ n₂ S F) (a : Nat) : n₁.get? a = n₂.get? a := by
  by_cases ha : S a
  · rw [hST.miss a (hapart a ha), hS.hit a ha, hTS.hit a ha]
  · rw [hTS.miss a ha]
    by_cases ha' : T a
    · rw [hST.hit a ha', hT.hit a ha']
    · rw [hST.miss a ha', hS.miss a ha, hT.miss a ha']

section
variable {s : State} {i j : Instr} (hwf : Memory.wf s.cfg.memWords s.mem = true)
include hwf

/-- Whoever moves, a command in its domain completes, keeps the memory canonical and writes its result. -/
theorem exec_of_inDomain (hi : InDomain s i) (p : Nat) :
    ∃ t, exec i { s with active := p } = .next t ∧ t.cfg = s.cfg ∧ Memory.wf s.cfg.memWords t.mem = true ∧
      Writes s.mem t.mem (writes i).Has (resultAt (operands i) s.mem) := by
  have hdomain := (inDomain_iff s i).1 hi
  have hstatic := ((violations_nil _ _ _).1 hdomain).1
  have hexec := exec_next (s := { s with active := p }).2 ⟨hdomain, rfl⟩
  exact ⟨_, hexec, rfl, datapathOf_wf hstatic _ hwf, exec_mem (s := { s with active := p }) hexec⟩

/-- After a command that does not write what it reads, a command completes too, with the result it has alone. -/
theorem exec_exec_of_disjoint (hi : InDomain s i) (hj : InDomain s j) (hd : (writes i).Disjoint (reads j)) (p q : Nat) :
    ∃ t u, exec i { s with active := p } = .next t ∧ exec j { t with active := q } = .next u ∧
      Memory.wf s.cfg.memWords u.mem = true ∧
      Writes s.mem t.mem (writes i).Has (resultAt (operands i) s.mem) ∧
      Writes t.mem u.mem (writes j).Has (resultAt (operands j) s.mem) := by
  obtain ⟨t, hexec, hcfg, htwf, hwrites⟩ := exec_of_inDomain hwf hi p
  have hagree : AgreeOn (reads j) s.mem t.mem := agreeOn_of_writes_disjoint hwrites hd
  have hdomain := (inDomain_iff s j).1 hj
  have hj' : InDomain t j := (inDomain_iff t j).2 (hcfg ▸ violations_nil_of_agreeOn hagree hdomain)
  obtain ⟨u, hexec', -, huwf, hwrites'⟩ := exec_of_inDomain (hcfg ▸ htwf) hj' q
  have hvpw := vpw_pos_of ((violations_nil _ _ _).1 hdomain).1
  exact ⟨t, u, hexec, hexec', hcfg ▸ huwf, hwrites,
    hwrites'.congr (fun _ => Iff.rfl) fun _ ha => resultAt_congr hvpw hagree ha⟩

end

/-- Settles O40: both orders write the results of the two commands in the memory they began with. -/
theorem independentCommandsCommute : Obligations.IndependentCommandsCommute := by
  rintro i j p q s hwf ⟨hij, hww, hji, -⟩ hi hj
  obtain ⟨s₁, t₁, hexec₁, hexec₁', hwf₁, hwrites₁, hwrites₁'⟩ := exec_exec_of_disjoint hwf hi hj hij p q
  obtain ⟨s₂, t₂, hexec₂, hexec₂', hwf₂, hwrites₂, hwrites₂'⟩ := exec_exec_of_disjoint hwf hj hi hji q p
  exact ⟨s₁, s₂, t₁, t₂, hexec₁, hexec₁', hexec₂, hexec₂', Memory.ext_wf hwf₁ hwf₂
    (get?_eq_of_writes_swapped ((disjoint_iff _ _).1 hww) hwrites₁ hwrites₁' hwrites₂ hwrites₂')⟩

end Sys2Proof.Proofs.Commute
end

section
/-! Read after write (R46, R48). -/

namespace Sys2Proof.Proofs.ReadAfterWrite

open Sys2Proof.Machine

/-- Settles O41, by whether the word read is the one written. -/
theorem wordReadAfterWrite : Obligations.WordReadAfterWrite := by
  intro m a b x
  split_ifs with hba
  · rw [hba, Memory.read_write_same]
  · exact Memory.read_write_other m x hba

end Sys2Proof.Proofs.ReadAfterWrite
end

section
/-! Decoding and encoding of descriptors (R70 to R74, R76, R81). A descriptor without reserved bits is `encodeFields` of
its own fields, and on fields `decodeFields` is inverse to `encode`. -/

namespace Sys2Proof.Proofs.Encoding

open Sys2Proof.Machine Sys2Proof.Safety

/-! ## The fields of a control word (R71) -/

section
variable (d : Descriptor)

theorem op_eq_field : d.op = field d 1 0 := by
  simp [Descriptor.op, field]

theorem vector_toNat_eq_field : d.vector.toNat = field d 2 2 := by
  simp only [Descriptor.vector, field, BitVec.getLsbD, Nat.testBit_eq_decide_div_mod_eq]
  obtain h | h := Nat.mod_two_eq_zero_or_one (d.cw0.toNat / 4) <;> simp [h]

theorem rsv0_eq_field : d.rsv0 = field d 7 3 := by
  simp [Descriptor.rsv0, field, Nat.shiftRight_eq_div_pow]

theorem param_eq_field : d.param = field d 13 8 := by
  simp [Descriptor.param, field, Nat.shiftRight_eq_div_pow]

theorem rsv1_eq_field : d.rsv1 = field d 31 14 := by
  simp [Descriptor.rsv1, field, Nat.shiftRight_eq_div_pow]

theorem op_lt : d.op < 4 := BitVec.isLt _

theorem param_lt : d.param < 64 := BitVec.isLt _

/-- The five fields cover the control word. -/
theorem cw0_toNat_eq_fields :
    d.cw0.toNat = d.op + 4 * d.vector.toNat + 8 * d.rsv0 + 256 * d.param + 16384 * d.rsv1 := by
  have hlt := d.cw0.isLt
  simp only [op_eq_field, vector_toNat_eq_field, rsv0_eq_field, param_eq_field, rsv1_eq_field, field]
  omega

end

/-! ## Encoding by fields -/

theorem eq_beq_one_of_toNat {b : Bool} {v : Nat} (h : b.toNat = v) : b = (v == 1) := by
  subst h
  cases b <;> rfl

section
variable {op v p : Nat} {src dst len : Word} (hop : op < 4) (hv : v < 2) (hp : p < 64)
include hop hv hp

theorem encodeFields_cw0_toNat : (encodeFields op v p src dst len).cw0.toNat = op + 4 * v + 256 * p := by
  have hlow : op ||| v <<< 2 = v <<< 2 + op := by
    rw [Nat.or_comm, Nat.shiftLeft_add_eq_or_of_lt hop]
  have hlt : v <<< 2 + op < 2 ^ 8 := by
    rw [Nat.shiftLeft_eq]
    omega
  rw [encodeFields, BitVec.toNat_ofNat, hlow, Nat.or_comm, ← Nat.shiftLeft_add_eq_or_of_lt hlt, Nat.shiftLeft_eq,
    Nat.shiftLeft_eq]
  omega

/-- The fields of the word are those it was given, and no reserved bit is set. -/
theorem fields_encodeFields :
    (encodeFields op v p src dst len).op = op ∧ (encodeFields op v p src dst len).vector = (v == 1) ∧
    (encodeFields op v p src dst len).rsv0 = 0 ∧ (encodeFields op v p src dst len).param = p ∧
    (encodeFields op v p src dst len).rsv1 = 0 := by
  have hword := encodeFields_cw0_toNat hop hv hp (src := src) (dst := dst) (len := len)
  have hvector := vector_toNat_eq_field (encodeFields op v p src dst len)
  simp only [op_eq_field, rsv0_eq_field, param_eq_field, rsv1_eq_field, field, hword] at hvector ⊢
  exact ⟨by omega, eq_beq_one_of_toNat (by omega), by omega, by omega, by omega⟩

theorem decode_encodeFields : decode (encodeFields op v p src dst len) = decodeFields op (v == 1) p src dst len := by
  obtain ⟨hop', hv', hrsv0, hp', hrsv1⟩ := fields_encodeFields hop hv hp (src := src) (dst := dst) (len := len)
  rw [decode, if_neg (by simp [hrsv0, hrsv1]), hop', hv', hp']
  rfl

end

/-- A descriptor without reserved bits is the encoding of its fields. -/
theorem encodeFields_fields {d : Descriptor} (h0 : d.rsv0 = 0) (h1 : d.rsv1 = 0) :
    encodeFields d.op d.vector.toNat d.param d.cw1 d.cw2 d.cw3 = d := by
  have hword : (encodeFields d.op d.vector.toNat d.param d.cw1 d.cw2 d.cw3).cw0 = d.cw0 := by
    apply BitVec.eq_of_toNat_eq
    rw [encodeFields_cw0_toNat (op_lt d) (Bool.toNat_lt _) (param_lt d), cw0_toNat_eq_fields d, h0, h1]
    omega
  obtain ⟨cw0, cw1, cw2, cw3⟩ := d
  exact congrArg (Descriptor.mk · cw1 cw2 cw3) hword

/-! ## Commands and fields -/

/-- The legal widths are those R76 (b) leaves. -/
theorem legalWidth_iff {w : Nat} : LegalWidth w ↔ ¬ (w = 0 ∨ 32 < w) := by
  unfold LegalWidth
  omega

theorem param_lt_of_legalWidth {w : Nat} (h : LegalWidth w) : w < 64 := by
  obtain ⟨-, hle⟩ := h
  omega

/-- PACK and UNPACK: the fields decode to a command at every legal width. -/
theorem decode_encodeFields_of_width {op v w : Nat} {src dst len : Word} {i : Nat → Instr} (hop : op < 4) (hv : v < 2)
    (hw : LegalWidth w)
    (h : decodeFields op (v == 1) w src dst len = if w = 0 ∨ 32 < w then .error .width else .ok (i w)) :
    decode (encodeFields op v w src dst len) = .ok (i w) := by
  rw [decode_encodeFields hop hv (param_lt_of_legalWidth hw), h, if_neg (legalWidth_iff.1 hw)]

theorem decode_encode {i : Instr} (h : i.WellFormed) : decode (encode i) = .ok i := by
  cases i with
  | packS w a b n =>
    exact decode_encodeFields_of_width (i := (.packS · a b n)) (by decide) (by decide) (of_decide_eq_true h) rfl
  | packV w a b n =>
    exact decode_encodeFields_of_width (i := (.packV · a b n)) (by decide) (by decide) (of_decide_eq_true h) rfl
  | unpackS w a b n =>
    exact decode_encodeFields_of_width (i := (.unpackS · a b n)) (by decide) (by decide) (of_decide_eq_true h) rfl
  | unpackV w a b n =>
    exact decode_encodeFields_of_width (i := (.unpackV · a b n)) (by decide) (by decide) (of_decide_eq_true h) rfl
  | collapse16S a b n => exact decode_encodeFields (by decide) (by decide) (by decide)
  | collapse16V a b n => exact decode_encodeFields (by decide) (by decide) (by decide)
  | collapse8S a b n => exact decode_encodeFields (by decide) (by decide) (by decide)
  | collapse8V a b n => exact decode_encodeFields (by decide) (by decide) (by decide)
  | expand16S a b n => exact decode_encodeFields (by decide) (by decide) (by decide)
  | expand16V a b n => exact decode_encodeFields (by decide) (by decide) (by decide)
  | expand8S a b n => exact decode_encodeFields (by decide) (by decide) (by decide)
  | expand8V a b n => exact decode_encodeFields (by decide) (by decide) (by decide)

/-- The command of fields is encoded by them, and has a width R73 admits. -/
theorem encode_of_decodeFields {op p : Nat} {v : Bool} {src dst len : Word} {i : Instr} (hop : op < 4)
    (h : decodeFields op v p src dst len = .ok i) :
    encode i = encodeFields op v.toNat p src dst len ∧ i.WellFormed := by
  obtain rfl | rfl | rfl | rfl : op = 0 ∨ op = 1 ∨ op = 2 ∨ op = 3 := by omega
  case inl | inr.inl =>
    unfold decodeFields at h
    cases v <;> simp only [Bool.false_eq_true, if_false, if_true] at h
    all_goals
      split_ifs at h with hw
      cases h
      exact ⟨rfl, decide_eq_true (legalWidth_iff.2 hw)⟩
  case inr.inr.inl | inr.inr.inr =>
    unfold decodeFields at h
    cases v <;> simp only [Bool.false_eq_true, if_false, if_true] at h
    all_goals
      split_ifs at h with h2 h4
      all_goals
        subst p
        cases h
        exact ⟨rfl, rfl⟩

theorem encode_of_decode {d : Descriptor} {i : Instr} (h : decode d = .ok i) : encode i = d ∧ i.WellFormed := by
  unfold decode at h
  split_ifs at h with hrsv
  obtain ⟨hrsv0, hrsv1⟩ := not_or.1 hrsv
  obtain ⟨hencode, hwf⟩ := encode_of_decodeFields (op_lt d) h
  exact ⟨hencode.trans (encodeFields_fields (not_not.1 hrsv0) (not_not.1 hrsv1)), hwf⟩

theorem decode_eq_ok_iff {d : Descriptor} {i : Instr} : decode d = .ok i ↔ encode i = d ∧ i.WellFormed :=
  ⟨encode_of_decode, fun ⟨hd, hwf⟩ => hd ▸ decode_encode hwf⟩

/-! ## Reserved descriptors (R76) -/

/-- R76 (b) and (c) on fields. -/
theorem decodeFields_error_iff {op p : Nat} {v : Bool} {src dst len : Word} :
    (∃ r, decodeFields op v p src dst len = .error r) ↔
      (op ≤ 1 ∧ (p = 0 ∨ 32 < p)) ∨ (2 ≤ op ∧ p ≠ 2 ∧ p ≠ 4) := by
  by_cases hop : op ≤ 1
  · have hwidth : (∃ r, decodeFields op v p src dst len = .error r) ↔ p = 0 ∨ 32 < p := by
      obtain rfl | rfl : op = 0 ∨ op = 1 := by omega
      all_goals
        unfold decodeFields
        split_ifs with hp <;> simp [hp]
    rw [hwidth]
    omega
  · have hplanes : (∃ r, decodeFields op v p src dst len = .error r) ↔ p ≠ 2 ∧ p ≠ 4 := by
      obtain rfl | ⟨n, rfl⟩ : op = 2 ∨ ∃ n, op = n + 3 := by
        by_cases h : op = 2
        · exact .inl h
        · exact .inr ⟨op - 3, by omega⟩
      all_goals
        unfold decodeFields
        split_ifs with h2 h4 <;> simp [*]
    rw [hplanes]
    omega

theorem decode_error_iff (d : Descriptor) : (∃ r, decode d = .error r) ↔ IsReserved d := by
  unfold decode IsReserved
  rw [← op_eq_field, ← rsv0_eq_field, ← param_eq_field, ← rsv1_eq_field]
  by_cases hrsv : d.rsv0 ≠ 0 ∨ d.rsv1 ≠ 0
  · simp only [hrsv, true_or, iff_true]
    exact ⟨_, rfl⟩
  · simp only [hrsv, false_or]
    exact decodeFields_error_iff

theorem decode_ok_iff (d : Descriptor) : (∃ i, decode d = .ok i) ↔ ¬ IsReserved d := by
  rw [← decode_error_iff]
  cases decode d <;> simp

/-- Settles O1: the round trips, by the fields of a control word. -/
theorem decodeEncodeRoundTrip : Obligations.DecodeEncodeRoundTrip := by
  refine ⟨?_, decode_error_iff, fun _ => decode_encode, fun _ _ => encode_of_decode⟩
  intro op v p src dst len hop hv hp
  exact ⟨encodeFields_cw0_toNat hop hv hp, rfl, rfl, rfl, decode_encodeFields hop hv hp⟩

/-! ## Worked encodings (R82) -/

/-- Settles O5: the words are evaluated. -/
theorem workedEncodingsDecode : Obligations.WorkedEncodingsDecode :=
  ⟨rfl, rfl, rfl, rfl, rfl, rfl, rfl, rfl, rfl⟩

/-! ## Pseudo-instructions (R79) -/

/-- Settles O6: `collapseInstr` and `expandInstr` test the plane count. -/
theorem pseudoInstructionsExpand : Obligations.PseudoInstructionsExpand := by
  intro k src dst len
  refine ⟨rfl, rfl, rfl, rfl, rfl, rfl, rfl, rfl, ?_, fun _ => ⟨rfl, rfl⟩, rfl, rfl⟩
  intro h2 h4 v
  simp only [assemble, collapseInstr, expandInstr, h2, h4, if_false, and_self]

end Sys2Proof.Proofs.Encoding
end

section
/-! The opcode map (R73, R74): a descriptor matches a row of the map exactly when it is the encoding of the row's
command. -/

namespace Sys2Proof.Proofs.OpcodeMap

open Sys2Proof.Machine Sys2Proof.Safety Sys2Proof.Proofs.Encoding

/-- The mask of the packing rows clears the field `PARAM`. -/
theorem packingMask_toNat (x : Word) :
    (x &&& 0xFFFFC0FF).toNat = 2 ^ 14 * (x.toNat / 2 ^ 14) + x.toNat % 2 ^ 8 := by
  have hmask : (0xFFFFC0FF : Word).toNat = 2 ^ 14 * (2 ^ 18 - 1) + (2 ^ 8 - 1) := rfl
  have hhigh : x.toNat / 2 ^ 14 < 2 ^ 18 := by
    have := x.isLt
    omega
  rw [BitVec.toNat_and, hmask]
  refine Nat.eq_of_testBit_eq fun i => ?_
  rw [Nat.testBit_and, Nat.testBit_two_pow_mul_add _ (by decide), Nat.testBit_two_pow_mul_add _ (by omega)]
  split_ifs with hi
  · rw [Nat.testBit_two_pow_sub_one, Nat.testBit_mod_two_pow, Bool.and_comm]
  · have hbit : x.toNat.testBit i = (x.toNat / 2 ^ 14).testBit (i - 14) := by
      rw [Nat.testBit_div_two_pow]
      congr 1
      omega
    rw [hbit, Nat.testBit_two_pow_sub_one]
    by_cases hi18 : i - 14 < 18
    · simp [hi18]
    · rw [Nat.testBit_lt_two_pow (lt_of_lt_of_le hhigh (Nat.pow_le_pow_right (by decide) (by omega)))]
      rfl

theorem eq_encodeFields_iff {d : Descriptor} {op v p : Nat} :
    encodeFields op v p d.cw1 d.cw2 d.cw3 = d ↔ (encodeFields op v p 0 0 0).cw0 = d.cw0 :=
  ⟨fun h => (congrArg Descriptor.cw0 h :), fun h => congrArg (Descriptor.mk · d.cw1 d.cw2 d.cw3) h⟩

/-- A packing row is matched by the descriptors of its operation and form, whatever their `PARAM`. -/
theorem packingRow_match_iff {d : Descriptor} {op v : Nat} (hop : op < 4) (hv : v < 2) :
    d.cw0 &&& 0xFFFFC0FF = (encodeFields op v 0 0 0 0).cw0 ↔
      encodeFields op v (field d 13 8) d.cw1 d.cw2 d.cw3 = d := by
  have hp : field d 13 8 < 64 := Nat.mod_lt _ (by decide)
  rw [eq_encodeFields_iff, ← BitVec.toNat_inj, ← BitVec.toNat_inj, packingMask_toNat,
    encodeFields_cw0_toNat hop hv (by decide), encodeFields_cw0_toNat hop hv hp, field]
  have := d.cw0.isLt
  omega

/-- A plane row is matched by one control word. -/
theorem planeRow_match_iff {d : Descriptor} {op v p : Nat} :
    d.cw0 &&& 0xFFFFFFFF = (encodeFields op v p 0 0 0).cw0 ↔ encodeFields op v p d.cw1 d.cw2 d.cw3 = d := by
  rw [eq_encodeFields_iff, eq_comm, show (0xFFFFFFFF : Word) = BitVec.allOnes 32 from rfl, BitVec.and_allOnes]

/-- `d` is in the row `r` of the map (R73). -/
def RowMatches (r : OpcodeRow) (d : Descriptor) : Prop :=
  d.cw0 &&& r.mask = r.code ∧ (r.width = true → 1 ≤ field d 13 8 ∧ field d 13 8 ≤ 32)

/-- The command of the row `r` with the operands of `d` (R74). -/
def rowCommand (r : OpcodeRow) (d : Descriptor) : Instr := r.build (field d 13 8) d.cw1 d.cw2 d.cw3

/-- What each row of the map says: its command, with the operands of `d`, is a command whose encoding is `d`. -/
def RowCorrect (r : OpcodeRow) : Prop :=
  ∀ d, RowMatches r d ↔ encode (rowCommand r d) = d ∧ (rowCommand r d).WellFormed

theorem packingRow_correct {op v : Nat} {code : Word} {build : Nat → Word → Word → Word → Instr} (hop : op < 4)
    (hv : v < 2) (hcode : code = (encodeFields op v 0 0 0 0).cw0)
    (hencode : ∀ w a b n, encode (build w a b n) = encodeFields op v w a b n)
    (hwf : ∀ w a b n, (build w a b n).wellFormed = decide (LegalWidth w)) :
    RowCorrect ⟨code, 0xFFFFC0FF, true, build⟩ := by
  intro d
  simp only [RowMatches, rowCommand, Instr.WellFormed, hencode, hwf, hcode, packingRow_match_iff hop hv,
    true_implies, decide_eq_true_eq]

theorem planeRow_correct {op v p : Nat} {code : Word} {build : Word → Word → Word → Instr}
    (hcode : code = (encodeFields op v p 0 0 0).cw0)
    (hencode : ∀ a b n, encode (build a b n) = encodeFields op v p a b n)
    (hwf : ∀ a b n, (build a b n).wellFormed = true) :
    RowCorrect ⟨code, 0xFFFFFFFF, false, fun _ => build⟩ := by
  intro d
  simp only [RowMatches, rowCommand, Instr.WellFormed, hencode, hwf, hcode, planeRow_match_iff,
    Bool.false_eq_true, false_implies]

theorem opcodeMap_correct : ∀ r ∈ opcodeMap, RowCorrect r := by
  simp only [opcodeMap, List.forall_mem_cons]
  refine ⟨?_, ?_, ?_, ?_, ?_, ?_, ?_, ?_, ?_, ?_, ?_, ?_, nofun⟩
  · exact packingRow_correct (op := 0) (v := 0) (by decide) (by decide) rfl (fun _ _ _ _ => rfl) fun _ _ _ _ => rfl
  · exact packingRow_correct (op := 0) (v := 1) (by decide) (by decide) rfl (fun _ _ _ _ => rfl) fun _ _ _ _ => rfl
  · exact packingRow_correct (op := 1) (v := 0) (by decide) (by decide) rfl (fun _ _ _ _ => rfl) fun _ _ _ _ => rfl
  · exact packingRow_correct (op := 1) (v := 1) (by decide) (by decide) rfl (fun _ _ _ _ => rfl) fun _ _ _ _ => rfl
  · exact planeRow_correct (op := 2) (v := 0) (p := 2) rfl (fun _ _ _ => rfl) fun _ _ _ => rfl
  · exact planeRow_correct (op := 2) (v := 1) (p := 2) rfl (fun _ _ _ => rfl) fun _ _ _ => rfl
  · exact planeRow_correct (op := 2) (v := 0) (p := 4) rfl (fun _ _ _ => rfl) fun _ _ _ => rfl
  · exact planeRow_correct (op := 2) (v := 1) (p := 4) rfl (fun _ _ _ => rfl) fun _ _ _ => rfl
  · exact planeRow_correct (op := 3) (v := 0) (p := 2) rfl (fun _ _ _ => rfl) fun _ _ _ => rfl
  · exact planeRow_correct (op := 3) (v := 1) (p := 2) rfl (fun _ _ _ => rfl) fun _ _ _ => rfl
  · exact planeRow_correct (op := 3) (v := 0) (p := 4) rfl (fun _ _ _ => rfl) fun _ _ _ => rfl
  · exact planeRow_correct (op := 3) (v := 1) (p := 4) rfl (fun _ _ _ => rfl) fun _ _ _ => rfl

theorem field_param_encodeFields {op v w : Nat} {a b n : Word} (hop : op < 4) (hv : v < 2) (hw : LegalWidth w) :
    field (encodeFields op v w a b n) 13 8 = w := by
  obtain ⟨-, -, -, hparam, -⟩ := fields_encodeFields hop hv (param_lt_of_legalWidth hw) (src := a) (dst := b) (len := n)
  rw [← param_eq_field, hparam]

/-- Every command has a row, which gives it back from the operands of its descriptor. -/
theorem exists_row {i : Instr} (h : i.WellFormed) : ∃ r ∈ opcodeMap, i = rowCommand r (encode i) := by
  cases i with
  | packS w a b n =>
    exact ⟨_, List.getElem_mem (n := 0) (by decide),
      congrArg (Instr.packS · a b n) (field_param_encodeFields (by decide) (by decide) (of_decide_eq_true h)).symm⟩
  | packV w a b n =>
    exact ⟨_, List.getElem_mem (n := 1) (by decide),
      congrArg (Instr.packV · a b n) (field_param_encodeFields (by decide) (by decide) (of_decide_eq_true h)).symm⟩
  | unpackS w a b n =>
    exact ⟨_, List.getElem_mem (n := 2) (by decide),
      congrArg (Instr.unpackS · a b n) (field_param_encodeFields (by decide) (by decide) (of_decide_eq_true h)).symm⟩
  | unpackV w a b n =>
    exact ⟨_, List.getElem_mem (n := 3) (by decide),
      congrArg (Instr.unpackV · a b n) (field_param_encodeFields (by decide) (by decide) (of_decide_eq_true h)).symm⟩
  | collapse16S => exact ⟨_, List.getElem_mem (n := 4) (by decide), rfl⟩
  | collapse16V => exact ⟨_, List.getElem_mem (n := 5) (by decide), rfl⟩
  | collapse8S => exact ⟨_, List.getElem_mem (n := 6) (by decide), rfl⟩
  | collapse8V => exact ⟨_, List.getElem_mem (n := 7) (by decide), rfl⟩
  | expand16S => exact ⟨_, List.getElem_mem (n := 8) (by decide), rfl⟩
  | expand16V => exact ⟨_, List.getElem_mem (n := 9) (by decide), rfl⟩
  | expand8S => exact ⟨_, List.getElem_mem (n := 10) (by decide), rfl⟩
  | expand8V => exact ⟨_, List.getElem_mem (n := 11) (by decide), rfl⟩

/-- Settles O2: each row is correct, and each command has one. -/
theorem decodeMatchesOpcodeMap : Obligations.DecodeMatchesOpcodeMap := by
  intro d i
  rw [decode_eq_ok_iff]
  constructor
  · rintro ⟨rfl, hwf⟩
    obtain ⟨r, hr, hi⟩ := exists_row hwf
    obtain ⟨hmask, hwidth⟩ := (opcodeMap_correct r hr (encode i)).2 ⟨congrArg encode hi.symm, hi ▸ hwf⟩
    exact ⟨r, hr, hmask, hwidth, hi⟩
  · rintro ⟨r, hr, hmask, hwidth, rfl⟩
    exact (opcodeMap_correct r hr d).1 ⟨hmask, hwidth⟩

/-- A word that has two matches, each in its mask, has the same bits of both where the masks meet. -/
theorem codes_agree_of_match {x m m' c c' : Word} (h : x &&& m = c) (h' : x &&& m' = c') : c &&& m' = c' &&& m := by
  rw [← h, ← h', BitVec.and_assoc, BitVec.and_assoc, BitVec.and_comm m m']

/-- Settles O3: any two rows of the map differ in a bit that both masks keep. -/
theorem opcodeRowsDisjoint : Obligations.OpcodeRowsDisjoint := by
  have hcodes : opcodeMap.Pairwise fun r r' => r.code &&& r'.mask ≠ r'.code &&& r.mask := by decide
  exact hcodes.imp fun hne x ⟨h, h'⟩ => hne (codes_agree_of_match h h')

end Sys2Proof.Proofs.OpcodeMap
end

section
/-! What a step answers (R84), the other way round from `step_to`: one equation for a busy `Instance` that goes on, one
for each way an ISSUE to an idle one ends. -/

namespace Sys2Proof.Proofs.StepRules

open Sys2Proof.Machine Sys2Proof.Safety Sys2Proof.Proofs.Encoding

/-! ## A busy `Instance` goes on -/

section
variable {s : State} {k : Nat} {x : Instance} {rest : List HostMove}

theorem step_run (hm : s.moves = .run k :: rest) : step s = State.runInstance { s with moves := rest } k := by
  rw [step, hm]
  rfl

theorem step_issue_busy {d : Descriptor} (hm : s.moves = .issue k d :: rest) (hx : s.insts[k]? = some x)
    (hb : x.busy = true) : step s = s.runInstance k := by
  simp only [step, hm, State.move, State.hostIssue, hx, hb, if_true]

theorem step_alone (hm : s.moves = []) (hk : s.insts.findIdx? (·.busy) = some k) : step s = s.runInstance k := by
  simp only [step, hm, State.proceed, hk]

/-- Whatever lets a busy one of the instances go on, the step is its own. -/
theorem step_of_goesOn (g : GoesOn s k rest) (hx : s.insts[k]? = some x) (hb : x.busy = true) :
    step s = State.runInstance { s with moves := rest } k := by
  cases g with
  | alone hm hk => rw [step_alone hm hk, ← hm]
  | told _ hm => exact step_run hm
  | waited d _ hm => exact step_issue_busy hm hx hb

/-- The first busy one of the instances goes on when no move is pending. -/
theorem goesOn_alone (hm : s.moves = []) (hx : s.insts[k]? = some x) (hb : x.busy = true)
    (hfirst : ∀ j y, j < k → s.insts[j]? = some y → y.busy = false) : GoesOn s k [] := by
  obtain ⟨hlt, rfl⟩ := List.getElem?_eq_some_iff.1 hx
  refine .alone hm (List.findIdx?_eq_some_iff_getElem.2 ⟨hlt, hb, fun j hj => ?_⟩)
  simp [hfirst j _ hj (List.getElem?_eq_getElem (hj.trans hlt))]

/-- Its transition not made, it executes the command it has latched. -/
theorem step_exec {i : Instr} (g : GoesOn s k rest) (hx : s.insts[k]? = some x) (hi : InFlight x i)
    (hmade : x.made = false) : step s = exec i { s with moves := rest, active := k } :=
  (step_of_goesOn g hx hi.1).trans (runInstance_exec (s := { s with moves := rest }) hx hi hmade)

/-- Its transition made, it produces DONE. -/
theorem step_done (g : GoesOn s k rest) (hx : s.insts[k]? = some x) (hb : x.busy = true) (hmade : x.made = true) :
    step s = .next (State.done { s with moves := rest } k x) :=
  (step_of_goesOn g hx hb).trans (runInstance_done (s := { s with moves := rest }) hx hb hmade)

/-- The step takes off no move but the one that told it to go on. -/
theorem moves_of_goesOn {t : State} (g : GoesOn s k rest) (hx : s.insts[k]? = some x) (hb : x.busy = true)
    (h : step s = .next t) : t.moves = rest :=
  runInstance_moves (s := { s with moves := rest }) ((step_of_goesOn g hx hb).symm.trans h)

end

/-! ## ISSUE to an idle `Instance` -/

section
variable {s : State} {k : Nat} {x : Instance} {d : Descriptor} {rest : List HostMove}
  (hm : s.moves = .issue k d :: rest) (hx : s.insts[k]? = some x) (hb : x.busy = false)
include hm hx hb

theorem step_issue_idle : step s = State.issue { s with moves := rest } k x d := by
  simp only [step, hm, State.move, State.hostIssue, hx, hb, Bool.false_eq_true, if_false]

theorem step_issue_reserved {r : Reserved} (hd : decode d = .error r) : step s = .refused (.reserved r) := by
  rw [step_issue_idle hm hx hb]
  simp only [State.issue, hd]

variable {i : Instr} (hd : decode d = .ok i)
include hd

theorem step_issue_outside (hdomain : ¬ InDomain s i) :
    step s = .refused (.precondition (violations s.cfg i s.mem)) := by
  rw [inDomain_iff] at hdomain
  rw [step_issue_idle hm hx hb]
  cases hv : violations s.cfg i s.mem with
  | nil => exact absurd hv hdomain
  | cons v vs => simp only [State.issue, hd, hv]

theorem step_issue_conflict (hdomain : InDomain s i) (hc : s.insts.any (·.conflictsWith i) = true) :
    step s = .refused .concurrentConflict := by
  rw [inDomain_iff] at hdomain
  rw [step_issue_idle hm hx hb]
  simp only [State.issue, hd, hdomain, hc, if_true]

theorem step_issue_accepted (hdomain : InDomain s i) (hc : s.insts.any (·.conflictsWith i) = false) :
    step s = .next { s with
      moves := rest
      insts := s.insts.set k { x with busy := true, made := false, cur := d }
      issued := s.issued + 1 } := by
  rw [inDomain_iff] at hdomain
  rw [step_issue_idle hm hx hb]
  simp only [State.issue, hd, hdomain, hc, Bool.false_eq_true, if_false]
  rfl

end

/-- A command conflicts with none in flight when it aliases none (R56). -/
theorem no_conflict_of_independent {xs : List Instance} {i : Instr}
    (h : ∀ y ∈ xs, y.busy = true → ∃ j, decode y.cur = .ok j ∧ Independent i j) :
    xs.any (·.conflictsWith i) = false :=
  List.any_eq_false.2 fun y hy hc => Bool.false_ne_true ((conflictsWith_iff.2 (h y hy)).symm.trans hc)

theorem conflict_of_aliasing {xs : List Instance} {y : Instance} {i j : Instr} (hy : y ∈ xs) (hj : InFlight y j)
    (h : ¬ Independent i j) : xs.any (·.conflictsWith i) = true := by
  refine List.any_eq_true.2 ⟨y, hy, Bool.eq_true_of_not_eq_false fun hfree => h ?_⟩
  obtain ⟨hb, hd⟩ := hj
  obtain ⟨j', hd', hind⟩ := conflictsWith_iff.1 hfree hb
  cases hd.symm.trans hd'
  exact hind

/-! ## Reserved descriptors (R76) -/

/-- Settles O4: reserved is an error of `decode`, at ISSUE and at the transition. -/
theorem reservedDescriptorsRefused : Obligations.ReservedDescriptorsRefused := by
  refine ⟨fun d => (decode_error_iff d).symm, fun d => (decode_ok_iff d).symm, ?_, ?_⟩
  · intro s k x d rest hd hm hx hb
    obtain ⟨r, hr⟩ := (decode_error_iff d).2 hd
    exact ⟨r, step_issue_reserved hm hx hb hr⟩
  · intro s k x rest hd hm hx hb hmade
    obtain ⟨r, hr⟩ := (decode_error_iff x.cur).2 hd
    exact ⟨r, (step_run hm).trans (runInstance_reserved (s := { s with moves := rest }) hx hb hmade hr)⟩

/-! ## ISSUE, the transition and DONE (R84) -/

/-- The command that stands behind the bits of an instruction. -/
theorem decode_of_decodeTableWord {nbits w : Nat} {i : Instr} (h : decodeTableWord nbits w = some i) :
    decode (Descriptor.ofNat (w % 2 ^ nbits)) = .ok i := by
  rw [decodeTableWord] at h
  cases hd : decode (Descriptor.ofNat (w % 2 ^ nbits)) with
  | error r => rw [hd] at h; cases h
  | ok j => rw [hd] at h; cases h; rfl

/-- Settles O42: each clause is one of the ways a busy `Instance` goes on (`GoesOn`). -/
theorem stepRunsDecoded : Obligations.StepRunsDecoded := by
  refine ⟨?_, ?_, ?_, ?_⟩
  · exact fun s k x i rest hx hi hmade hm => step_exec (.told rest hm) hx hi hmade
  · exact fun s k x i d rest hx hi hmade hm => step_exec (.waited d rest hm) hx hi hmade
  · intro s k x i hx hi hmade hfirst hm
    rw [step_exec (goesOn_alone hm hx hi.1 hfirst) hx hi hmade, ← hm]
  · intro s nbits w i hd
    exact step_exec (.told s.moves rfl) rfl ⟨rfl, decode_of_decodeTableWord hd⟩ rfl

/-- Settles O43: what `step_issue_accepted` answers, field by field. -/
theorem issueLatchesDescriptor : Obligations.IssueLatchesDescriptor := by
  intro s k x d i rest hm hx hb hd hdomain hind
  have hk : k < s.insts.length := (List.getElem?_eq_some_iff.1 hx).1
  exact ⟨_, _, step_issue_accepted hm hx hb hd hdomain (no_conflict_of_independent hind),
    List.getElem?_set_self hk, rfl, rfl, rfl, rfl, fun j hj => List.getElem?_set_ne hj.symm, rfl, rfl, rfl, rfl, rfl,
    rfl, rfl⟩

/-- Settles O44: outside the domain, and in it but aliasing. -/
theorem issueRefusals : Obligations.IssueRefusals := by
  intro s k x d i rest hm hx hb hd
  refine ⟨fun hdomain => ⟨_, step_issue_outside hm hx hb hd hdomain⟩, ?_⟩
  rintro hdomain ⟨y, hy, j, hj, halias⟩
  exact step_issue_conflict hm hx hb hd hdomain (conflict_of_aliasing hy hj halias)

/-- Settles O45: told or waited for, number `k` makes the same step, and the move stays. -/
theorem issueToBusyWaits : Obligations.IssueToBusyWaits := by
  intro s k x d rest hm hx hb
  have g : GoesOn s k s.moves := .waited d rest hm
  exact ⟨(step_of_goesOn g hx hb).trans (step_run (s := { s with moves := .run k :: s.moves }) rfl).symm,
    fun t h => moves_of_goesOn g hx hb h⟩

/-- DONE of number `k`, whatever let it go on. -/
theorem exists_step_done {s : State} {k : Nat} {x : Instance} {rest : List HostMove} (g : GoesOn s k rest)
    (hx : s.insts[k]? = some x) (hb : x.busy = true) (hmade : x.made = true) :
    ∃ t y, step s = .next t ∧ t.insts[k]? = some y ∧ y.busy = false ∧ y.made = false ∧ y.regs = x.regs ∧
      (∀ j, j ≠ k → t.insts[j]? = s.insts[j]?) ∧ t.mem = s.mem ∧ t.cfg = s.cfg ∧ t.moves = rest ∧
      t.active = s.active ∧ s.fresh ≤ t.fresh ∧ t.issued = s.issued ∧ t.completed = s.completed + 1 := by
  have hk : k < s.insts.length := (List.getElem?_eq_some_iff.1 hx).1
  exact ⟨_, _, step_done g hx hb hmade, List.getElem?_set_self hk, rfl, rfl, rfl,
    fun j hj => List.getElem?_set_ne hj.symm, rfl, rfl, rfl, rfl, Nat.le_add_right _ _, rfl, rfl⟩

/-- Settles O46: DONE of the one that is told to go on. -/
theorem doneClearsBusy : Obligations.DoneClearsBusy :=
  fun _ _ _ rest hm hx hb hmade => exists_step_done (.told rest hm) hx hb hmade

end Sys2Proof.Proofs.StepRules
end

section
/-! The command of no elements (R72): both its footprints are empty, so nothing of its placement can break a
precondition, and its datapath does no unit of work. -/

namespace Sys2Proof.Proofs.EmptyCommand

open Sys2Proof.Machine Sys2Proof.Safety Sys2Proof.Proofs.TransitionFrame

section
variable {o : Operands} (h : o.len = 0)
include h

theorem readsOf_len_eq_zero : (readsOf o).len = 0 := by
  rw [readsOf]
  split <;> simp [h]

theorem writesOf_len_eq_zero : (writesOf o).len = 0 := by
  rw [writesOf]
  split <;> simp [h]

theorem lengthFits_of_empty : lengthFits o = true := by
  rw [lengthFits]
  split <;> simp [h]

theorem overlapAdmitted_of_empty : overlapAdmitted o = true := by
  have hdisjoint : (readsOf o).Disjoint (writesOf o) := .inl (readsOf_len_eq_zero h)
  rw [overlapAdmitted]
  split <;> simp only [hdisjoint, true_or, decide_true]

theorem onPlainMemory_of_empty (c : Config) : onPlainMemory c o = true :=
  List.all_eq_true.2 fun _ _ => decide_eq_true ⟨.inl (readsOf_len_eq_zero h), .inl (writesOf_len_eq_zero h)⟩

/-- What is left of the lane condition is on the width of a packing command (R105). -/
theorem laneCondition_of_empty {L : Nat} (hw : ∀ w, o.op = .pack w ∨ o.op = .unpack w → vpw w % L = 0) :
    laneCondition L o = true := by
  rw [laneCondition]
  split
  next w ho => simp [h, hw w (.inl ho)]
  next w ho => simp [h, hw w (.inr ho)]
  next => simp [h]
  next => simp [h]

end

section
variable {i : Instr} (h : (operands i).len = 0)
include h

theorem dataViolations_of_empty (m : Memory) : dataViolations i m = [] := by
  have hbelow (b : Nat) : m.AllBelow (readsOf (operands i)) b := by
    intro t ht
    rw [readsOf_len_eq_zero h] at ht
    exact absurd ht (Nat.not_lt_zero t)
  simp only [dataViolations]
  split
  · exact (report_not_decide _ _).2 (hbelow _)
  · rfl
  · exact (report_not_decide _ _).2 (hbelow _)
  · rfl

/-- No datapath does anything on no elements. -/
theorem datapathOf_of_empty (c : Config) (e : Engine) : datapathOf c i e = e := by
  cases i <;> simp only [operands] at h <;>
    simp only [datapathOf, packSerial, packLanes, unpackSerial, unpackLanes, collapseSerial, collapseLanes,
      expandSerial, expandLanes, h, Nat.zero_div, forUpTo]

end

/-- Settles O39: the preconditions left are those the statement names, and the datapath is the identity. -/
theorem emptyCommandCompletes : Obligations.EmptyCommandCompletes := by
  intro i s hwf h hwidth hplane hlanes
  have hstatic : staticViolations s.cfg i = [] := (staticViolations_nil s.cfg i).2
    ⟨hwf, hwidth, hplane, lengthFits_of_empty h, fun hv => laneCondition_of_empty h (hlanes hv),
      .inl (readsOf_len_eq_zero h), .inl (writesOf_len_eq_zero h), overlapAdmitted_of_empty h,
      onPlainMemory_of_empty h _⟩
  refine ⟨_, exec_next.2 ⟨(violations_nil _ _ _).2 ⟨hstatic, dataViolations_of_empty h _⟩, rfl⟩, ?_,
    onlyTransition_commit s _⟩
  rw [State.commit_mem, datapathOf_of_empty h, State.engine_mem]

end Sys2Proof.Proofs.EmptyCommand
end

section
/-! One command on an idle machine (R84, R192, R201): its ISSUE, its transition and its DONE end the run. Between them
the machine is `Underway`. -/

namespace Sys2Proof.Proofs.OneCommand

open Sys2Proof.Machine Sys2Proof.Safety Sys2Proof.Proofs.TransitionFrame Sys2Proof.Proofs.StepRules

/-- In `t` the descriptor `d` is in flight on number `k` alone and every other issued command has produced DONE; `made`
says whether its transition has been made, and `ms` are the moves pending. -/
structure Underway (k : Nat) (d : Descriptor) (made : Bool) (ms : List HostMove) (t : State) : Prop where
  latched : ∃ y, t.insts[k]? = some y ∧ y.busy = true ∧ y.cur = d ∧ y.made = made
  others : ∀ j y, j ≠ k → t.insts[j]? = some y → y.busy = false
  moves : t.moves = ms
  counts : t.issued = t.completed + 1

section
variable {s : State} {k : Nat} {d : Descriptor} {made : Bool} {ms rest : List HostMove}

/-- With no move pending number `k` goes on by itself. -/
theorem Underway.goesOn_alone (h : Underway k d made [] s) : GoesOn s k [] := by
  obtain ⟨y, hy, hb, -⟩ := h.latched
  exact StepRules.goesOn_alone h.moves hy hb fun j z hj hz => h.others j z hj.ne hz

theorem Underway.not_ended (h : Underway k d made ms s) : s.ended = false := by
  refine Bool.eq_false_of_not_eq_true fun he => ?_
  obtain ⟨-, hcounts, -⟩ := (ended_iff s).1 he
  have := h.counts
  omega

theorem not_ended_of_issue (hm : s.moves = .issue k d :: rest) : s.ended = false := by
  refine Bool.eq_false_of_not_eq_true fun he => ?_
  obtain ⟨hnone, -⟩ := (ended_iff s).1 he
  cases hnone (.issue k d) (hm ▸ List.mem_cons_self)

variable {x : Instance} {i : Instr}

theorem step_issue_underway (hm : s.moves = .issue k d :: rest) (hx : s.insts[k]? = some x)
    (hidle : ∀ y ∈ s.insts, y.busy = false) (hd : decode d = .ok i) (hdomain : InDomain s i)
    (hcounts : s.issued = s.completed) :
    ∃ t, step s = .next t ∧ Underway k d false rest t ∧ t.mem = s.mem ∧ t.cfg = s.cfg := by
  obtain ⟨t, y, hstep, hy, hb, hcur, hmade, -, hothers, hmem, hcfg, hmoves, -, -, hissued, hcompleted⟩ :=
    issueLatchesDescriptor s k x d i rest hm hx (hidle x (List.mem_of_getElem? hx)) hd hdomain
      fun y hy hb => nomatch (hidle y hy).symm.trans hb
  refine ⟨t, hstep, ⟨⟨y, hy, hb, hcur, hmade⟩, ?_, hmoves, by omega⟩, hmem, hcfg⟩
  intro j z hj hz
  exact hidle z (List.mem_of_getElem? (hothers j hj ▸ hz))

theorem step_transition_underway (h : Underway k d false ms s) (g : GoesOn s k rest) (hd : decode d = .ok i)
    (hdomain : InDomain s i) : ∃ t, step s = .next t ∧ Underway k d true rest t ∧
      Writes s.mem t.mem (writes i).Has (resultAt (operands i) s.mem) ∧ t.cfg = s.cfg := by
  obtain ⟨⟨y, hy, hb, rfl, hmade⟩, hothers, -, hcounts⟩ := h
  have hexec := exec_next (s := { s with moves := rest, active := k }).2 ⟨(inDomain_iff s i).1 hdomain, rfl⟩
  have hframe := commandsChangeOnlyMemory i _ _ hexec
  obtain ⟨z, hz, hzb, hzcur, hzmade⟩ := hframe.mover y hy
  refine ⟨_, (step_exec g hy ⟨hb, hd⟩ hmade).trans hexec, ⟨⟨z, hz, hzb.trans hb, hzcur, hzmade⟩, ?_, rfl, hcounts⟩,
    exec_mem (s := { s with moves := rest, active := k }) hexec, rfl⟩
  exact fun j w hj hw => hothers j w hj ((hframe.others j hj).symm.trans hw)

theorem step_done_underway (h : Underway k d true ms s) (g : GoesOn s k rest) (hrest : ∀ m ∈ rest, m.isIssue = false) :
    ∃ t, step s = .next t ∧ t.ended = true ∧ t.mem = s.mem ∧ t.cfg = s.cfg := by
  obtain ⟨⟨y, hy, hb, -, hmade⟩, hothers, -, hcounts⟩ := h
  obtain ⟨t, z, hstep, hz, hzb, -, -, hkept, hmem, hcfg, hmoves, -, -, hissued, hcompleted⟩ :=
    exists_step_done g hy hb hmade
  refine ⟨t, hstep, (ended_iff t).2 ⟨hmoves ▸ hrest, by omega, fun w hw => ?_⟩, hmem, hcfg⟩
  obtain ⟨j, hj⟩ := List.mem_iff_getElem?.1 hw
  by_cases hjk : j = k
  · subst hjk
    cases hz.symm.trans hj
    exact hzb
  · exact hothers j w hjk (hkept j hjk ▸ hj)

end

/-- The same words written over the same memory read alike. -/
theorem read_eq_of_writes {m m₁ m₂ : Memory} {S : Nat → Prop} {F : Nat → Word} (h₁ : Writes m m₁ S F)
    (h₂ : Writes m m₂ S F) (a : Nat) : m₁.read a = m₂.read a := by
  by_cases ha : S a
  · rw [h₁.read_hit ha, h₂.read_hit ha]
  · rw [h₁.read_miss ha, h₂.read_miss ha]

theorem run_succ {s t : State} (n : Nat) (h : step s = .next t) :
    Host.Core.run core (n + 1) s = Host.Core.run core n t := by
  have hcore : core.step s = .next t := h
  simp only [Host.Core.run, hcore]

/-- Settles O47: ISSUE, transition and DONE, one lemma for each step. -/
theorem issuedCommandReachesDone : Obligations.IssuedCommandReachesDone := by
  intro s k x d i hm hx hidle hd hdomain hcounts
  obtain ⟨s₁, hstep, hunder, hmem₁, hcfg₁⟩ := step_issue_underway hm hx hidle hd hdomain hcounts
  have hdomain₁ : InDomain s₁ i := by
    rw [inDomain_iff, hmem₁, hcfg₁, ← inDomain_iff]
    exact hdomain
  obtain ⟨s₂, hstep₁, hunder₁, hwrites, hcfg₂⟩ := step_transition_underway hunder hunder.goesOn_alone hd hdomain₁
  obtain ⟨t, hstep₂, hended, hmem₂, hcfg₃⟩ := step_done_underway hunder₁ hunder₁.goesOn_alone nofun
  have hexec := exec_next.2 ⟨(inDomain_iff s i).1 hdomain, rfl⟩
  refine ⟨t, _, hexec, ?_, hended, ?_, ?_, hcfg₃.trans (hcfg₂.trans hcfg₁)⟩
  · rw [run_succ 2 hstep, run_succ 1 hstep₁, run_succ 0 hstep₂]
    rfl
  · rw [result_of_step 2 (not_ended_of_issue hm) (by simp [State.resetNext, hm]) hstep,
      result_of_step 1 hunder.not_ended (by simp [State.resetNext, hunder.moves]) hstep₁,
      result_of_step 0 hunder₁.not_ended (by simp [State.resetNext, hunder₁.moves]) hstep₂, result_of_ended 0 hended]
  · intro a
    rw [hmem₂]
    exact read_eq_of_writes (hmem₁ ▸ hwrites) (exec_mem hexec) a

end Sys2Proof.Proofs.OneCommand
end

section
/-! Fields of one width at separate places of a word: their OR is their sum, and each place holds its own field. What a
packed word holds (R106) follows from the shift levels lying apart. -/

namespace Sys2Proof.Proofs.PackedWord

open Sys2Proof.Machine Sys2Proof.Safety Sys2Proof.Proofs.ShiftLevels

/-! ## Sums and ORs of separate fields -/

/-- The offsets `s 0 .. s (n-1)` of fields of `b` bits lie in a word, each field below the ones before it. -/
structure FieldsApart (n b : Nat) (s : Nat → Nat) : Prop where
  descend : ∀ i j, i < j → j < n → s j + b ≤ s i
  inWord : ∀ i, i < n → s i + b ≤ 32

theorem FieldsApart.of_succ {n b : Nat} {s : Nat → Nat} (h : FieldsApart (n + 1) b s) : FieldsApart n b s where
  descend i j hij hj := h.descend i j hij (by omega)
  inWord i hi := h.inWord i (by omega)

theorem sumUpTo_congr {n : Nat} {f g : Nat → Nat} (h : ∀ i, i < n → f i = g i) : sumUpTo n f = sumUpTo n g := by
  induction n with
  | zero => rfl
  | succ n ih => rw [sumUpTo, sumUpTo, ih fun i hi => h i (by omega), h n (by omega)]

/-- Fields at offsets of at least `m` leave the bits below `m` clear. -/
theorem two_pow_dvd_sumUpTo {n m : Nat} {f s : Nat → Nat} (h : ∀ i, i < n → m ≤ s i) :
    2 ^ m ∣ sumUpTo n fun i => f i * 2 ^ s i := by
  induction n with
  | zero => exact Nat.dvd_zero _
  | succ n ih =>
    exact Nat.dvd_add (ih fun i hi => h i (by omega)) (Nat.dvd_mul_left_of_dvd (Nat.pow_dvd_pow 2 (h n (by omega))) _)

/-- A field of `b` bits at offset `s` stays below bit `s + b`. -/
theorem mul_two_pow_lt {x b : Nat} (h : x < 2 ^ b) (s : Nat) : x * 2 ^ s < 2 ^ (s + b) := by
  rw [Nat.pow_add, Nat.mul_comm]
  exact Nat.mul_lt_mul_of_pos_left h (Nat.two_pow_pos s)

/-- Separate fields: the OR is the sum. -/
theorem orUpTo_toNat {n b : Nat} {s : Nat → Nat} {v : Nat → Word} (hs : FieldsApart n b s)
    (hv : ∀ i, i < n → (v i).toNat < 2 ^ b) :
    (orUpTo n fun i => v i <<< s i).toNat = sumUpTo n fun i => (v i).toNat * 2 ^ s i := by
  induction n with
  | zero => rfl
  | succ n ih =>
    have hlt := mul_two_pow_lt (hv n (by omega)) (s n)
    have hword : (v n <<< s n).toNat = (v n).toNat * 2 ^ s n := by
      have := Nat.pow_le_pow_right (n := 2) (by decide) (hs.inWord n (by omega))
      rw [BitVec.toNat_shiftLeft, Nat.shiftLeft_eq, Nat.mod_eq_of_lt (by omega)]
    obtain ⟨q, hq⟩ : 2 ^ (s n + b) ∣ sumUpTo n fun i => (v i).toNat * 2 ^ s i :=
      two_pow_dvd_sumUpTo fun i hi => hs.descend i n hi (by omega)
    rw [orUpTo, sumUpTo, BitVec.toNat_or, ih hs.of_succ fun i hi => hv i (by omega), hword, hq,
      Nat.two_pow_add_eq_or_of_lt hlt]

/-- Separate fields: each is read back at its offset. -/
theorem sumUpTo_field {n b : Nat} {s f : Nat → Nat} (hs : FieldsApart n b s) (hf : ∀ i, i < n → f i < 2 ^ b) {i : Nat}
    (hi : i < n) : (sumUpTo n fun i => f i * 2 ^ s i) / 2 ^ s i % 2 ^ b = f i := by
  induction n with
  | zero => exact absurd hi (Nat.not_lt_zero i)
  | succ n ih =>
    obtain ⟨q, hq⟩ : 2 ^ (s n + b) ∣ sumUpTo n fun i => f i * 2 ^ s i :=
      two_pow_dvd_sumUpTo fun i hi => hs.descend i n hi (by omega)
    rw [sumUpTo]
    obtain hin | rfl : i < n ∨ i = n := by omega
    · obtain ⟨d, hd⟩ : ∃ d, s i = s n + b + d := Nat.exists_eq_add_of_le (hs.descend i n hin (by omega))
      have hlt := mul_two_pow_lt (hf n (by omega)) (s n)
      have hcut : ((sumUpTo n fun i => f i * 2 ^ s i) + f n * 2 ^ s n) / 2 ^ s i =
          (sumUpTo n fun i => f i * 2 ^ s i) / 2 ^ s i := by
        rw [hd, Nat.pow_add _ (s n + b), ← Nat.div_div_eq_div_mul, ← Nat.div_div_eq_div_mul, hq,
          Nat.mul_add_div (Nat.two_pow_pos _), Nat.div_eq_of_lt hlt, Nat.add_zero,
          Nat.mul_div_cancel_left _ (Nat.two_pow_pos _)]
      rw [hcut, ih hs.of_succ (fun i hi => hf i (by omega)) hin]
    · rw [hq, Nat.pow_add, Nat.mul_assoc, Nat.mul_comm (f i), ← Nat.mul_add,
        Nat.mul_div_cancel_left _ (Nat.two_pow_pos _), Nat.mul_comm, Nat.mul_add_mod_of_lt (hf i hi)]

/-! ## The packed word (R106) -/

section
variable {w : Nat}

/-- Slot `i` and the slots before it lie above the pad bits (R12). -/
theorem slot_fits {i : Nat} (hi : i < vpw w) : i * w + w + pad w ≤ 32 := by
  have hle := Nat.mul_le_mul_right w (Nat.succ_le_of_lt hi)
  have hfill := vpw_mul_add_pad w
  rw [Nat.succ_mul] at hle
  omega

/-- The shift levels of R12 separate the fields. -/
theorem fieldsApart_sh (w : Nat) : FieldsApart (vpw w) w (sh w) where
  descend i j hij hj := by
    have hle := Nat.mul_le_mul_right w (Nat.succ_le_of_lt hij)
    have hfits := slot_fits hj
    rw [Nat.succ_mul] at hle
    rw [sh, sh]
    omega
  inWord i hi := by
    have hfits := slot_fits hi
    rw [sh]
    omega

/-- Every shift level leaves the pad bits free. -/
theorem pad_le_sh {i : Nat} (hi : i < vpw w) : pad w ≤ sh w i := by
  have hfits := slot_fits hi
  rw [sh]
  omega

section
variable {v : Nat → Word} (hv : ∀ i, i < vpw w → (v i).toNat < 2 ^ w)
include hv

theorem packed_toNat : (packed w v).toNat = sumUpTo (vpw w) fun i => (v i).toNat * 2 ^ sh w i :=
  orUpTo_toNat (fieldsApart_sh w) hv

/-- Slot `i` of a packed word holds value `i`. -/
theorem bitsAt_packed {i : Nat} (hi : i < vpw w) : bitsAt (packed w v) (sh w i) w = v i := by
  apply BitVec.eq_of_toNat_eq
  rw [bitsAt_toNat, packed_toNat hv]
  exact sumUpTo_field (fieldsApart_sh w) hv hi

/-- The pad bits of a packed word are clear. -/
theorem packed_mod_pad : (packed w v).toNat % 2 ^ pad w = 0 := by
  rw [packed_toNat hv]
  exact Nat.mod_eq_zero_of_dvd (two_pow_dvd_sumUpTo fun _ => pad_le_sh)

end

theorem packed_congr {u v : Nat → Word} (h : ∀ i, i < vpw w → u i = v i) : packed w u = packed w v :=
  orUpTo_congr fun i hi => by rw [h i hi]

/-- Settles O12: the shift levels separate the fields. -/
theorem packedWordStructure : Obligations.PackedWordStructure :=
  fun _ _ _ hv => ⟨packed_toNat hv, fun _ => bitsAt_packed hv, packed_mod_pad hv⟩

/-! ## The slots of a word packed again (R112) -/

theorem bitsAt_lt (x : Word) (s b : Nat) : (bitsAt x s b).toNat < 2 ^ b := by
  rw [bitsAt_toNat]
  exact Nat.mod_lt _ (Nat.two_pow_pos b)

/-- Bits at an offset of at least `p` do not depend on the bits below `p`. -/
theorem bitsAt_congr_of_div {x y : Word} {p s : Nat} (b : Nat) (hs : p ≤ s)
    (h : x.toNat / 2 ^ p = y.toNat / 2 ^ p) : bitsAt x s b = bitsAt y s b := by
  obtain ⟨d, rfl⟩ := Nat.exists_eq_add_of_le hs
  apply BitVec.eq_of_toNat_eq
  rw [bitsAt_toNat, bitsAt_toNat, Nat.pow_add, ← Nat.div_div_eq_div_mul, ← Nat.div_div_eq_div_mul, h]

/-- The first `n` slots of a word are the word down to the last of them. -/
theorem sumUpTo_slots {x n : Nat} (hx : x < 2 ^ 32) (hn : n ≤ vpw w) :
    sumUpTo n (fun i => x / 2 ^ sh w i % 2 ^ w * 2 ^ sh w i) = x / 2 ^ (32 - n * w) * 2 ^ (32 - n * w) := by
  induction n with
  | zero => rw [sumUpTo, Nat.zero_mul, Nat.sub_zero, Nat.div_eq_of_lt hx, Nat.zero_mul]
  | succ n ih =>
    have hlevel : 32 - n * w = sh w n + w := by
      have hfits := slot_fits hn
      rw [sh]
      omega
    have hnext : 32 - (n + 1) * w = sh w n := by
      rw [Nat.succ_mul, sh]
      omega
    rw [sumUpTo, ih (by omega), hlevel, hnext, Nat.add_comm (sh w n), Nat.pow_add 2 w, ← Nat.mul_assoc, ← Nat.add_mul,
      Nat.mul_comm (2 ^ w) (2 ^ sh w n), ← Nat.div_div_eq_div_mul, Nat.div_add_mod']

/-- Clearing the low `p` bits. -/
theorem and_not_mask_toNat (x : Word) {p : Nat} (hp : p ≤ 32) :
    (x &&& ~~~ mask p).toNat = x.toNat / 2 ^ p * 2 ^ p := by
  have hmask : ~~~ mask p = BitVec.allOnes 32 <<< p := by
    ext i hi
    rw [BitVec.getElem_not, BitVec.getElem_shiftLeft, BitVec.getElem_allOnes, Bool.and_true,
      BitVec.getElem_eq_testBit_toNat, mask_toNat hp, Nat.testBit_two_pow_sub_one]
  rw [hmask, ← BitVec.shiftLeft_ushiftRight, BitVec.toNat_shiftLeft, BitVec.toNat_ushiftRight, Nat.shiftLeft_eq,
    Nat.shiftRight_eq_div_pow]
  exact Nat.mod_eq_of_lt (lt_of_le_of_lt (Nat.div_mul_le_self _ _) x.isLt)

/-- Packing the slots of a word clears its pad bits and nothing else. -/
theorem packed_bitsAt (x : Word) : packed w (fun i => bitsAt x (sh w i) w) = x &&& ~~~ mask (pad w) := by
  have hpad : 32 - vpw w * w = pad w := by
    have := vpw_mul_add_pad w
    omega
  apply BitVec.eq_of_toNat_eq
  rw [packed_toNat fun _ _ => bitsAt_lt _ _ _, and_not_mask_toNat x (by omega), ← hpad,
    ← sumUpTo_slots x.isLt (Nat.le_refl _)]
  exact sumUpTo_congr fun i _ => by rw [bitsAt_toNat]

end

end Sys2Proof.Proofs.PackedWord
end

section
/-! The results of PACK and UNPACK (R101 to R104). Both forms of an operation have the same operands but for the form,
and `exec_mem` says what a command with these operands writes. -/

namespace Sys2Proof.Proofs.PackUnpack

open Sys2Proof.Machine Sys2Proof.Safety Sys2Proof.Proofs.TransitionFrame Sys2Proof.Proofs.Encoding
  Sys2Proof.Proofs.OpcodeMap

/-! ## Inside and outside the domain (R163) -/

theorem exec_completes {i : Instr} {s : State} (h : InDomain s i) : ∃ t, exec i s = .next t :=
  ⟨_, exec_next.2 ⟨(inDomain_iff s i).1 h, rfl⟩⟩

theorem inDomain_of_exec {i : Instr} {s t : State} (h : exec i s = .next t) : InDomain s i :=
  (inDomain_iff s i).2 (exec_next.1 h).1

theorem exec_refused {i : Instr} {s : State} (h : ¬ InDomain s i) :
    ∃ vs, exec i s = .refused (.precondition vs) :=
  ⟨_, (exec_eq i s).trans (command_refused.2 ⟨fun hv => h ((inDomain_iff s i).2 hv), rfl⟩)⟩

/-! ## The control words (R73) -/

/-- The control word of a packing command, its `PARAM` masked out. -/
theorem packing_cw0 {op v w : Nat} {a b n : Word} (hop : op < 4) (hv : v < 2) (hw : LegalWidth w) :
    (encodeFields op v w a b n).cw0 &&& 0xFFFFC0FF = (encodeFields op v 0 0 0 0).cw0 := by
  rw [packingRow_match_iff hop hv, field_param_encodeFields hop hv hw]
  rfl

/-! ## What a command leaves in memory -/

/-- The memory `m'` after PACK of `n` values of `m` (R101). -/
structure Packed (w src dst n : Nat) (m m' : Memory) : Prop where
  words : ∀ j, j < n / vpw w → m'.read (dst + j) = packed w fun i => m.read (src + j * vpw w + i)
  others : SameOutside ⟨dst, n / vpw w⟩ m m'

/-- The memory `m'` after UNPACK of `n` words of `m` (R103). -/
structure Unpacked (w src dst n : Nat) (m m' : Memory) : Prop where
  values : ∀ j i, j < n → i < vpw w → m'.read (dst + j * vpw w + i) = bitsAt (m.read (src + j)) (sh w i) w
  others : SameOutside ⟨dst, n * vpw w⟩ m m'

section
variable {w src dst n : Nat} {v : Bool} {i : Instr} {s t : State} (h : exec i s = .next t)
include h

theorem legalWidth_of_exec (ho : (operands i).op = .pack w ∨ (operands i).op = .unpack w) : LegalWidth w := by
  obtain ⟨hwf, -⟩ := (staticViolations_nil _ _).1 ((violations_nil _ _ _).1 (exec_next.1 h).1).1
  exact (wellFormed_iff i).1 hwf w ho

theorem writes_of_exec {o : Operands} (ho : operands i = o) :
    Writes s.mem t.mem (writesOf o).Has (resultAt o s.mem) :=
  ho ▸ exec_mem h

theorem packed_of_exec (ho : operands i = ⟨.pack w, v, src, dst, n⟩) : Packed w src dst n s.mem t.mem := by
  have hwrites : Writes s.mem t.mem (Footprint.Has ⟨dst, n / vpw w⟩) (packOut w src dst s.mem) := writes_of_exec h ho
  refine ⟨fun j hj => ?_, fun a ha => hwrites.read_miss ha⟩
  rw [hwrites.read_hit ⟨Nat.le_add_right _ _, Nat.add_lt_add_left hj _⟩, packOut, Nat.add_sub_cancel_left]
  rfl

theorem unpacked_of_exec (ho : operands i = ⟨.unpack w, v, src, dst, n⟩) : Unpacked w src dst n s.mem t.mem := by
  have hw : LegalWidth w := legalWidth_of_exec h (.inr (by rw [ho]))
  have hwrites : Writes s.mem t.mem (Footprint.Has ⟨dst, n * vpw w⟩) (unpackOut w src dst s.mem) :=
    writes_of_exec h ho
  refine ⟨fun j k hj hk => ?_, fun a ha => hwrites.read_miss ha⟩
  rw [hwrites.read_hit ((slot_addresses (vpw_pos hw) _).2 ⟨j, hj, k, hk, rfl⟩), unpackOut_at w src dst s.mem hk]
  exact shift_mask hw.2 _ _

end

/-! ## The results in the domain -/

section
variable {w src dst n : Nat} {v : Bool} {i : Instr} {s : State} (hdomain : InDomain s i)
include hdomain

theorem exec_packed (ho : operands i = ⟨.pack w, v, src, dst, n⟩) : ∃ t, exec i s = .next t ∧
    (∀ j, j < n / (32 / w) → t.mem.read (dst + j) = packed w fun i => s.mem.read (src + j * (32 / w) + i)) ∧
    SameOutside ⟨dst, n / (32 / w)⟩ s.mem t.mem ∧ OnlyTransition s t := by
  obtain ⟨t, h⟩ := exec_completes hdomain
  obtain ⟨hwords, hothers⟩ := packed_of_exec h ho
  exact ⟨t, h, hwords, hothers, commandsChangeOnlyMemory i s t h⟩

theorem exec_unpacked (ho : operands i = ⟨.unpack w, v, src, dst, n⟩) : ∃ t, exec i s = .next t ∧
    (∀ j i, j < n → i < 32 / w → t.mem.read (dst + j * (32 / w) + i) =
      bitsAt (s.mem.read (src + j)) (32 - w - i * w) w) ∧
    SameOutside ⟨dst, n * (32 / w)⟩ s.mem t.mem ∧ OnlyTransition s t := by
  obtain ⟨t, h⟩ := exec_completes hdomain
  obtain ⟨hvalues, hothers⟩ := unpacked_of_exec h ho
  exact ⟨t, h, hvalues, hothers, commandsChangeOnlyMemory i s t h⟩

end

/-- Settles O7: PACK's domain is the domain of the command. -/
theorem packSerialResult : Obligations.PackSerialResult := fun w src dst len s =>
  ⟨packing_cw0 (op := 0) (v := 0) (by decide) (by decide),
    fun hdomain => exec_packed (i := .packS w src dst len) hdomain rfl,
    fun hdomain => exec_refused (i := .packS w src dst len) hdomain⟩

/-- Settles O8: the domain of the command is PACK's with the lane condition. -/
theorem packVectorResult : Obligations.PackVectorResult := fun w src dst len s =>
  ⟨packing_cw0 (op := 0) (v := 1) (by decide) (by decide),
    fun hdomain hvpw hwords => exec_packed (i := .packV w src dst len) ⟨hdomain, hvpw, hwords⟩ rfl,
    fun hdomain => exec_refused (i := .packV w src dst len) hdomain⟩

/-- Settles O9: UNPACK's domain is the domain of the command. -/
theorem unpackSerialResult : Obligations.UnpackSerialResult := fun w src dst len s =>
  ⟨packing_cw0 (op := 1) (v := 0) (by decide) (by decide),
    fun hdomain => exec_unpacked (i := .unpackS w src dst len) hdomain rfl,
    fun hdomain => exec_refused (i := .unpackS w src dst len) hdomain⟩

/-- Settles O10: the domain of the command is UNPACK's with the lane condition. -/
theorem unpackVectorResult : Obligations.UnpackVectorResult := fun w src dst len s =>
  ⟨packing_cw0 (op := 1) (v := 1) (by decide) (by decide),
    fun hdomain hvpw hwords => exec_unpacked (i := .unpackV w src dst len) ⟨hdomain, hvpw, hwords⟩ rfl,
    fun hdomain => exec_refused (i := .unpackV w src dst len) hdomain⟩

end Sys2Proof.Proofs.PackUnpack
end

section
/-! PACK and UNPACK after one another (R107, R112), at width 32 (R108), and what they do to pad bits and values (R110,
R113). Each statement is about both forms; `pack_spec` and `unpack_spec` give what the forms share. -/

namespace Sys2Proof.Proofs.RoundTrips

open Sys2Proof.Machine Sys2Proof.Safety Sys2Proof.Proofs.PackedWord Sys2Proof.Proofs.PackUnpack

/-! ## What both forms share -/

section
variable {w : Nat} {a b n : Word} {i : Instr} {s t : State}

theorem pack_spec (hi : i = .packS w a b n ∨ i = .packV w a b n) (h : exec i s = .next t) :
    PackDomain s.cfg s.mem w a.toNat b.toNat n.toNat ∧ Packed w a.toNat b.toNat n.toNat s.mem t.mem := by
  obtain rfl | rfl := hi
  · exact ⟨inDomain_of_exec h, packed_of_exec h rfl⟩
  · obtain ⟨hdomain, -⟩ := inDomain_of_exec h
    exact ⟨hdomain, packed_of_exec h rfl⟩

theorem unpack_spec (hi : i = .unpackS w a b n ∨ i = .unpackV w a b n) (h : exec i s = .next t) :
    UnpackDomain s.cfg w a.toNat b.toNat n.toNat ∧ Unpacked w a.toNat b.toNat n.toNat s.mem t.mem := by
  obtain rfl | rfl := hi
  · exact ⟨inDomain_of_exec h, unpacked_of_exec h rfl⟩
  · obtain ⟨hdomain, -⟩ := inDomain_of_exec h
    exact ⟨hdomain, unpacked_of_exec h rfl⟩

end

/-! ## Values by word and slot -/

section
variable {c : Config} {m : Memory} {w src dst n : Nat}

/-- P2, for the values of one output word. -/
theorem slot_value_lt (h : PackDomain c m w src dst n) {j : Nat} (hj : j < n / vpw w) (k : Nat) (hk : k < vpw w) :
    (m.read (src + j * vpw w + k)).toNat < 2 ^ w := by
  have hvalue := h.values (j * vpw w + k) ((slot_lt hj hk).trans_le (Nat.div_mul_le_self n _))
  rwa [← Nat.add_assoc] at hvalue

/-- The values of `n` words, counted through, are the slots of the words. -/
theorem exists_slot (hw : LegalWidth w) {x : Nat} (hx : x < n * vpw w) :
    ∃ j k, j < n ∧ k < vpw w ∧ x = j * vpw w + k := by
  obtain ⟨j, hj, k, hk, hjk⟩ := (slot_addresses (dst := 0) (vpw_pos hw) x).1 ⟨Nat.zero_le x, by rwa [Nat.zero_add]⟩
  exact ⟨j, k, hj, hk, by rwa [Nat.zero_add] at hjk⟩

end

/-! ## Round trips -/

/-- Settles O13: each slot of a packed word holds its value. -/
theorem packThenUnpack : Obligations.PackThenUnpack := by
  intro w a b c n m pack unpack s t u hpack hunpack hm hexec hexec' x hx
  obtain ⟨hdomain, hpacked⟩ := pack_spec hpack hexec
  obtain ⟨-, hunpacked⟩ := unpack_spec hunpack hexec'
  have hn : n.toNat / vpw w * vpw w = n.toNat := Nat.div_mul_cancel (Nat.dvd_of_mod_eq_zero hdomain.multiple)
  obtain ⟨j, k, hj, hk, rfl⟩ := exists_slot hdomain.width.1 (hn.symm ▸ hx)
  rw [← Nat.add_assoc, ← Nat.add_assoc, hunpacked.values j k (hm ▸ hj) hk, hpacked.words j hj,
    bitsAt_packed (slot_value_lt hdomain hj) hk]

/-- Settles O17: packing the slots of a word clears its pad bits. -/
theorem unpackThenPack : Obligations.UnpackThenPack := by
  intro w a b c m n unpack pack s t u hunpack hpack hn hexec hexec' j hj
  obtain ⟨hdomain, hunpacked⟩ := unpack_spec hunpack hexec
  obtain ⟨-, hpacked⟩ := pack_spec hpack hexec'
  have hwords : n.toNat / vpw w = m.toNat := Nat.div_eq_of_eq_mul_left (vpw_pos hdomain.width.1) hn
  rw [hpacked.words j (hwords ▸ hj), packed_congr fun k hk => hunpacked.values j k hj hk]
  exact packed_bitsAt _

/-! ## Pad bits and values -/

/-- Settles O16: no shift level reaches below `pad w`. -/
theorem padBits : Obligations.PadBits := by
  constructor
  · intro w a b n i s t hi hexec j hj
    obtain ⟨hdomain, hpacked⟩ := pack_spec hi hexec
    rw [hpacked.words j hj]
    exact packed_mod_pad (slot_value_lt hdomain hj)
  · intro w a b n i s s' t t' hi hagree hexec hexec' x hx
    obtain ⟨hdomain, hunpacked⟩ := unpack_spec hi hexec
    obtain ⟨-, hunpacked'⟩ := unpack_spec hi hexec'
    obtain ⟨j, k, hj, hk, rfl⟩ := exists_slot hdomain.width.1 hx
    rw [← Nat.add_assoc, hunpacked.values j k hj hk, hunpacked'.values j k hj hk]
    exact bitsAt_congr_of_div w (pad_le_sh hk) (hagree j hj)

/-- Settles O18: `w` bits of a word are below `2^w`. -/
theorem unpackLandsInDomain : Obligations.UnpackLandsInDomain := by
  intro w a b n i s t hi hexec x hx
  obtain ⟨hdomain, hunpacked⟩ := unpack_spec hi hexec
  obtain ⟨j, k, hj, hk, rfl⟩ := exists_slot hdomain.width.1 hx
  rw [← Nat.add_assoc, hunpacked.values j k hj hk]
  exact bitsAt_lt _ _ _

/-! ## Width 32 -/

theorem vpw_32 : vpw 32 = 1 := rfl

/-- A packed word of one field is the field. -/
theorem packed_32 (v : Nat → Word) : packed 32 v = v 0 := by
  simp [packed, orUpTo]

theorem bitsAt_zero_32 (x : Word) : bitsAt x 0 32 = x := by
  apply BitVec.eq_of_toNat_eq
  rw [bitsAt_toNat, Nat.pow_zero, Nat.div_one, Nat.mod_eq_of_lt x.isLt]

/-- The memory `m'` after a copy of `n` words of `m`. -/
def Copied (src dst n : Nat) (m m' : Memory) : Prop :=
  (∀ j, j < n → m'.read (dst + j) = m.read (src + j)) ∧ SameOutside ⟨dst, n⟩ m m'

section
variable {src dst n : Nat} {m m' : Memory}

theorem copied_of_packed (h : Packed 32 src dst n m m') : Copied src dst n m m' := by
  obtain ⟨hwords, hothers⟩ := h
  simp only [vpw_32, Nat.div_one, Nat.mul_one, packed_32, Nat.add_zero] at hwords hothers
  exact ⟨hwords, hothers⟩

theorem copied_of_unpacked (h : Unpacked 32 src dst n m m') : Copied src dst n m m' := by
  obtain ⟨hvalues, hothers⟩ := h
  simp only [vpw_32, Nat.mul_one] at hvalues hothers
  exact ⟨fun j hj => (hvalues j 0 hj Nat.one_pos).trans (bitsAt_zero_32 _), hothers⟩

/-- P1 and P2 hold of any words at width 32. -/
theorem packDomain_32_iff {c : Config} : PackDomain c m 32 src dst n ↔ UnpackDomain c 32 src dst n := by
  constructor
  · rintro ⟨hwidth, -, -, hbounds, hapart, hplain⟩
    rw [vpw_32, Nat.div_one] at hbounds hapart hplain
    exact ⟨hwidth, by rwa [vpw_32, Nat.mul_one], by rwa [vpw_32, Nat.mul_one], by rwa [vpw_32, Nat.mul_one]⟩
  · rintro ⟨hwidth, hbounds, hapart, hplain⟩
    rw [vpw_32, Nat.mul_one] at hbounds hapart hplain
    exact ⟨hwidth, Nat.mod_one n, fun _ _ => BitVec.isLt _, by rwa [vpw_32, Nat.div_one],
      by rwa [vpw_32, Nat.div_one], by rwa [vpw_32, Nat.div_one]⟩

end

theorem pack_of_copy {v : Bool} {a b n : Word} {i : Instr} (h : assemble (.copy v a b n) = some i) :
    i = .packS 32 a b n ∨ i = .packV 32 a b n := by
  cases v with
  | false => exact .inl (Option.some.inj h).symm
  | true => exact .inr (Option.some.inj h).symm

/-- Settles O14: a word holds one value, all of it. -/
theorem identityAtWidth32 : Obligations.IdentityAtWidth32 := by
  refine ⟨?_, fun _ _ _ _ _ => packDomain_32_iff⟩
  intro a b n i s t hi hexec
  have hpack (hi : i = .packS 32 a b n ∨ i = .packV 32 a b n) := copied_of_packed (pack_spec hi hexec).2
  have hunpack (hi : i = .unpackS 32 a b n ∨ i = .unpackV 32 a b n) := copied_of_unpacked (unpack_spec hi hexec).2
  obtain h | h | h | h | ⟨v, hv⟩ := hi
  · exact hpack (.inl h)
  · exact hpack (.inr h)
  · exact hunpack (.inl h)
  · exact hunpack (.inr h)
  · exact hpack (pack_of_copy hv)

end Sys2Proof.Proofs.RoundTrips
end

section
/-! The serial and the lane-parallel form of a command (R109, R146). The result of a command and where it is written do
not depend on the form or on `LANES`, and canonical memories that list the same words are equal. -/

namespace Sys2Proof.Proofs.Forms

open Sys2Proof.Machine Sys2Proof.Safety

/-- The same words written over the same memory are listed alike. -/
theorem get?_eq_of_writes {m m₁ m₂ : Memory} {S : Nat → Prop} {F : Nat → Word} (h₁ : Writes m m₁ S F)
    (h₂ : Writes m m₂ S F) (a : Nat) : m₁.get? a = m₂.get? a := by
  by_cases ha : S a
  · rw [h₁.hit a ha, h₂.hit a ha]
  · rw [h₁.miss a ha, h₂.miss a ha]

theorem wf_of_exec {i : Instr} {s t : State} (hwf : Memory.wf s.cfg.memWords s.mem = true) (h : exec i s = .next t) :
    Memory.wf s.cfg.memWords t.mem = true := by
  obtain ⟨hdomain, rfl⟩ := exec_next.1 h
  exact datapathOf_wf ((violations_nil _ _ _).1 hdomain).1 _ hwf

/-- The end of a transition looks at the memory of the datapath only (R27). -/
theorem commit_congr {s : State} {e e' : Engine} (h : e.mem = e'.mem) : s.commit e = s.commit e' := by
  rw [State.commit, State.commit, h]

/-- `sf` is the serial form of the command `v`. -/
def SerialOf (v sf : Instr) : Prop := operands sf = { operands v with vector := false }

section
variable {v sf : Instr} (hform : SerialOf v sf)
include hform

/-- The serial form drops one precondition, the lane condition. -/
theorem SerialOf.violations_eq_nil {c : Config} {m : Memory} (h : violations c v m = []) : violations c sf m = [] := by
  obtain ⟨hstatic, hdata⟩ := (violations_nil c v m).1 h
  obtain ⟨hwf, hwidth, hplane, hlength, -, hreads, hwrites, hoverlap, hplain⟩ := (staticViolations_nil c v).1 hstatic
  rw [violations_nil, staticViolations_nil, wellFormed_iff, reads, writes, dataViolations, hform]
  exact ⟨⟨(wellFormed_iff v).1 hwf, hwidth, hplane, hlength, nofun, hreads, hwrites, hoverlap, hplain⟩, hdata⟩

theorem SerialOf.writes_eq : writes sf = writes v := by
  rw [writes, hform]
  rfl

theorem SerialOf.resultAt_eq : resultAt (operands sf) = resultAt (operands v) := by
  rw [hform]
  rfl

end

/-- Commands that write the same range with the same result leave the same memory. -/
theorem mem_eq_of_exec {i j : Instr} {s s' t t' : State} (hwrites : writes j = writes i)
    (hresult : resultAt (operands j) = resultAt (operands i)) (hbound : s'.cfg.memWords = s.cfg.memWords)
    (hmem : s'.mem = s.mem) (hwf : Memory.wf s.cfg.memWords s.mem = true) (h : exec i s = .next t)
    (h' : exec j s' = .next t') : t'.mem = t.mem := by
  have hwf' := wf_of_exec (hbound ▸ hmem ▸ hwf) h'
  have hw' := exec_mem h'
  rw [hbound] at hwf'
  rw [hwrites, hresult, hmem] at hw'
  exact Memory.ext_wf hwf' (wf_of_exec hwf h) (get?_eq_of_writes hw' (exec_mem h))

/-- Settles O15: both forms, and the form at another `LANES`, write the same words. -/
theorem serialAndLaneFormsAgree : Obligations.SerialAndLaneFormsAgree := by
  intro w a b n v sf s t hforms hwf hexec
  have hform : SerialOf v sf := by
    obtain ⟨rfl, rfl⟩ | ⟨rfl, rfl⟩ | ⟨rfl, rfl⟩ | ⟨rfl, rfl⟩ | ⟨rfl, rfl⟩ | ⟨rfl, rfl⟩ := hforms <;> rfl
  constructor
  · obtain ⟨hdomain, rfl⟩ := exec_next.1 hexec
    have hserial := exec_next.2 ⟨hform.violations_eq_nil hdomain, rfl⟩
    have hmem := mem_eq_of_exec hform.writes_eq hform.resultAt_eq rfl rfl hwf hexec hserial
    exact hserial.trans (congrArg Host.Outcome.next (commit_congr hmem))
  · exact fun L t' hexec' =>
      mem_eq_of_exec (s := s) (s' := { s with cfg := { s.cfg with lanes := L } }) rfl rfl rfl rfl hwf hexec hexec'

end Sys2Proof.Proofs.Forms
end

section
/-! The merged word of COLLAPSE (R144) is a packed word at width `bpp k`: `vpw`, `pad` and the shift levels at that width
are the plane count, 0 and the plane offsets (R147). What R106 says of packed words so holds of merged ones. -/

namespace Sys2Proof.Proofs.MergedWord

open Sys2Proof.Machine Sys2Proof.Safety Sys2Proof.Proofs.PackedWord

section
variable {k : Nat} (hk : k = 2 ∨ k = 4)
include hk

/-! ## The width of a plane element (R13) -/

theorem vpw_bpp : vpw (bpp k) = k := by
  obtain rfl | rfl := hk <;> rfl

theorem pad_bpp : pad (bpp k) = 0 := by
  obtain rfl | rfl := hk <;> rfl

theorem sh_bpp {j : Nat} (hj : j < k) : sh (bpp k) j = psh k j := by
  obtain rfl | rfl := hk <;> simp only [sh, psh, bpp] <;> omega

/-! ## The merged word -/

theorem merged_eq_packed (p : Nat → Word) : merged k p = packed (bpp k) p :=
  calc merged k p = orUpTo k fun j => p j <<< sh (bpp k) j := orUpTo_congr fun j hj => by rw [sh_bpp hk hj]; rfl
    _ = orUpTo (vpw (bpp k)) fun j => p j <<< sh (bpp k) j := by rw [vpw_bpp hk]

section
variable {p : Nat → Word} (hp : ∀ j, j < k → (p j).toNat < 2 ^ bpp k)
include hp

theorem merged_toNat : (merged k p).toNat = sumUpTo k fun j => (p j).toNat * 2 ^ psh k j := by
  rw [merged_eq_packed hk, packed_toNat fun j hj => hp j (vpw_bpp hk ▸ hj), vpw_bpp hk]
  exact sumUpTo_congr fun j hj => by rw [sh_bpp hk hj]

/-- Field `j` of a merged word holds the element of plane `j`. -/
theorem bitsAt_merged {j : Nat} (hj : j < k) : bitsAt (merged k p) (psh k j) (bpp k) = p j := by
  rw [merged_eq_packed hk, ← sh_bpp hk hj]
  exact bitsAt_packed (fun i hi => hp i (vpw_bpp hk ▸ hi)) ((vpw_bpp hk).symm ▸ hj)

end

/-- The fields of a word merge to the word: no bits are left over. -/
theorem merged_bitsAt (x : Word) : merged k (fun j => bitsAt x (psh k j) (bpp k)) = x := by
  have hfields (j : Nat) (hj : j < vpw (bpp k)) : bitsAt x (psh k j) (bpp k) = bitsAt x (sh (bpp k) j) (bpp k) := by
    rw [sh_bpp hk (vpw_bpp hk ▸ hj)]
  rw [merged_eq_packed hk, packed_congr hfields, packed_bitsAt, pad_bpp hk]
  exact BitVec.and_allOnes

end

theorem merged_congr {k : Nat} {p q : Nat → Word} (h : ∀ j, j < k → p j = q j) : merged k p = merged k q :=
  orUpTo_congr fun j hj => by rw [h j hj]

/-- Settles O29: a merged word is a packed word at width `bpp k`. -/
theorem mergedWordStructure : Obligations.MergedWordStructure :=
  fun _ _ hk hp => ⟨merged_toNat hk hp, fun _ => bitsAt_merged hk hp⟩

end Sys2Proof.Proofs.MergedWord
end

section
/-! The results of COLLAPSE and EXPAND (R131 to R138). Both forms of an operation have the same operands but for the form,
and `exec_mem` says what a command with these operands writes, in place or not. -/

namespace Sys2Proof.Proofs.Planes

open Sys2Proof.Machine Sys2Proof.Safety Sys2Proof.Proofs.TransitionFrame Sys2Proof.Proofs.PackUnpack

/-! ## What a command leaves in memory -/

/-- The memory `m'` after COLLAPSE of `k` planes of `n` elements of `m` (R139). -/
structure Collapsed (k src dst n : Nat) (m m' : Memory) : Prop where
  words : ∀ e, e < n → m'.read (dst + e) = merged k fun j => m.read (src + j * n + e)
  others : SameOutside ⟨dst, n⟩ m m'

/-- The memory `m'` after EXPAND of `n` words of `m` to `k` planes (R139). -/
structure Expanded (k src dst n : Nat) (m m' : Memory) : Prop where
  elements : ∀ j e, j < k → e < n → m'.read (dst + j * n + e) = bitsAt (m.read (src + e)) (psh k j) (bpp k)
  others : SameOutside ⟨dst, k * n⟩ m m'

section
variable {k src dst n : Nat} {v : Bool} {i : Instr} {s t : State} (h : exec i s = .next t)
include h

theorem collapsed_of_exec (ho : operands i = ⟨.collapse k, v, src, dst, n⟩) :
    Collapsed k src dst n s.mem t.mem := by
  have hwrites : Writes s.mem t.mem (Footprint.Has ⟨dst, n⟩) (collapseOut k src dst n s.mem) := writes_of_exec h ho
  refine ⟨fun e he => ?_, fun a ha => hwrites.read_miss ha⟩
  rw [hwrites.read_hit ⟨Nat.le_add_right _ _, Nat.add_lt_add_left he _⟩, collapseOut, Nat.add_sub_cancel_left]
  rfl

theorem expanded_of_exec (ho : operands i = ⟨.expand k, v, src, dst, n⟩) : Expanded k src dst n s.mem t.mem := by
  have hwrites : Writes s.mem t.mem (Footprint.Has ⟨dst, k * n⟩) (expandOut k src dst n s.mem) := writes_of_exec h ho
  refine ⟨fun j e hj he => ?_, fun a ha => hwrites.read_miss ha⟩
  rw [hwrites.read_hit ((expand_addresses _).2 ⟨e, he, j, hj, rfl⟩), expandOut_at k src dst s.mem he]
  exact shift_mask (Nat.div_le_self 32 k) _ _

end

/-- An element as R135 and R137 write it: the word shifted down and masked. -/
theorem Expanded.element {k src dst n : Nat} {m m' : Memory} (h : Expanded k src dst n m m') {j e : Nat} (hj : j < k)
    (he : e < n) : m'.read (dst + j * n + e) = m.read (src + e) >>> psh k j &&& mask (bpp k) :=
  (h.elements j e hj he).trans (shift_mask (Nat.div_le_self 32 k) _ _).symm

/-- In place, COLLAPSE writes plane 0 only. -/
theorem Collapsed.other_planes {k buf n : Nat} {m m' : Memory} (h : Collapsed k buf buf n m m') {j : Nat} (hj : 1 ≤ j)
    (e : Nat) : m'.read (buf + j * n + e) = m.read (buf + j * n + e) := by
  have hplane : n ≤ j * n := Nat.le_mul_of_pos_left n hj
  exact h.others _ fun ⟨_, hlt⟩ => by dsimp only at hlt; omega

/-- What EXPAND makes depends on its `n` source words alone. -/
theorem Expanded.congr {k src dst n : Nat} {m₁ m₁' m₂ m₂' : Memory} (h₁ : Expanded k src dst n m₁ m₁')
    (h₂ : Expanded k src dst n m₂ m₂') (hagree : ∀ e, e < n → m₂.read (src + e) = m₁.read (src + e)) {x : Nat}
    (hx : x < k * n) : m₂'.read (dst + x) = m₁'.read (dst + x) := by
  obtain ⟨e, he, j, hj, hje⟩ := (expand_addresses _).1 ⟨Nat.le_add_right dst x, Nat.add_lt_add_left hx dst⟩
  rw [hje, h₁.elements j e hj he, h₂.elements j e hj he, hagree e he]

/-! ## The results in the domain -/

theorem merged_two (p : Nat → Word) : merged 2 p = p 0 <<< 16 ||| p 1 := by
  simp [merged, orUpTo]

theorem merged_four (p : Nat → Word) : merged 4 p = p 0 <<< 24 ||| p 1 <<< 16 ||| p 2 <<< 8 ||| p 3 := by
  simp [merged, orUpTo]

section
variable {src dst n : Nat} {v : Bool} {i : Instr} {s : State} (hdomain : InDomain s i)
include hdomain

theorem exec_collapse16 (ho : operands i = ⟨.collapse 2, v, src, dst, n⟩) : ∃ t, exec i s = .next t ∧
    (∀ e, e < n → t.mem.read (dst + e) = s.mem.read (src + e) <<< 16 ||| s.mem.read (src + n + e)) ∧
    SameOutside ⟨dst, n⟩ s.mem t.mem ∧ OnlyTransition s t := by
  obtain ⟨t, h⟩ := exec_completes hdomain
  obtain ⟨hwords, hothers⟩ := collapsed_of_exec h ho
  refine ⟨t, h, fun e he => ?_, hothers, commandsChangeOnlyMemory i s t h⟩
  rw [hwords e he, merged_two, Nat.zero_mul, Nat.add_zero, Nat.one_mul]

theorem exec_collapse8 (ho : operands i = ⟨.collapse 4, v, src, dst, n⟩) : ∃ t, exec i s = .next t ∧
    (∀ e, e < n → t.mem.read (dst + e) =
      s.mem.read (src + e) <<< 24 ||| s.mem.read (src + n + e) <<< 16 |||
        s.mem.read (src + 2 * n + e) <<< 8 ||| s.mem.read (src + 3 * n + e)) ∧
    SameOutside ⟨dst, n⟩ s.mem t.mem ∧ OnlyTransition s t := by
  obtain ⟨t, h⟩ := exec_completes hdomain
  obtain ⟨hwords, hothers⟩ := collapsed_of_exec h ho
  refine ⟨t, h, fun e he => ?_, hothers, commandsChangeOnlyMemory i s t h⟩
  rw [hwords e he, merged_four, Nat.zero_mul, Nat.add_zero, Nat.one_mul]

theorem exec_expand16 (ho : operands i = ⟨.expand 2, v, src, dst, n⟩) : ∃ t, exec i s = .next t ∧
    (∀ e, e < n →
      t.mem.read (dst + e) = s.mem.read (src + e) >>> 16 &&& 0xFFFF ∧
      t.mem.read (dst + n + e) = s.mem.read (src + e) &&& 0xFFFF) ∧
    SameOutside ⟨dst, 2 * n⟩ s.mem t.mem ∧ OnlyTransition s t := by
  obtain ⟨t, h⟩ := exec_completes hdomain
  have hexpanded := expanded_of_exec h ho
  refine ⟨t, h, fun e he => ⟨?_, ?_⟩, hexpanded.others, commandsChangeOnlyMemory i s t h⟩
  · simpa [psh, bpp, mask] using hexpanded.element (j := 0) (by decide) he
  · simpa [psh, bpp, mask] using hexpanded.element (j := 1) (by decide) he

theorem exec_expand8 (ho : operands i = ⟨.expand 4, v, src, dst, n⟩) : ∃ t, exec i s = .next t ∧
    (∀ e, e < n →
      t.mem.read (dst + e) = s.mem.read (src + e) >>> 24 &&& 0xFF ∧
      t.mem.read (dst + n + e) = s.mem.read (src + e) >>> 16 &&& 0xFF ∧
      t.mem.read (dst + 2 * n + e) = s.mem.read (src + e) >>> 8 &&& 0xFF ∧
      t.mem.read (dst + 3 * n + e) = s.mem.read (src + e) &&& 0xFF) ∧
    SameOutside ⟨dst, 4 * n⟩ s.mem t.mem ∧ OnlyTransition s t := by
  obtain ⟨t, h⟩ := exec_completes hdomain
  have hexpanded := expanded_of_exec h ho
  refine ⟨t, h, fun e he => ⟨?_, ?_, ?_, ?_⟩, hexpanded.others, commandsChangeOnlyMemory i s t h⟩
  · simpa [psh, bpp, mask] using hexpanded.element (j := 0) (by decide) he
  · simpa [psh, bpp, mask] using hexpanded.element (j := 1) (by decide) he
  · simpa [psh, bpp, mask] using hexpanded.element (j := 2) (by decide) he
  · simpa [psh, bpp, mask] using hexpanded.element (j := 3) (by decide) he

end

/-- Settles O19: COLLAPSE's domain is the domain of the command. -/
theorem collapse16SerialResult : Obligations.Collapse16SerialResult := fun src dst n _ =>
  ⟨rfl, fun hdomain => exec_collapse16 (i := .collapse16S src dst n) hdomain rfl,
    fun hdomain => exec_refused (i := .collapse16S src dst n) hdomain⟩

/-- Settles O20: the domain of the command is COLLAPSE's with the lane condition. -/
theorem collapse16VectorResult : Obligations.Collapse16VectorResult := fun src dst n _ =>
  ⟨rfl, fun hdomain hlanes => exec_collapse16 (i := .collapse16V src dst n) ⟨hdomain, hlanes⟩ rfl,
    fun hdomain => exec_refused (i := .collapse16V src dst n) hdomain⟩

/-- Settles O21: COLLAPSE's domain is the domain of the command. -/
theorem collapse8SerialResult : Obligations.Collapse8SerialResult := fun src dst n _ =>
  ⟨rfl, fun hdomain => exec_collapse8 (i := .collapse8S src dst n) hdomain rfl,
    fun hdomain => exec_refused (i := .collapse8S src dst n) hdomain⟩

/-- Settles O22: the domain of the command is COLLAPSE's with the lane condition. -/
theorem collapse8VectorResult : Obligations.Collapse8VectorResult := fun src dst n _ =>
  ⟨rfl, fun hdomain hlanes => exec_collapse8 (i := .collapse8V src dst n) ⟨hdomain, hlanes⟩ rfl,
    fun hdomain => exec_refused (i := .collapse8V src dst n) hdomain⟩

/-- Settles O23: EXPAND's domain is the domain of the command. -/
theorem expand16SerialResult : Obligations.Expand16SerialResult := fun src dst n _ =>
  ⟨rfl, fun hdomain => exec_expand16 (i := .expand16S src dst n) hdomain rfl,
    fun hdomain => exec_refused (i := .expand16S src dst n) hdomain⟩

/-- Settles O24: the domain of the command is EXPAND's with the lane condition. -/
theorem expand16VectorResult : Obligations.Expand16VectorResult := fun src dst n _ =>
  ⟨rfl, fun hdomain hlanes => exec_expand16 (i := .expand16V src dst n) ⟨hdomain, hlanes⟩ rfl,
    fun hdomain => exec_refused (i := .expand16V src dst n) hdomain⟩

/-- Settles O25: EXPAND's domain is the domain of the command. -/
theorem expand8SerialResult : Obligations.Expand8SerialResult := fun src dst n _ =>
  ⟨rfl, fun hdomain => exec_expand8 (i := .expand8S src dst n) hdomain rfl,
    fun hdomain => exec_refused (i := .expand8S src dst n) hdomain⟩

/-- Settles O26: the domain of the command is EXPAND's with the lane condition. -/
theorem expand8VectorResult : Obligations.Expand8VectorResult := fun src dst n _ =>
  ⟨rfl, fun hdomain hlanes => exec_expand8 (i := .expand8V src dst n) ⟨hdomain, hlanes⟩ rfl,
    fun hdomain => exec_refused (i := .expand8V src dst n) hdomain⟩

end Sys2Proof.Proofs.Planes
end

section
/-! COLLAPSE and EXPAND in place (R140, R141), after one another (R145), and as PACK and UNPACK with their values
transposed (R147, R149). Each statement is about all four commands of an operation, which share what
`collapsed_of_isCollapse` and `expanded_of_isExpand` say. -/

namespace Sys2Proof.Proofs.PlaneTransforms

open Sys2Proof.Machine Sys2Proof.Safety Sys2Proof.Proofs.PackedWord Sys2Proof.Proofs.PackUnpack
  Sys2Proof.Proofs.RoundTrips Sys2Proof.Proofs.MergedWord Sys2Proof.Proofs.Planes

/-! ## What the four commands of an operation share -/

section
variable {k : Nat} {a b n : Word} {i : Instr} {s t : State}

theorem operands_of_isCollapse (hi : IsCollapse k a b n i) :
    ∃ v, operands i = ⟨.collapse k, v, a.toNat, b.toNat, n.toNat⟩ := by
  obtain ⟨rfl, rfl | rfl⟩ | ⟨rfl, rfl | rfl⟩ := hi <;> exact ⟨_, rfl⟩

theorem operands_of_isExpand (hi : IsExpand k a b n i) :
    ∃ v, operands i = ⟨.expand k, v, a.toNat, b.toNat, n.toNat⟩ := by
  obtain ⟨rfl, rfl | rfl⟩ | ⟨rfl, rfl | rfl⟩ := hi <;> exact ⟨_, rfl⟩

theorem planeCount_of_isCollapse (hi : IsCollapse k a b n i) : k = 2 ∨ k = 4 :=
  hi.imp And.left And.left

theorem planeCount_of_isExpand (hi : IsExpand k a b n i) : k = 2 ∨ k = 4 :=
  hi.imp And.left And.left

theorem collapsed_of_isCollapse (hi : IsCollapse k a b n i) (h : exec i s = .next t) :
    Collapsed k a.toNat b.toNat n.toNat s.mem t.mem := by
  obtain ⟨v, ho⟩ := operands_of_isCollapse hi
  exact collapsed_of_exec h ho

theorem expanded_of_isExpand (hi : IsExpand k a b n i) (h : exec i s = .next t) :
    Expanded k a.toNat b.toNat n.toNat s.mem t.mem := by
  obtain ⟨v, ho⟩ := operands_of_isExpand hi
  exact expanded_of_exec h ho

theorem collapseDomain_of_isCollapse (hi : IsCollapse k a b n i) (h : exec i s = .next t) :
    CollapseDomain s.cfg s.mem k a.toNat b.toNat n.toNat := by
  obtain ⟨v, ho⟩ := operands_of_isCollapse hi
  have hwf : i.WellFormed := (wellFormed_iff i).2 (by simp [ho])
  obtain ⟨hdomain, -⟩ := (violations_collapse ho hwf).1 (exec_next.1 h).1
  exact hdomain

end

/-! ## In place -/

/-- Settles O27: the write footprint is plane 0. -/
theorem collapseInPlace : Obligations.CollapseInPlace := by
  intro k buf n i s hi hdomain
  obtain ⟨t, h⟩ := exec_completes hdomain
  have hcollapsed := collapsed_of_isCollapse hi h
  exact ⟨t, h, hcollapsed.words, fun j e hj _ _ => hcollapsed.other_planes hj e⟩

/-- Settles O28: every word of the buffer is an element of one plane. -/
theorem expandInPlace : Obligations.ExpandInPlace := by
  intro k buf n i s hi hdomain
  obtain ⟨t, h⟩ := exec_completes hdomain
  have hexpanded := expanded_of_isExpand hi h
  refine ⟨t, h, hexpanded.elements, fun s' hdomain' hagree => ?_⟩
  obtain ⟨t', h'⟩ := exec_completes hdomain'
  exact ⟨t', h', fun x hx => hexpanded.congr (expanded_of_isExpand hi h') hagree hx⟩

/-! ## Round trips -/

/-- Settles O30: a merged word holds its elements, and the fields of a word merge to the word. -/
theorem planeRoundTrips : Obligations.PlaneRoundTrips := by
  refine ⟨?_, ?_, ?_⟩
  · intro k a b c n col exp s t u hcol hexp h h' j e hj he
    have hdomain := collapseDomain_of_isCollapse hcol h
    rw [(expanded_of_isExpand hexp h').elements j e hj he, (collapsed_of_isCollapse hcol h).words e he]
    exact bitsAt_merged (planeCount_of_isCollapse hcol) (fun j hj => hdomain.planes j e hj he) hj
  · intro k a b c n exp col s t u hexp hcol h h' e he
    have hexpanded := expanded_of_isExpand hexp h
    rw [(collapsed_of_isCollapse hcol h').words e he, merged_congr fun j hj => hexpanded.elements j e hj he]
    exact merged_bitsAt (planeCount_of_isExpand hexp) _
  · exact fun k buf n exp col s t u _ hcol _ h' j e hj _ _ => (collapsed_of_isCollapse hcol h').other_planes hj e

/-- Settles O32: an element is `bpp k` bits of a word. -/
theorem expandLandsInDomain : Obligations.ExpandLandsInDomain := by
  intro k a b n i s t hi h j e hj he
  rw [(expanded_of_isExpand hi h).elements j e hj he]
  exact bitsAt_lt _ _ _

/-! ## Planes as transposed packing -/

/-- Element `e` of plane `j` after EXPAND is value `j` of word `e` after UNPACK. -/
theorem expanded_transposes_unpacked {k src dst dst' n : Nat} {m m' m'' : Memory} (hk : k = 2 ∨ k = 4)
    (h : Expanded k src dst n m m') (h' : Unpacked (bpp k) src dst' n m m'') {j e : Nat} (hj : j < k) (he : e < n) :
    m'.read (dst + j * n + e) = m''.read (dst' + e * k + j) := by
  have hvalue := h'.values e j he ((vpw_bpp hk).symm ▸ hj)
  rw [vpw_bpp hk, sh_bpp hk hj] at hvalue
  rw [h.elements j e hj he, hvalue]

/-- Word `e` after COLLAPSE is word `e` after PACK of the transposed planes. -/
theorem collapsed_transposes_packed {k src dst n src' dst' : Nat} {m m' m₁ m₁' : Memory} (hk : k = 2 ∨ k = 4)
    (h : Collapsed k src dst n m m') (h' : Packed (bpp k) src' dst' (k * n) m₁ m₁')
    (htransposed : ∀ j e, j < k → e < n → m₁.read (src' + e * k + j) = m.read (src + j * n + e)) {e : Nat} (he : e < n) :
    m'.read (dst + e) = m₁'.read (dst' + e) := by
  have hwords : k * n / vpw (bpp k) = n := by
    rw [vpw_bpp hk]
    exact Nat.mul_div_cancel_left n (by omega)
  rw [h.words e he, h'.words e (hwords.symm ▸ he), ← merged_eq_packed hk, vpw_bpp hk]
  exact merged_congr fun j hj => (htransposed j e hj he).symm

/-- Settles O31: the offsets of the two families agree at width `bpp k`. -/
theorem planesAreTransposedPacking : Obligations.PlanesAreTransposedPacking := by
  refine ⟨fun k hk => ⟨vpw_bpp hk, pad_bpp hk, fun j => sh_bpp hk⟩, ?_, ?_⟩
  · intro k a b n exp unp s t u hexp hunp h h' j e hj he
    obtain ⟨-, hunpacked⟩ := unpack_spec hunp h'
    exact expanded_transposes_unpacked (planeCount_of_isExpand hexp) (expanded_of_isExpand hexp h) hunpacked hj he
  · intro k a b n a' b' n' col pck s s' t t' hcol hpck hn htransposed h h' e he
    obtain ⟨-, hpacked⟩ := pack_spec hpck h'
    rw [hn] at hpacked
    exact collapsed_transposes_packed (planeCount_of_isCollapse hcol) (collapsed_of_isCollapse hcol h) hpacked
      htransposed he

end Sys2Proof.Proofs.PlaneTransforms
end

section
/-! Commands outside their domain (R160, R162, R163): a command completes or is refused, never faults, and what a
refusal reports is what `Broken` says of the command. Each check of the model is tied to the violation it reports. -/

namespace Sys2Proof.Proofs.Preconditions

open Sys2Proof.Machine Sys2Proof.Safety Sys2Proof.Proofs.PackUnpack

/-- Settles O35: `exec` is a command on a datapath, which completes or is refused. -/
theorem noCommandFaults : Obligations.NoCommandFaults := fun _ _ _ => Faults.exec_ne_fault

theorem exec_refused_iff {i : Instr} {s : State} {r : Refusal} : exec i s = .refused r ↔
    violations s.cfg i s.mem ≠ [] ∧ r = .precondition (violations s.cfg i s.mem) := by
  rw [exec_eq, command_refused]

/-- Settles O33: the domain is where no violation is found. -/
theorem completesExactlyInDomain : Obligations.CompletesExactlyInDomain := by
  intro i s
  refine ⟨⟨exec_completes, fun ⟨_, h⟩ => inDomain_of_exec h⟩, ?_⟩
  rw [inDomain_iff]
  constructor
  · exact fun hv => ⟨_, hv, exec_refused_iff.2 ⟨hv, rfl⟩⟩
  · rintro ⟨vs, -, h⟩
    obtain ⟨hv, -⟩ := exec_refused_iff.1 h
    exact hv

/-! ## What each check reports -/

section
variable {s : State} {i : Instr}

theorem lengthFits_eq_false_iff : lengthFits (operands i) = false ↔ Broken s i .lengthNotMultiple := by
  unfold lengthFits Broken
  cases (operands i).op <;> simp

theorem widthSupported_eq_false_iff :
    widthSupported s.cfg (operands i) = false ↔ Broken s i .widthNotSupported := by
  unfold widthSupported Broken
  cases (operands i).op <;> simp

theorem planeLengthSupported_eq_false_iff :
    planeLengthSupported s.cfg (operands i) = false ↔ Broken s i .planeLengthNotSupported := by
  unfold planeLengthSupported Broken
  cases (operands i).op <;> simp [← planeN_all_iff]

theorem laneCondition_eq_false_iff : (operands i).vector = true ∧ laneCondition s.cfg.lanes (operands i) = false ↔
    Broken s i .laneCondition := by
  unfold laneCondition Broken
  cases (operands i).op <;> simp only [decide_eq_false_iff_not]

theorem not_within_iff : ¬ ((reads i).Within s.cfg.memWords ∧ (writes i).Within s.cfg.memWords) ↔
    Broken s i .outOfBounds := by
  rw [within_iff, within_iff]
  simp only [InMemory, ← forall_and, ← or_imp, not_forall, Nat.not_lt, Broken, exists_prop, and_comm]

/-- Two ranges that are not disjoint have an address in common. -/
theorem not_disjoint_iff {f g : Footprint} : ¬ f.Disjoint g ↔ ∃ a, f.Has a ∧ g.Has a := by
  rw [disjoint_iff]
  simp only [Apart, not_forall, not_not, exists_prop]

theorem overlapAdmitted_eq_false_iff : overlapAdmitted (operands i) = false ↔ Broken s i .overlap := by
  unfold overlapAdmitted Broken reads writes
  rw [← not_disjoint_iff]
  cases (operands i).op <;> simp only [decide_eq_false_iff_not, not_or, and_true]

theorem onPlainMemory_eq_false_iff : onPlainMemory s.cfg (operands i) = false ↔ Broken s i .notPlain := by
  rw [← Bool.not_eq_true, onPlainMemory_iff]
  simp only [Plain, ← forall_and, ← or_imp, not_forall, not_not, Broken, exists_prop]
  rfl

/-- V3 to V8 and the restrictions of the build: exactly those broken are found. -/
theorem mem_staticViolations_iff {v : Violation} : v ∈ staticViolations s.cfg i ↔
    v ≠ .valueTooWide ∧ v ≠ .planeValueTooWide ∧ Broken s i v := by
  simp only [staticViolations, List.mem_append, mem_report, Bool.not_eq_true', Bool.and_eq_true]
  cases v <;> simp only [reduceCtorEq, and_true, and_false, or_false, false_or, ne_eq, not_true, not_false_eq_true,
    true_and, false_and]
  case lengthNotMultiple => exact lengthFits_eq_false_iff
  case widthNotSupported => exact widthSupported_eq_false_iff
  case planeLengthNotSupported => exact planeLengthSupported_eq_false_iff
  case laneCondition => exact laneCondition_eq_false_iff
  case outOfBounds =>
    rw [← not_within_iff, Bool.and_eq_false_iff, decide_eq_false_iff_not, decide_eq_false_iff_not, not_and_or]
    rfl
  case overlap => exact overlapAdmitted_eq_false_iff
  case notPlain => exact onPlainMemory_eq_false_iff
  case reserved => exact Bool.eq_false_iff

theorem not_allBelow_iff {m : Memory} {f : Footprint} {b : Nat} :
    ¬ m.AllBelow f b ↔ ∃ t, t < f.len ∧ 2 ^ b ≤ (m.read (f.base + t)).toNat := by
  simp only [Memory.AllBelow, not_forall, Nat.not_lt, exists_prop]

theorem not_allBelow_planes_iff {m : Memory} {k src n b : Nat} : ¬ m.AllBelow ⟨src, k * n⟩ b ↔
    ∃ j e, j < k ∧ e < n ∧ 2 ^ b ≤ (m.read (src + j * n + e)).toNat := by
  rw [allBelow_planes]
  simp only [not_forall, Nat.not_lt, exists_prop, exists_and_left]

/-- V1 and V2: exactly those broken are found. -/
theorem mem_dataViolations_iff {v : Violation} : v ∈ dataViolations i s.mem ↔
    (v = .valueTooWide ∨ v = .planeValueTooWide) ∧ Broken s i v := by
  unfold dataViolations Broken
  obtain ⟨op, vector, src, dst, n⟩ := operands i
  cases op with
  | pack w =>
    simp only [mem_report, Bool.not_eq_true', decide_eq_false_iff_not]
    rw [not_allBelow_iff]
    cases v <;> simp [readsOf]
  | unpack w => cases v <;> simp
  | collapse k =>
    simp only [mem_report, Bool.not_eq_true', decide_eq_false_iff_not]
    simp only [readsOf]
    rw [not_allBelow_planes_iff]
    cases v <;> simp
  | expand k => cases v <;> simp

theorem report_eq_singleton {b : Bool} {u v : Violation} (h : v ∈ report b u) : report b u = [v] := by
  obtain ⟨rfl, rfl⟩ := (mem_report b u v).1 h
  rfl

/-- No command breaks both V1 and V2. -/
theorem dataViolations_eq_singleton {m : Memory} {v : Violation} (h : v ∈ dataViolations i m) :
    dataViolations i m = [v] := by
  cases ho : (operands i).op <;> simp only [dataViolations, ho, List.not_mem_nil] at h ⊢
  · exact report_eq_singleton h
  · exact report_eq_singleton h

/-- The source words are looked at only when the descriptor and the build break nothing (log entry 12). -/
theorem violations_of_static {c : Config} {m : Memory} {v : Violation} (h : v ∈ staticViolations c i) :
    violations c i m = staticViolations c i := by
  unfold violations
  cases hstatic : staticViolations c i with
  | nil => rw [hstatic] at h; cases h
  | cons => rfl

theorem violations_of_static_nil {c : Config} {m : Memory} (h : staticViolations c i = []) :
    violations c i m = dataViolations i m := by
  rw [violations, h]

theorem broken_of_mem_violations {v : Violation} (h : v ∈ violations s.cfg i s.mem) : Broken s i v := by
  cases hstatic : staticViolations s.cfg i with
  | nil =>
    rw [violations_of_static_nil hstatic] at h
    exact (mem_dataViolations_iff.1 h).2
  | cons u us =>
    rw [violations_of_static (hstatic ▸ List.mem_cons_self)] at h
    exact (mem_staticViolations_iff.1 h).2.2

/-- A command that is found to break something is refused with all that is found. -/
theorem exec_refused_of_mem {v : Violation} (h : v ∈ violations s.cfg i s.mem) :
    exec i s = .refused (.precondition (violations s.cfg i s.mem)) :=
  exec_refused_iff.2 ⟨List.ne_nil_of_mem h, rfl⟩

end

/-- Settles O34: what the descriptor breaks is found first, then what the source words break. -/
theorem violationsReported : Obligations.ViolationsReported := by
  intro i s
  refine ⟨?_, ?_, ?_⟩
  · intro vs h v hv
    obtain ⟨-, hvs⟩ := exec_refused_iff.1 h
    cases hvs
    exact broken_of_mem_violations hv
  · intro v hbroken h1 h2
    have hstatic : v ∈ staticViolations s.cfg i := mem_staticViolations_iff.2 ⟨h1, h2, hbroken⟩
    have hv : v ∈ violations s.cfg i s.mem := violations_of_static hstatic ▸ hstatic
    exact ⟨_, exec_refused_of_mem hv, hv⟩
  · intro v hbroken honly
    have hstatic : staticViolations s.cfg i = [] := by
      refine List.eq_nil_iff_forall_not_mem.2 fun u hu => ?_
      obtain ⟨h1, h2, hu⟩ := mem_staticViolations_iff.1 hu
      exact (honly u hu).elim h1 h2
    have hdata : v ∈ dataViolations i s.mem := mem_dataViolations_iff.2 ⟨honly v hbroken, hbroken⟩
    have hall : violations s.cfg i s.mem = [v] :=
      (violations_of_static_nil hstatic).trans (dataViolations_eq_singleton hdata)
    rw [exec_refused_of_mem (hall ▸ List.mem_cons_self), hall]

end Sys2Proof.Proofs.Preconditions
end

section
/-! Which steps are refused under the invariant (R84, R85, R163): an `Instance` that goes on never is, nor is the reset
event, so that a refusal is about a move of the host. -/

namespace Sys2Proof.Proofs.HostRefusals

open Sys2Proof.Machine Sys2Proof.Safety Sys2Proof.Proofs.Invariant Sys2Proof.Proofs.PackUnpack
  Sys2Proof.Proofs.StepRules Sys2Proof.Proofs.Reset

/-- An `Instance` as the invariant has it goes on: it is idle, executes what its ISSUE accepted, or produces DONE. -/
theorem runInstance_completes {s : State} {k : Nat} {x : Instance} (hx : s.insts[k]? = some x)
    (hok : InstanceOk s.cfg s.mem x) : ∃ t, s.runInstance k = .next t := by
  cases hb : x.busy with
  | false => exact ⟨_, runInstance_idle hx hb⟩
  | true =>
    cases hm : x.made with
    | true => exact ⟨_, runInstance_done hx hb hm⟩
    | false =>
      obtain ⟨i, hd, -, hdomain⟩ := hok.inFlight hb
      rw [runInstance_exec hx ⟨hb, hd⟩ hm]
      exact exec_completes ((inDomain_iff { s with active := k } i).2 (hdomain hm))

section
variable {s : State} (h : Inv s)
include h

/-- Whatever lets a busy one of the instances go on, it does (R201). -/
theorem step_completes_of_goesOn {k : Nat} {x : Instance} {rest : List HostMove} (g : GoesOn s k rest)
    (hx : s.insts[k]? = some x) (hb : x.busy = true) : ∃ t, step s = .next t := by
  rw [step_of_goesOn g hx hb]
  exact runInstance_completes (s := { s with moves := rest }) hx (instanceOk_of_inv h (List.mem_of_getElem? hx))

theorem step_completes_of_run {k : Nat} {x : Instance} {rest : List HostMove} (hm : s.moves = .run k :: rest)
    (hx : s.insts[k]? = some x) : ∃ t, step s = .next t := by
  rw [step_run hm]
  exact runInstance_completes (s := { s with moves := rest }) hx (instanceOk_of_inv h (List.mem_of_getElem? hx))

/-- With no move pending a step is never refused. -/
theorem step_completes_of_no_moves (hm : s.moves = []) : ∃ t, step s = .next t := by
  cases hk : s.insts.findIdx? (·.busy) with
  | none => exact ⟨s, by simp only [step, hm, State.proceed, hk]⟩
  | some k =>
    obtain ⟨hlt, hb, -⟩ := List.findIdx?_eq_some_iff_getElem.1 hk
    exact step_completes_of_goesOn h (.alone hm hk) (List.getElem?_eq_getElem hlt) hb

end

/-- Settles O49, by the move that comes first. -/
theorem onlyHostMovesAreRefused : Obligations.OnlyHostMovesAreRefused := by
  intro s r h hstep
  have hrefused : ¬ ∃ t, step s = .next t := by
    rintro ⟨t, ht⟩
    cases hstep.symm.trans ht
  cases hm : s.moves with
  | nil => exact absurd (step_completes_of_no_moves h hm) hrefused
  | cons m rest =>
    refine ⟨m, rest, rfl, ?_⟩
    cases m with
    | read a => exact .inl ⟨a, rfl⟩
    | write a x => exact .inr (.inl ⟨a, x, rfl⟩)
    | issue k d =>
      refine .inr (.inr (.inl ⟨k, d, rfl, fun y hy => Bool.eq_false_of_not_eq_true fun hb => hrefused ?_⟩))
      exact step_completes_of_goesOn h (.waited d rest hm) hy hb
    | run k =>
      refine .inr (.inr (.inr ⟨k, rfl, Option.eq_none_iff_forall_ne_some.2 fun y hy => hrefused ?_⟩))
      exact step_completes_of_run h hm hy
    | reset => exact absurd ⟨_, step_reset_of_inv h hm⟩ hrefused

end Sys2Proof.Proofs.HostRefusals
end

section
/-! The comparison of the checker (R171, R172, R175): it walks two lists of one length to their first difference. -/

namespace Sys2Proof.Proofs.Comparison

open Sys2Proof.Machine Sys2Proof.Safety

/-- A comparison that starts at index `b` answers `b + u` when the lists differ at `u` and nowhere before. -/
theorem compareFrom_eq_mismatch_iff {b t : Nat} {x y : Word} {xs ys : List Word} (hlen : xs.length = ys.length) :
    compareFrom b xs ys = .mismatch t x y ↔
      ∃ u, t = b + u ∧ xs[u]? = some x ∧ ys[u]? = some y ∧ x ≠ y ∧ ∀ v, v < u → xs[v]? = ys[v]? := by
  induction xs generalizing b ys with
  | nil => simp [compareFrom]
  | cons x₀ xs ih =>
    cases ys with
    | nil => cases hlen
    | cons y₀ ys =>
      rw [compareFrom]
      split_ifs with heq
      · rw [ih (Nat.succ.inj hlen)]
        constructor
        · rintro ⟨u, rfl, hx, hy, hne, hbefore⟩
          refine ⟨u + 1, by omega, hx, hy, hne, fun v hv => ?_⟩
          cases v with
          | zero => exact congrArg some heq
          | succ v => exact hbefore v (by omega)
        · rintro ⟨u, rfl, hx, hy, hne, hbefore⟩
          cases u with
          | zero => cases hx; cases hy; exact absurd heq hne
          | succ u => exact ⟨u, by omega, hx, hy, hne, fun v hv => hbefore (v + 1) (by omega)⟩
      · constructor
        · rintro ⟨⟩
          exact ⟨0, rfl, rfl, rfl, heq, nofun⟩
        · rintro ⟨u, rfl, hx, hy, -, hbefore⟩
          cases u with
          | zero => cases hx; cases hy; rfl
          | succ u => exact absurd (Option.some.inj (hbefore 0 (by omega))) heq

theorem compareFrom_eq_ok_iff {b : Nat} {xs ys : List Word} (hlen : xs.length = ys.length) :
    compareFrom b xs ys = .ok ↔ xs = ys := by
  induction xs generalizing b ys with
  | nil =>
    obtain rfl := List.eq_nil_of_length_eq_zero hlen.symm
    simp [compareFrom]
  | cons x₀ xs ih =>
    cases ys with
    | nil => cases hlen
    | cons y₀ ys =>
      rw [compareFrom]
      split_ifs with heq
      · rw [ih (Nat.succ.inj hlen), heq, List.cons_inj_right]
      · simp [heq]

section
variable {m : Memory} {d₁ d₂ n : Nat}

theorem region_length (m : Memory) (base n : Nat) : (m.region base n).length = n := by
  simp [Memory.region]

theorem region_getElem?_eq_some_iff {base t : Nat} {x : Word} :
    (m.region base n)[t]? = some x ↔ t < n ∧ m.read (base + t) = x := by
  by_cases ht : t < n <;> simp [Memory.region, ht]

theorem region_getElem?_of_lt {base t : Nat} (ht : t < n) : (m.region base n)[t]? = some (m.read (base + t)) :=
  region_getElem?_eq_some_iff.2 ⟨ht, rfl⟩

theorem regions_same_length : (m.region d₁ n).length = (m.region d₂ n).length := by
  rw [region_length, region_length]

theorem compareRegions_eq_mismatch_iff {t : Nat} {x y : Word} : compareRegions m d₁ d₂ n = .mismatch t x y ↔
    t < n ∧ m.read (d₁ + t) = x ∧ m.read (d₂ + t) = y ∧ x ≠ y ∧
      ∀ u, u < t → m.read (d₁ + u) = m.read (d₂ + u) := by
  rw [compareRegions, compareFrom_eq_mismatch_iff regions_same_length]
  simp only [Nat.zero_add, exists_eq_left', region_getElem?_eq_some_iff]
  have hbefore (ht : t < n) : (∀ v, v < t → (m.region d₁ n)[v]? = (m.region d₂ n)[v]?) ↔
      ∀ u, u < t → m.read (d₁ + u) = m.read (d₂ + u) := by
    refine forall₂_congr fun u hu => ?_
    rw [region_getElem?_of_lt (hu.trans ht), region_getElem?_of_lt (hu.trans ht), Option.some.injEq]
  constructor
  · rintro ⟨⟨ht, hx⟩, ⟨-, hy⟩, hne, h⟩
    exact ⟨ht, hx, hy, hne, (hbefore ht).1 h⟩
  · rintro ⟨ht, hx, hy, hne, h⟩
    exact ⟨⟨ht, hx⟩, ⟨ht, hy⟩, hne, (hbefore ht).2 h⟩

theorem compareRegions_eq_ok_iff :
    compareRegions m d₁ d₂ n = .ok ↔ ∀ t, t < n → m.read (d₁ + t) = m.read (d₂ + t) := by
  rw [compareRegions, compareFrom_eq_ok_iff regions_same_length, Memory.region, Memory.region, List.map_inj_left]
  simp only [List.mem_range]

end

/-- Settles O55: a region is the list of its words. -/
theorem checkerReportsFirstDifference : Obligations.CheckerReportsFirstDifference := fun _ _ _ _ =>
  ⟨fun _ _ _ => compareRegions_eq_mismatch_iff, compareRegions_eq_ok_iff⟩

theorem has_base_add {f : Footprint} {t : Nat} (h : t < f.len) : f.Has (f.base + t) :=
  ⟨Nat.le_add_right _ _, Nat.add_lt_add_left h _⟩

/-- Settles O56: the write at index `t` reaches no word of the first region and no other word of the second. -/
theorem perturbedLaneIsReported : Obligations.PerturbedLaneIsReported := by
  intro m d₁ d₂ n t x hdisjoint ht hok hx
  have hequal := compareRegions_eq_ok_iff.1 hok
  have hfirst (u : Nat) (hu : u < n) : (m.write (d₂ + t) x).read (d₁ + u) = m.read (d₁ + u) := by
    refine Memory.read_write_other m x fun heq => (disjoint_iff _ _).1 hdisjoint (d₁ + u) (has_base_add hu) ?_
    exact heq ▸ has_base_add (f := ⟨d₂, n⟩) ht
  refine compareRegions_eq_mismatch_iff.2 ⟨ht, hfirst t ht, Memory.read_write_same m _ x, ?_, fun u hu => ?_⟩
  · rw [hequal t ht]
    exact hx.symm
  · rw [hfirst u (hu.trans ht), hequal u (hu.trans ht), Memory.read_write_other m x (by omega)]

end Sys2Proof.Proofs.Comparison
end

section
/-! The procedure of the checker on the machine (R171, R172). The two commands have the same result, offset by offset,
on clones of one input; the serial one leaves input and output of the other alone, and the host may read both outputs. -/

namespace Sys2Proof.Proofs.CheckerRun

open Sys2Proof.Machine Sys2Proof.Safety Sys2Proof.Proofs.Invariant Sys2Proof.Proofs.Encoding
  Sys2Proof.Proofs.StepRules Sys2Proof.Proofs.Preconditions Sys2Proof.Proofs.Comparison

/-! ## The same operation on clones of one input -/

section
variable {o o' : Operands} (hop : o.op = o'.op) (hlen : o.len = o'.len)
include hop hlen

theorem readsOf_len_congr : (readsOf o).len = (readsOf o').len := by
  rw [readsOf, readsOf, ← hop, ← hlen]
  split <;> rfl

theorem writesOf_len_congr : (writesOf o).len = (writesOf o').len := by
  rw [writesOf, writesOf, ← hop, ← hlen]
  split <;> rfl

/-- The result at an offset of `W(c)` depends on the words of `R(c)` by their offset, not by where they lie. -/
theorem resultAt_eq_of_clones {m m' : Memory} (hvpw : ∀ w, o.op = .pack w ∨ o.op = .unpack w → 0 < vpw w)
    (hinput : ∀ t, t < (readsOf o).len → m.read ((readsOf o).base + t) = m'.read ((readsOf o').base + t)) {u : Nat}
    (hu : u < (writesOf o).len) :
    resultAt o m ((writesOf o).base + u) = resultAt o' m' ((writesOf o').base + u) := by
  obtain ⟨op, v, src, dst, n⟩ := o
  obtain ⟨op', v', src', dst', n'⟩ := o'
  cases hop
  cases hlen
  cases op with
  | pack w =>
    have hle : n / vpw w * vpw w ≤ n := Nat.div_mul_le_self n (vpw w)
    refine orUpTo_congr fun j hj => ?_
    simp only [readsOf, writesOf, Nat.add_sub_cancel_left, Nat.add_assoc] at hinput hu ⊢
    rw [hinput _ (lt_of_lt_of_le (slot_lt hu hj) hle)]
  | unpack w =>
    simp only [resultAt, unpackOut, readsOf, writesOf, Nat.add_sub_cancel_left] at hinput hu ⊢
    rw [hinput _ ((Nat.div_lt_iff_lt_mul (hvpw w (.inr rfl))).2 hu)]
  | collapse k =>
    refine orUpTo_congr fun j hj => ?_
    simp only [readsOf, writesOf, Nat.add_sub_cancel_left, Nat.add_assoc] at hinput hu ⊢
    rw [hinput _ (slot_lt hj hu)]
  | expand k =>
    simp only [resultAt, expandOut, readsOf, writesOf, Nat.add_sub_cancel_left] at hinput hu ⊢
    have hn : 0 < n := Nat.pos_of_mul_pos_left (Nat.zero_lt_of_lt hu)
    rw [hinput _ (Nat.mod_lt u hn)]

end

section
variable {sf vf : Instr} (h : SameOperation sf vf)
include h

theorem reads_len_of_same : (reads sf).len = (reads vf).len := by
  obtain ⟨-, -, hop, hlen⟩ := h
  exact readsOf_len_congr hop hlen

theorem writes_len_of_same : (writes sf).len = (writes vf).len := by
  obtain ⟨-, -, hop, hlen⟩ := h
  exact writesOf_len_congr hop hlen

end

/-- The serial command and then the lane-parallel one, on clones: the outputs are equal. -/
theorem outputs_equal {c : Config} {sf vf : Instr} {m m₁ m₂ : Memory} (hsame : SameOperation sf vf)
    (hseparate : Separate sf vf) (hstatic : staticViolations c sf = [])
    (hinput : ∀ t, t < (reads sf).len → m.read ((reads sf).base + t) = m.read ((reads vf).base + t))
    (hwrites₁ : Writes m m₁ (writes sf).Has (resultAt (operands sf) m))
    (hwrites₂ : Writes m₁ m₂ (writes vf).Has (resultAt (operands vf) m₁)) {u : Nat} (hu : u < (writes sf).len) :
    m₂.read ((writes sf).base + u) = m₂.read ((writes vf).base + u) := by
  have hreads := reads_len_of_same hsame
  have hwrites := writes_len_of_same hsame
  obtain ⟨-, -, hop, hlen⟩ := hsame
  obtain ⟨hsource, houtput⟩ := hseparate
  have hsf : (writes sf).Has ((writes sf).base + u) := has_base_add hu
  have hvf : (writes vf).Has ((writes vf).base + u) := has_base_add (hu.trans_eq hwrites)
  have hclone (t : Nat) (ht : t < (reads sf).len) :
      m.read ((reads sf).base + t) = m₁.read ((reads vf).base + t) := by
    rw [hinput t ht]
    exact agreeOn_of_writes_disjoint hwrites₁ hsource _ (has_base_add (ht.trans_eq hreads))
  calc m₂.read ((writes sf).base + u)
      = m₁.read ((writes sf).base + u) := hwrites₂.read_miss ((disjoint_iff _ _).1 houtput _ hsf)
    _ = resultAt (operands sf) m ((writes sf).base + u) := hwrites₁.read_hit hsf
    _ = resultAt (operands vf) m₁ ((writes vf).base + u) :=
        resultAt_eq_of_clones hop hlen (vpw_pos_of hstatic) hclone hu
    _ = m₂.read ((writes vf).base + u) := (hwrites₂.read_hit hvf).symm

/-! ## What the host may do beside the commands in flight -/

/-- No command in flight aliases `i` (R56). -/
def AliasesNone (xs : List Instance) (i : Instr) : Prop :=
  ∀ y ∈ xs, y.busy = true → ∃ j, decode y.cur = .ok j ∧ Independent i j

/-- No command in flight forbids the host a word that `i` writes (R194). -/
theorem AliasesNone.untouched {xs : List Instance} {i : Instr} (h : AliasesNone xs i) {a : Nat}
    (ha : (writes i).Has a) : xs.any (·.touches a) = false := by
  refine List.any_eq_false.2 fun y hy ht => ?_
  have hdecodes (hb : y.busy = true) : ∃ j, decode y.cur = .ok j := (h y hy hb).imp fun _ hj => hj.1
  obtain ⟨j, ⟨hb, hd⟩, htouched⟩ := (touches_iff hdecodes).1 ht
  obtain ⟨j', hd', hreads, hwrites, -⟩ := h y hy hb
  cases hd.symm.trans hd'
  exact htouched.elim ((disjoint_iff _ _).1 hreads a ha) ((disjoint_iff _ _).1 hwrites a ha)

section
variable {s t : State} {i : Instr} (h : InDomain s i)
include h

theorem static_of_inDomain : staticViolations s.cfg i = [] :=
  ((violations_nil _ _ _).1 ((inDomain_iff s i).1 h)).1

/-- A word of a footprint of a command in its domain exists and is plain, so only a command in flight can forbid it. -/
theorem touchable_of_inDomain (hcfg : t.cfg = s.cfg) {a : Nat} (ha : (reads i).Has a ∨ (writes i).Has a)
    (hfree : t.insts.any (·.touches a) = false) : Touchable t a := by
  have hnone {v : Violation} (h1 : v ≠ .valueTooWide) (h2 : v ≠ .planeValueTooWide) : ¬ Broken s i v := fun hv =>
    List.eq_nil_iff_forall_not_mem.1 (static_of_inDomain h) v (mem_staticViolations_iff.2 ⟨h1, h2, hv⟩)
  refine ⟨?_, ?_, hfree⟩
  · rw [hcfg]
    exact Nat.lt_of_not_le fun hle => hnone (v := .outOfBounds) nofun nofun ⟨a, hle, ha⟩
  · rw [hcfg]
    exact List.any_eq_false.2 fun p hp hin =>
      hnone (v := .notPlain) nofun nofun ⟨a, ha, p, hp, of_decide_eq_true hin⟩

theorem exists_after {k : Nat} {x : Instance} (hx : s.insts[k]? = some x) (hb : x.busy = false)
    (hfree : AliasesNone s.insts i) : ∃ t, s.perform (issueAndWait k i) = .ok t ∧ After s k i t := by
  obtain ⟨hwf, -⟩ := (staticViolations_nil _ _).1 (static_of_inDomain h)
  exact perform_issueAndWait hx hb (decode_encode hwf) ((inDomain_iff s i).1 h) (no_conflict_of_independent hfree)

end

section
variable {s t : State} {k : Nat} {i j : Instr} (h : After s k i t)
include h

/-- Whatever is in flight after a command that was waited for was in flight before it. -/
theorem aliasesNone_of_after (hfree : AliasesNone s.insts j) : AliasesNone t.insts j := by
  intro y hy hb
  obtain ⟨a, ha⟩ := List.mem_iff_getElem?.1 hy
  by_cases hak : a = k
  · subst hak
    obtain ⟨x, hx, hxb⟩ := h.idle
    cases hx.symm.trans ha
    cases hxb.symm.trans hb
  · exact hfree y (List.mem_of_getElem? (h.others a hak ▸ ha)) hb

/-- A command that writes no word the next one reads leaves it in its domain. -/
theorem inDomain_of_after (hd : (writes i).Disjoint (reads j)) (hj : InDomain s j) : InDomain t j := by
  rw [inDomain_iff] at hj ⊢
  exact h.cfg ▸ violations_nil_of_agreeOn (agreeOn_of_writes_disjoint h.mem hd) hj

end

/-- Settles O57: the first command leaves the second as it was, and both outputs may be read. -/
theorem checkerNeverFails : Obligations.CheckerNeverFails := by
  intro k x sf vf s hx hb hbeside hsame hseparate hsf hvf hinput
  have hfree₁ : AliasesNone s.insts sf := fun y hy hyb => (hbeside y hy hyb).imp fun _ ⟨hd, hind, _⟩ => ⟨hd, hind⟩
  have hfree₂ : AliasesNone s.insts vf := fun y hy hyb => (hbeside y hy hyb).imp fun _ ⟨hd, _, hind⟩ => ⟨hd, hind⟩
  obtain ⟨t₁, hperform₁, hafter₁⟩ := exists_after hsf hx hb hfree₁
  obtain ⟨y, hy, hyb⟩ := hafter₁.idle
  obtain ⟨t₂, hperform₂, hafter₂⟩ :=
    exists_after (inDomain_of_after hafter₁ hseparate.1 hvf) hy hyb (aliasesNone_of_after hafter₁ hfree₂)
  have hanswer : compareRegions t₂.mem (writes sf).base (writes vf).base (writes sf).len = .ok :=
    compareRegions_eq_ok_iff.2 fun u hu =>
      outputs_equal hsame hseparate (static_of_inDomain hsf) hinput hafter₁.mem hafter₂.mem hu
  have hread {i : Instr} (hi : InDomain s i) (hfree : AliasesNone s.insts i) {u : Nat} (hu : u < (writes i).len) :
      Touchable t₂ ((writes i).base + u) := by
    have hin := has_base_add hu
    exact touchable_of_inDomain hi (hafter₂.cfg.trans hafter₁.cfg) (.inr hin)
      ((aliasesNone_of_after hafter₂ (aliasesNone_of_after hafter₁ hfree)).untouched hin)
  have hperform₃ : t₂.perform (comparing (writes sf).base (writes vf).base (writes sf).len) = .ok t₂ :=
    perform_comparing hafter₂.moves fun u hu =>
      ⟨hread hsf hfree₁ hu, hread hvf hfree₂ (hu.trans_eq (writes_len_of_same hsame))⟩
  rw [check, if_pos ⟨hsame, hseparate⟩, perform_append hperform₁, hperform₂]
  simp only [hanswer, CheckResult.looked, hperform₃]

/-! ## The clones -/

theorem untouched_of_idle {xs : List Instance} (hidle : ∀ y ∈ xs, y.busy = false) (a : Nat) :
    xs.any (·.touches a) = false :=
  List.any_eq_false.2 fun y hy => by simp [Instance.touches, hidle y hy]

/-- Two copies of an array, in ranges of its length that do not meet, are clones. -/
theorem placed_clones {m : Memory} {f g : Footprint} {xs : List Word} (hd : f.Disjoint g) (hf : xs.length = f.len)
    (hg : xs.length = g.len) {t : Nat} (ht : t < xs.length) :
    (placed (placed m f.base xs) g.base xs).read (f.base + t) =
      (placed (placed m f.base xs) g.base xs).read (g.base + t) := by
  have hfirst : f.Has (f.base + t) := has_base_add (ht.trans_eq hf)
  have hsecond : g.Has (g.base + t) := has_base_add (ht.trans_eq hg)
  rw [placed_read, hg, if_neg ((disjoint_iff f g).1 hd _ hfirst), placed_read, hf, if_pos hfirst, placed_read, hg,
    if_pos hsecond, Nat.add_sub_cancel_left, Nat.add_sub_cancel_left]

/-- On an idle machine the host may write the source region of a command that is in its domain in some memory. -/
theorem perform_placing_reads {s : State} {m m' : Memory} {ms : List HostMove} {i : Instr} {xs : List Word}
    (hidle : ∀ y ∈ s.insts, y.busy = false) (hi : InDomain { s with mem := m' } i) (hlen : xs.length = (reads i).len) :
    State.perform (placing (reads i).base xs) { s with moves := ms, mem := m } =
      .ok { s with moves := if xs.length = 0 then ms else [], mem := placed m (reads i).base xs } :=
  perform_placing fun _ hu => touchable_of_inDomain hi (by rfl) (.inl (has_base_add (hu.trans_eq hlen)))
    (untouched_of_idle hidle _)

/-- Settles O58: the host may write both clones, and on them the check never fails. -/
theorem checkerProcedureSucceeds : Obligations.CheckerProcedureSucceeds := by
  intro k input sf vf s hk hidle hsame hseparate hdisjoint hlen hsf hvf
  have hlen' : input.length = (reads vf).len := hlen.trans (reads_len_of_same hsame)
  rw [checkOn, if_pos ⟨hlen, hdisjoint⟩, perform_append (perform_placing_reads hidle hsf hlen),
    perform_placing_reads hidle hvf hlen']
  refine checkerNeverFails k s.insts[k] sf vf _ (List.getElem?_eq_getElem hk) (hidle _ (List.getElem_mem hk)) ?_ hsame
    hseparate ?_ ?_ ?_
  · exact fun y hy hb => nomatch (hidle y hy).symm.trans hb
  · exact (inDomain_iff _ sf).2 ((inDomain_iff _ sf).1 hsf)
  · exact (inDomain_iff _ vf).2 ((inDomain_iff _ vf).1 hvf)
  · exact fun t ht => placed_clones hdisjoint hlen hlen' (ht.trans_eq hlen.symm)

end Sys2Proof.Proofs.CheckerRun
end

section
/-! What a command depends on (R199): it writes `resultAt`, which looks at the words of `R(c)` only. -/

namespace Sys2Proof.Proofs.ReadFootprint

open Sys2Proof.Machine Sys2Proof.Safety

/-- Settles O37: both commands write their result, and the result is one function of the words of `R(c)`. -/
theorem resultDependsOnReadFootprintOnly : Obligations.ResultDependsOnReadFootprintOnly := by
  intro i s t h
  have hwrites := exec_mem h
  obtain ⟨hdomain, -⟩ := exec_next.1 h
  obtain ⟨hstatic, -⟩ := (violations_nil _ _ _).1 hdomain
  refine ⟨fun _ ha => hwrites.read_miss ha, ?_⟩
  intro s' t' hagree h' a ha
  calc t'.mem.read a
      _ = resultAt (operands i) s'.mem a := (exec_mem h').read_hit ha
      _ = resultAt (operands i) s.mem a := resultAt_congr (vpw_pos_of hstatic) hagree ha
      _ = t.mem.read a := (hwrites.read_hit ha).symm

end Sys2Proof.Proofs.ReadFootprint
end

section
/-! Progress under the invariant (R84, R201). -/

namespace Sys2Proof.Proofs.Progress

open Sys2Proof.Proofs.HostRefusals

/-- Settles O48, told to go on or with no move pending. -/
theorem acceptedCommandCompletes : Obligations.AcceptedCommandCompletes := by
  rintro s k x rest h hx (hm | hm)
  · exact step_completes_of_run h hm hx
  · exact step_completes_of_no_moves h hm

end Sys2Proof.Proofs.Progress
end

section
/-! The accesses of the host to a word that exists and is plain (R182, R194): one equation for each, whose condition the
invariant reads off the footprints of the commands in flight. -/

namespace Sys2Proof.Proofs.HostAccess

open Sys2Proof.Machine Sys2Proof.Safety Sys2Proof.Proofs.Reset

section
variable {s : State} (h : Inv s)
include h

/-- A command in flight has a descriptor that decodes (R84). -/
theorem decodes_of_inv {y : Instance} (hy : y ∈ s.insts) (hb : y.busy = true) : ∃ i, decode y.cur = .ok i :=
  (accepted_of_inv h y hy hb).imp fun _ hi => hi.1

/-- The host must not read a word exactly when a command in flight writes it. -/
theorem any_writesAt_iff {a : Nat} :
    s.insts.any (·.writesAt a) = true ↔ ∃ y ∈ s.insts, ∃ i, InFlight y i ∧ (writes i).Has a := by
  rw [List.any_eq_true]
  exact exists_congr fun y => and_congr_right fun hy => writesAt_iff (decodes_of_inv h hy)

/-- The host must not write a word exactly when a command in flight reads or writes it. -/
theorem any_touches_iff {a : Nat} : s.insts.any (·.touches a) = true ↔
    ∃ y ∈ s.insts, ∃ i, InFlight y i ∧ ((reads i).Has a ∨ (writes i).Has a) := by
  rw [List.any_eq_true]
  exact exists_congr fun y => and_congr_right fun hy => touches_iff (decodes_of_inv h hy)

end

theorem notPlainAt_eq_false_iff {c : Config} {a : Nat} :
    notPlainAt c a = false ↔ ∀ p ∈ c.notPlain, ¬ (p.1 ≤ a ∧ a < p.1 + p.2) := by
  simp only [notPlainAt, List.any_eq_false, decide_eq_true_eq]

section
variable {s : State} {a : Nat} {rest : List HostMove} (ha : a < s.cfg.memWords) (hplain : notPlainAt s.cfg a = false)
include ha hplain

theorem step_read (hm : s.moves = .read a :: rest) : step s =
    if s.insts.any (·.writesAt a) then .refused (.hostTouchesFootprint a) else .next { s with moves := rest } := by
  simp only [step, hm, State.move, State.hostRead, Nat.not_le.2 ha, hplain, Bool.false_eq_true, if_false]

theorem step_write {x : Word} (hm : s.moves = .write a x :: rest) : step s =
    if s.insts.any (·.touches a) then .refused (.hostTouchesFootprint a)
    else .next { s with moves := rest, mem := s.mem.write a x } := by
  simp only [step, hm, State.move, State.hostWrite, Nat.not_le.2 ha, hplain, Bool.false_eq_true, if_false]

end

/-- Settles O54: `step_read` and `step_write`, their conditions as the spec words them. -/
theorem hostKeepsOffFootprints : Obligations.HostKeepsOffFootprints := by
  intro s a x rest h ha hplain
  rw [← notPlainAt_eq_false_iff] at hplain
  refine ⟨fun hm => ?_, fun hm => ?_⟩
  · rw [step_read ha hplain hm]
    refine ⟨fun hin => if_pos ((any_writesAt_iff h).2 hin), fun hout => if_neg fun hc => ?_⟩
    obtain ⟨y, hy, i, hi, hin⟩ := (any_writesAt_iff h).1 hc
    exact hout y hy i hi hin
  · rw [step_write ha hplain hm]
    refine ⟨fun hin => if_pos ((any_touches_iff h).2 hin), fun hout => ⟨s.mem.write a x, if_neg fun hc => ?_,
      Memory.read_write_same _ _ _, fun b hb => Memory.read_write_other _ _ hb⟩⟩
    obtain ⟨y, hy, i, hi, hin⟩ := (any_touches_iff h).1 hc
    obtain ⟨hreads, hwrites⟩ := hout y hy i hi
    exact hin.elim hreads hwrites

end Sys2Proof.Proofs.HostAccess
end

section
/-! The end of a run (R192): the commands issued, done and in flight are counted, a reset cuts those in flight (R33), and
the result is the memory at the end whatever the host does afterwards. -/

namespace Sys2Proof.Proofs.RunEnd

open Sys2Proof.Machine Sys2Proof.Safety Sys2Proof.Proofs.Reset Sys2Proof.Proofs.OneCommand

/-! ## The count of commands -/

theorem isIssue_eq_false_iff {m : HostMove} : m.isIssue = false ↔ ∀ k d, m ≠ .issue k d := by
  cases m <;> simp [HostMove.isIssue]

theorem no_issue_iff {ms : List HostMove} : (∀ m ∈ ms, m.isIssue = false) ↔ ∀ k d, HostMove.issue k d ∉ ms := by
  simp only [isIssue_eq_false_iff]
  exact ⟨fun h k d hin => h _ hin k d rfl, fun h m hm k d he => h k d (he ▸ hm)⟩

theorem busyCount_eq_zero_iff {xs : List Instance} : xs.countP (·.busy) = 0 ↔ ∀ x ∈ xs, x.busy = false := by
  simp only [List.countP_eq_zero, Bool.not_eq_true]

/-- When every issued command has produced DONE, none is in flight. -/
theorem idle_of_counts {s : State} (h : Inv s) (hcounts : s.issued = s.completed) : ∀ x ∈ s.insts, x.busy = false := by
  have := h.counted
  exact busyCount_eq_zero_iff.1 (by omega)

theorem ended_iff_of_inv {s : State} (h : Inv s) :
    s.ended = true ↔ (∀ k d, HostMove.issue k d ∉ s.moves) ∧ s.issued = s.completed := by
  rw [ended_iff, no_issue_iff]
  exact and_congr_right fun _ => ⟨And.left, fun hcounts => ⟨hcounts, idle_of_counts h hcounts⟩⟩

/-! ## A run that a reset cuts -/

/-- The reset event leaves the counters and stops every command in flight. -/
theorem cut_of_reset {s t : State} {x : Instance} {rest : List HostMove} (h : Inv s) (hm : s.moves = .reset :: rest)
    (hx : x ∈ s.insts) (hb : x.busy = true) (hstep : step s = .next t) : CutByReset t := by
  obtain ⟨t', hstep', -, hidle, -, -, -, hissued, hcompleted, -⟩ := resetEventAbandons s rest h hm
  cases hstep'.symm.trans hstep
  have hafter := busyCount_eq_zero_iff.2 hidle
  have hbefore : 0 < s.insts.countP (·.busy) := List.countP_pos_iff.2 ⟨x, hx, hb⟩
  have := h.counted
  unfold CutByReset
  omega

theorem cut_of_step {s t : State} (hcut : CutByReset s) (hstep : step s = .next t) : CutByReset t := by
  have := step_counts hstep
  unfold CutByReset at *
  omega

theorem not_ended_of_cut {s : State} (hcut : CutByReset s) : s.ended = false := by
  refine Bool.eq_false_of_not_eq_true fun hended => ?_
  obtain ⟨-, hcounts, -⟩ := (ended_iff s).1 hended
  unfold CutByReset at hcut
  omega

/-- Settles O59: once the counts agree the invariant leaves no command in flight, and after a cut they never agree. -/
theorem runEndsExactly : Obligations.RunEndsExactly := by
  refine ⟨fun s h => ⟨ended_iff_of_inv h, fun hended => ?_⟩, fun s t x rest => cut_of_reset, fun s t => cut_of_step,
    fun s => not_ended_of_cut⟩
  obtain ⟨-, -, hidle⟩ := (ended_iff s).1 hended
  exact hidle

/-! ## The result -/

theorem resetNext_of_ne {s : State} {m : HostMove} {rest : List HostMove} (hm : s.moves = m :: rest)
    (hne : m ≠ .reset) : s.resetNext = false := by
  simp [State.resetNext, hm, hne]

/-- Settles O60: ISSUE, transition and DONE end the run, and from then on no move is looked at. -/
theorem runResultIsMemoryAtEnd : Obligations.RunResultIsMemoryAtEnd := by
  intro s k x d i rest hm hrest hx hidle hd hdomain hcounts
  obtain ⟨s₁, hstep, hunder, hmem₁, hcfg₁⟩ := step_issue_underway hm hx hidle hd hdomain hcounts
  have hdomain₁ : InDomain s₁ i := by
    rw [inDomain_iff, hmem₁, hcfg₁, ← inDomain_iff]
    exact hdomain
  obtain ⟨s₂, hstep₁, hunder₁, hwrites, -⟩ := step_transition_underway hunder (.told _ hunder.moves) hd hdomain₁
  obtain ⟨t, hstep₂, hended, hmem₂, -⟩ := step_done_underway hunder₁ (.told _ hunder₁.moves) hrest
  have hexec := exec_next.2 ⟨(inDomain_iff s i).1 hdomain, rfl⟩
  refine ⟨_, t.mem, hexec, fun n => ?_, fun a => ?_⟩
  · calc s.result (n + 3)
        _ = s₁.result (n + 2) := result_of_step _ (not_ended_of_issue hm) (resetNext_of_ne hm nofun) hstep
        _ = s₂.result (n + 1) := result_of_step _ hunder.not_ended (resetNext_of_ne hunder.moves nofun) hstep₁
        _ = t.result n := result_of_step _ hunder₁.not_ended (resetNext_of_ne hunder₁.moves nofun) hstep₂
        _ = some t.mem := result_of_ended n hended
  · rw [hmem₂]
    exact read_eq_of_writes (hmem₁ ▸ hwrites) (exec_mem hexec) a

end Sys2Proof.Proofs.RunEnd
end
